-- ==== Sys2Proof/Word.lean ====
section
/-! DEFINITION. The word types of HUFFCORE (00_scope.md R5, R6, R7). Every quantity is unsigned. -/

namespace Sys2Proof

/-- A 64-bit command word `CW` (30_encoding.md R60). -/
abbrev CmdWord := BitVec 64

/-- The 4-bit opcode field `CW[63:60]` (R60), also the opcode echo of a response (R66). -/
abbrev Opc := BitVec 4

/-- An 8-bit symbol, or an 8-bit register number where a command has one (R60, R63). -/
abbrev Sym := BitVec 8

/-- A 9-bit node index (10_state.md R11). -/
abbrev Idx := BitVec 9

/-- A 32-bit frequency-table entry (10_state.md R16). -/
abbrev Freq := BitVec 32

/-- A 40-bit node weight (10_state.md R11). -/
abbrev Weight := BitVec 40

/-- A 64-bit payload bit count: TOTAL, PPOS and the header's count field (10_state.md R20, R21). -/
abbrev Count := BitVec 64

/-- A bit string, first bit first (00_scope.md R7). -/
abbrev BitStr := List Bool

end Sys2Proof
end

