-- ==== Sys2Proof/Config.lean ====
section
/-! DEFINITION. The implementation parameters of 00_scope.md R5. All are fixed by the spec; none is a
free value, because the spec leaves no value open that a rule reads (93_implementation_defined.md,
introduction of Part 1). -/

namespace Sys2Proof

/-- `NNODE`: the number of entries of the node arena (R5). -/
abbrev NNODE : Nat := 511

/-- `NIL`: the node index that means "absent" (R5, R11). -/
abbrev NIL : Idx := 0x1FF#9

/-- `MAXLEN`: the greatest length of a code in bits (R5). -/
abbrev MAXLEN : Nat := 255

/-- `W_COUNT`: the width of the header's count field (R5, R71). -/
abbrev WCOUNT : Nat := 64

/-- `W_SYM`: the width of the header's symbol field (R5, R72). -/
abbrev WSYM : Nat := 8

/-- `W_CODE`: the width of the packed image of a code (R5, R105). -/
abbrev WCODE : Nat := 256

end Sys2Proof
end

