-- ==== Sys2Proof/Syntax.lean ====
section
/-! DEFINITION. The ten commands of HUFFCORE (30_encoding.md R62), one constructor per row of
spec/opcode_table.json. A command is the spec's "instruction" (00_scope.md R2). -/

namespace Sys2Proof

/-- A command with its operands as the command word carries them (R63). -/
inductive Instr where
  /-- CLR: clear the core, end the run (40_control.md R81). -/
  | clr
  /-- LDF sym, count: load one entry of the frequency table (R82). -/
  | ldf (sym : Sym) (count : Freq)
  /-- BUILD: build the tree from FREQ (41_tree_builder.md R90). -/
  | build
  /-- GETC sym: return the code of a symbol (42_code_deriver.md R100). -/
  | getc (sym : Sym)
  /-- WRH: write the header to the sink (43_serializer.md R110). -/
  | wrh
  /-- RDH: read a header from the source (44_deserializer.md R120). -/
  | rdh
  /-- ENC sym: write the code of one symbol to the sink (45_encoder.md R130). -/
  | enc (sym : Sym)
  /-- DEC: decode one symbol by walking the tree (46_decoder.md R140). -/
  | dec
  /-- DECM: decode one symbol by matching codes (46_decoder.md R145). -/
  | decm
  /-- RDR reg: read a register, by number (40_control.md R83). -/
  | rdr (reg : Sym)
  deriving DecidableEq, Repr

end Sys2Proof
end

