-- ==== Sys2Proof/WellFormed.lean ====
section
/-! DEFINITION. Which terms of `Instr` are commands of the hardware: those some legal command word
stands for. The only operand with illegal values is RDR's register number (30_encoding.md R61, R64). -/

namespace Sys2Proof

/-- The greatest register number RDR accepts (10_state.md R24). -/
abbrev maxReg : Sym := 4#8

/-- `i` is a command of the hardware. Every value of a symbol and of a count is legal (R82, R100,
R130); a register number is legal up to 4 (R61 format R). -/
def Instr.wellFormed : Instr → Bool
  | .clr => true
  | .ldf _ _ => true
  | .build => true
  | .getc _ => true
  | .wrh => true
  | .rdh => true
  | .enc _ => true
  | .dec => true
  | .decm => true
  | .rdr reg => decide (reg ≤ maxReg)

end Sys2Proof
end

