-- ==== Sys2Proof/Decode.lean ====
section
/-! DEFINITION. The command word's fields, the decoder and the encoder (30_encoding.md R60 to R65). -/

namespace Sys2Proof

/-- `OPC = CW[63:60]` (R60). -/
def opcField (w : CmdWord) : Opc := w.extractLsb' 60 4

/-- `RSV = CW[59:40]` (R60). -/
def rsvField (w : CmdWord) : BitVec 20 := w.extractLsb' 40 20

/-- `SYM = CW[39:32]` (R60, R63). -/
def symField (w : CmdWord) : Sym := w.extractLsb' 32 8

/-- `IMM = CW[31:0]` (R60, R63). -/
def immField (w : CmdWord) : Freq := w.extractLsb' 0 32

/-- Why a word is illegal (R64): the name under which the decoder rejects it. -/
inductive Reject where
  /-- `OPC` is 0x0 or 0xB .. 0xF. -/
  | unusedOpcode
  /-- `RSV ≠ 0`. -/
  | reservedBits
  /-- `SYM ≠ 0` in format N. -/
  | symNotZero
  /-- `IMM ≠ 0` in format N, S or R. -/
  | immNotZero
  /-- `OPC = 0xA` and `SYM > 4`. -/
  | registerNumber
  deriving DecidableEq, Repr

/-- Format N: no operands (R61). -/
def formatN (i : Instr) (w : CmdWord) : Except Reject Instr :=
  if rsvField w ≠ 0 then .error .reservedBits
  else if symField w ≠ 0 then .error .symNotZero
  else if immField w ≠ 0 then .error .immNotZero
  else .ok i

/-- Format S: `SYM` is a symbol (R61). -/
def formatS (f : Sym → Instr) (w : CmdWord) : Except Reject Instr :=
  if rsvField w ≠ 0 then .error .reservedBits
  else if immField w ≠ 0 then .error .immNotZero
  else .ok (f (symField w))

/-- Format F: `SYM` is a symbol and `IMM` a count (R61). -/
def formatF (f : Sym → Freq → Instr) (w : CmdWord) : Except Reject Instr :=
  if rsvField w ≠ 0 then .error .reservedBits
  else .ok (f (symField w) (immField w))

/-- Format R: `SYM` is a register number, 0 .. 4 only (R61). -/
def formatR (f : Sym → Instr) (w : CmdWord) : Except Reject Instr :=
  if rsvField w ≠ 0 then .error .reservedBits
  else if immField w ≠ 0 then .error .immNotZero
  else if maxReg < symField w then .error .registerNumber
  else .ok (f (symField w))

/-- The decoder: every one of the 2^64 words is a command or is rejected by name (R62, R64). -/
def decode (w : CmdWord) : Except Reject Instr :=
  match opcField w with
  | 0x1#4 => formatN .clr w
  | 0x2#4 => formatF .ldf w
  | 0x3#4 => formatN .build w
  | 0x4#4 => formatS .getc w
  | 0x5#4 => formatN .wrh w
  | 0x6#4 => formatN .rdh w
  | 0x7#4 => formatS .enc w
  | 0x8#4 => formatN .dec w
  | 0x9#4 => formatN .decm w
  | 0xA#4 => formatR .rdr w
  | _ => .error .unusedOpcode

/-- The opcode of a command (R62). -/
def Instr.opcode : Instr → Opc
  | .clr => 0x1
  | .ldf _ _ => 0x2
  | .build => 0x3
  | .getc _ => 0x4
  | .wrh => 0x5
  | .rdh => 0x6
  | .enc _ => 0x7
  | .dec => 0x8
  | .decm => 0x9
  | .rdr _ => 0xA

/-- What a command puts in `SYM` (R61, R63). -/
def Instr.symOperand : Instr → Sym
  | .clr => 0
  | .ldf s _ => s
  | .build => 0
  | .getc s => s
  | .wrh => 0
  | .rdh => 0
  | .enc s => s
  | .dec => 0
  | .decm => 0
  | .rdr r => r

/-- What a command puts in `IMM` (R61, R63). -/
def Instr.immOperand : Instr → Freq
  | .clr => 0
  | .ldf _ n => n
  | .build => 0
  | .getc _ => 0
  | .wrh => 0
  | .rdh => 0
  | .enc _ => 0
  | .dec => 0
  | .decm => 0
  | .rdr _ => 0

/-- `{OPC, RSV, SYM, IMM}` as one word, `OPC` in the most significant place (R60). -/
def assemble (opc : Opc) (rsv : BitVec 20) (sym : Sym) (imm : Freq) : CmdWord :=
  (opc ++ rsv : BitVec 24) ++ (sym ++ imm : BitVec 40)

/-- The encoder: the command word of a command (R60 to R63). -/
def encode (i : Instr) : CmdWord := assemble i.opcode 0 i.symOperand i.immOperand

/-- The command word whose low `nbits` bits, numbered as spec/opcode_table.json numbers them, are
those of `w`, every bit above them 0. A command is one 64-bit word (R60, R65), so bit 0 is `CW[0]`. -/
def tableWord (nbits w : Nat) : CmdWord := BitVec.ofNat 64 (w % 2 ^ nbits)

/-- What the decoder reads from that word. -/
def decodeTableWord (nbits w : Nat) : Option Instr := (decode (tableWord nbits w)).toOption

end Sys2Proof
end

