-- ==== Sys2Proof/Machine/State.lean ====
section
/-! DEFINITION. The state of HUFFCORE (10_state.md), its reset value, and the names under which a step
can stop. -/

namespace Sys2Proof.Machine

/-- A symbol-indexed array held sparsely: `(symbol, entry)` pairs, symbols strictly rising, no pair
whose entry is what an unlisted symbol reads as (`Table.wf` in Machine/Ops.lean). -/
abbrev Table (α : Type) := List (Sym × α)

/-- One entry of the arena NODE (R11). -/
structure Node where
  weight : Weight
  symbol : Sym
  left : Idx
  right : Idx
  parent : Idx
  deriving DecidableEq, Repr

/-- The 2-bit register PHASE (R17). The value 3 is never held and has no constructor. -/
inductive Phase where
  /-- 0: no tree operation has run. -/
  | empty
  /-- 1: the tree came from FREQ. -/
  | built
  /-- 2: the tree came from a header. -/
  | read
  deriving DecidableEq, Repr

/-- The fault kinds of 60_exceptions.md R160. Taking one is a next state of the machine (R166). -/
inductive FaultKind where
  /-- R161. -/
  | malformedHeader
  /-- R162. -/
  | truncatedStream
  /-- R163. -/
  | unknownSymbol
  /-- R164: reserved for the host, raised by no command. -/
  | usageError
  /-- R165: the command word is illegal. -/
  | illegalCommand
  /-- R165: the phase, or the absence of a root, forbids the command. -/
  | illegalSequence
  deriving DecidableEq, Repr

/-- The three parts of a response (30_encoding.md R66). -/
structure Response where
  r0 : BitVec 64
  r1 : BitVec 64
  cb : BitVec 256
  deriving DecidableEq, Repr

/-- The machine: the eleven pieces of R10 (NALLOC is the length of `node`, R13, U15) and the four ports
(00_scope.md R2), which R10 names as inputs and outputs of a step and not as state of the core. -/
structure State where
  /-- FREQ (R16); an unlisted symbol reads 0. -/
  freq : Table Freq
  /-- The allocated entries `NODE[0 .. NALLOC-1]` in index order (R11, R13, R27). -/
  node : List Node
  /-- SYMIDX (R15); an unlisted symbol reads NIL. -/
  symidx : Table Idx
  /-- CODE (R18): the bit string of each valid entry; an unlisted symbol has `valid = 0`. -/
  code : Table BitStr
  /-- ROOT (R14). -/
  root : Idx
  /-- PHASE (R17). -/
  phase : Phase
  /-- FROZEN (R19). -/
  frozen : Bool
  /-- TOTAL (R20). -/
  total : Count
  /-- PPOS (R21). -/
  ppos : Count
  /-- ERR (R22). -/
  err : BitVec 4
  /-- Command port: the words issued and not yet executed, oldest first (R195, R204). -/
  cmds : List CmdWord
  /-- Source stream: the bits not yet consumed (20_memory.md R47). -/
  src : BitStr
  /-- Sink stream: the bits written so far (20_memory.md R46). -/
  sink : BitStr
  /-- Response port: the responses given, oldest first (R66, R204). -/
  resps : List Response
  deriving DecidableEq, Repr

/-- The state after reset (R27, R190): all tables empty, counters 0, ROOT = NIL, PHASE = EMPTY, ERR = 0.
The ports are not reset by the hardware (R48); here they start empty (DESIGN CHOICE, log entry 1). -/
def State.reset : State where
  freq := []
  node := []
  symidx := []
  code := []
  root := NIL
  phase := .empty
  frozen := false
  total := 0
  ppos := 0
  err := 0
  cmds := []
  src := []
  sink := []
  resps := []

/-- Why the model stops where the spec gives a rule no meaning: only in states that break the invariants
of R28, which no run holds (log entry 4). Each stop is safe: the hardware is never in such a state. -/
inductive Fault where
  /-- A rule followed a link to an index that names no allocated entry, which R41 excludes (20_memory.md).
  Raised by GETC, WRH, ENC, DEC, DECM. Safe. -/
  | absentNode
  /-- A walk over links went past the bound of 70_reset_and_hazards.md R206. Raised by GETC, WRH, ENC, DEC,
  DECM. Safe. -/
  | walkTooLong
  /-- BUILD would allocate more than 511 entries, which R84 excludes. Raised by BUILD. Safe. -/
  | arenaOverflow
  /-- WRH read `CODE[s].len` of an entry with `valid = 0`, which R18 excludes. Raised by WRH. Safe. -/
  | invalidCacheEntry
  deriving DecidableEq, Repr

/-- Why the model gives a command no meaning. -/
inductive Refusal where
  /-- An arm of `exec` without a meaning. Raised by no command of this model. Safe. -/
  | notModelled (mnemonic : String)
  deriving DecidableEq, Repr

end Sys2Proof.Machine
end

