-- ==== Sys2Proof/Machine/Operands.lean ====
section
/-! DEFINITION. Bit strings and the values they stand for: the multi-bit fields of the stream
(30_encoding.md R71, R72), the packed image of a code (42_code_deriver.md R105), and the numbers of
the fault kinds and phases. -/

namespace Sys2Proof.Machine

/-- `msb_N(v)`: the bits of `v`, most significant first (00_scope.md R7). -/
def msb {n : Nat} (v : BitVec n) : BitStr := (List.range n).map fun k => v.getMsbD k

/-- `v <- 2 × v + b` for each bit in turn: the number a bit string writes, most significant bit first
(44_deserializer.md R120). -/
def shiftIn : Nat → BitStr → Nat
  | v, [] => v
  | v, b :: bs => shiftIn (2 * v + b.toNat) bs

/-- `pack(c)`: bit `c[k]` at position `255-k`, all other bits 0 (R105). -/
def pack (c : BitStr) : BitVec 256 :=
  BitVec.ofNat WCODE (shiftIn 0 c) <<< (WCODE - c.length)

/-- The code of a fault kind, as ERR and `R0.ERR` hold it (60_exceptions.md R160). -/
def FaultKind.code : FaultKind → BitVec 4
  | .malformedHeader => 1
  | .truncatedStream => 2
  | .unknownSymbol => 3
  | .usageError => 4
  | .illegalCommand => 5
  | .illegalSequence => 6

/-- The 2-bit value of PHASE (10_state.md R17). -/
def Phase.code : Phase → BitVec 2
  | .empty => 0
  | .built => 1
  | .read => 2

/-- The 256 symbols in ascending order: `for s = 0 .. 255` (00_scope.md R8). -/
def allSyms : List Sym := (List.range 256).map (BitVec.ofNat 8)

end Sys2Proof.Machine
end

