-- ==== Sys2Proof/Machine/Flags.lean ====
section
/-! DEFINITION. The flags that are computed when STATUS is read, and the registers the host can read
(10_state.md R23, R24). HUFFCORE has no arithmetic condition codes. -/

namespace Sys2Proof.Machine

/-- NALLOC, 10 bits: the number of allocated arena entries (R13). -/
def State.nalloc (s : State) : BitVec 10 := BitVec.ofNat 10 s.node.length

/-- `DONE = (PPOS = TOTAL)` (R23). -/
def State.done (s : State) : Bool := decide (s.ppos = s.total)

/-- `ROOTV = (ROOT ≠ NIL)` (R23). -/
def State.rootv (s : State) : Bool := decide (s.root ≠ NIL)

/-- STATUS: `[3:0]` ERR, `[5:4]` PHASE, `[6]` FROZEN, `[7]` DONE, `[8]` ROOTV, `[63:9]` zero (R24). -/
def State.status (s : State) : BitVec 64 :=
  (0#55 ++ BitVec.ofBool s.rootv ++ BitVec.ofBool s.done ++ BitVec.ofBool s.frozen
    ++ s.phase.code ++ s.err : BitVec 64)

/-- The value RDR returns for a register number; none for the unassigned numbers 5 .. 255 (R24). -/
def hostRegister (reg : Sym) (s : State) : Option (BitVec 64) :=
  match reg.toNat with
  | 0 => some s.status
  | 1 => some s.total
  | 2 => some s.ppos
  | 3 => some (s.root.setWidth 64)
  | 4 => some (s.nalloc.setWidth 64)
  | _ => none

end Sys2Proof.Machine
end

