-- ==== Sys2Proof/Machine/Ops.lean ====
section
/-! DEFINITION. The named operations every command is written over: one setter per piece of state, the
arrays, the streams, the command and response ports, taking a fault and leaving the fault state, and
the dispatch rule. -/

namespace Sys2Proof.Machine

/-! ### One setter per piece of state -/

def State.withFreq (s : State) (v : Table Freq) : State := { s with freq := v }
def State.withNode (s : State) (v : List Node) : State := { s with node := v }
def State.withSymidx (s : State) (v : Table Idx) : State := { s with symidx := v }
def State.withCode (s : State) (v : Table BitStr) : State := { s with code := v }
def State.withRoot (s : State) (v : Idx) : State := { s with root := v }
def State.withPhase (s : State) (v : Phase) : State := { s with phase := v }
def State.withFrozen (s : State) (v : Bool) : State := { s with frozen := v }
def State.withTotal (s : State) (v : Count) : State := { s with total := v }
def State.withPpos (s : State) (v : Count) : State := { s with ppos := v }
def State.withErr (s : State) (v : BitVec 4) : State := { s with err := v }
def State.withCmds (s : State) (v : List CmdWord) : State := { s with cmds := v }
def State.withSrc (s : State) (v : BitStr) : State := { s with src := v }
def State.withSink (s : State) (v : BitStr) : State := { s with sink := v }
def State.withResps (s : State) (v : List Response) : State := { s with resps := v }

/-! ### The symbol-indexed arrays FREQ, SYMIDX, CODE (20_memory.md R40) -/

namespace Table

variable {α : Type}

/-- The entry listed for a symbol. -/
def find : Table α → Sym → Option α
  | [], _ => none
  | (k, v) :: t, s => if k = s then some v else find t s

/-- The array with the entry of one symbol unlisted. -/
def erase : Table α → Sym → Table α
  | [], _ => []
  | (k, v) :: t, s => if k = s then erase t s else (k, v) :: erase t s

/-- The array with the entry of one symbol listed as `v`, symbols kept rising. -/
def insert : Table α → Sym → α → Table α
  | [], s, v => [(s, v)]
  | (k, w) :: t, s, v =>
    if s < k then (s, v) :: (k, w) :: t
    else if s = k then (s, v) :: t
    else (k, w) :: insert t s v

/-- The symbols listed rise strictly. -/
def rising : Table α → Bool
  | [] => true
  | (k, _) :: t => t.all (fun e => decide (k < e.1)) && rising t

/-- The canonical form: symbols strictly rising, and no entry that an unlisted symbol reads as. -/
def wf (absent : α → Bool) (t : Table α) : Bool := rising t && t.all (fun e => !absent e.2)

end Table

/-- `FREQ[s]`; an unlisted symbol reads 0, as R27 gives it at reset. -/
def freqAt (t : Table Freq) (s : Sym) : Freq := (Table.find t s).getD 0

/-- `FREQ[s] <- n`. -/
def setFreq (t : Table Freq) (s : Sym) (n : Freq) : Table Freq :=
  if n = 0 then Table.erase t s else Table.insert t s n

/-- `SYMIDX[s]`; an unlisted symbol reads NIL, as R27 gives it at reset. -/
def symidxAt (t : Table Idx) (s : Sym) : Idx := (Table.find t s).getD NIL

/-- `SYMIDX[s] <- i`. -/
def setSymidx (t : Table Idx) (s : Sym) (i : Idx) : Table Idx :=
  if i = NIL then Table.erase t s else Table.insert t s i

/-- `code(CODE[s])` when `CODE[s].valid = 1`, else none (10_state.md R18). -/
def codeAt (t : Table BitStr) (s : Sym) : Option BitStr := Table.find t s

/-- `CODE[s] <- {valid = 1, len = |c|, bits = pack(c)}` (42_code_deriver.md R101). -/
def setCode (t : Table BitStr) (s : Sym) (c : BitStr) : Table BitStr := Table.insert t s c

/-- The canonical form of the three arrays: every equal content is equal data. -/
def State.tablesWf (s : State) : Bool :=
  Table.wf (fun n => decide (n = 0)) s.freq && Table.wf (fun i => decide (i = NIL)) s.symidx
    && Table.wf (fun c => c.isEmpty) s.code

/-! ### The arena NODE (10_state.md R11 to R13) -/

/-- `NODE[i]` for an allocated entry; NIL names none (R11, R13). -/
def nodeAt (ns : List Node) (i : Idx) : Option Node := if i = NIL then none else ns[i.toNat]?

/-- `leaf(i)`: both children absent (R12). -/
def Node.isLeaf (n : Node) : Bool := decide (n.left = NIL) && decide (n.right = NIL)

/-- The index `alloc()` returns: the old NALLOC (R13). The entry is then written at the end of the list. -/
def nextIdx (ns : List Node) : Idx := BitVec.ofNat 9 ns.length

/-- `NODE[i].left <- l`. -/
def setLeft (ns : List Node) (i l : Idx) : List Node := ns.modify i.toNat fun n => { n with left := l }

/-- `NODE[i].right <- r`. -/
def setRight (ns : List Node) (i r : Idx) : List Node := ns.modify i.toNat fun n => { n with right := r }

/-- `NODE[i].parent <- p`. -/
def setParent (ns : List Node) (i p : Idx) : List Node := ns.modify i.toNat fun n => { n with parent := p }

/-! ### The streams (20_memory.md R46, R47) -/

/-- `SinkPut(b)`: append one bit; it always succeeds (R46). -/
def sinkPut (s : State) (b : Bool) : State := s.withSink (s.sink ++ [b])

/-- `SinkPut` for each bit of a string, first bit first. -/
def sinkPutAll (s : State) (bs : BitStr) : State := s.withSink (s.sink ++ bs)

/-- `SrcGet()`: the first bit and the rest, or none (EOS) when no bit is left (R47). -/
def srcGet : BitStr → Option (Bool × BitStr)
  | [] => none
  | b :: rest => some (b, rest)

/-- `n` times `b <- SrcGet(); v <- 2 × v + b` (44_deserializer.md R120): the value, or none where EOS was
met, and what is left of the source. -/
def readField : Nat → Nat → BitStr → Option Nat × BitStr
  | 0, v, src => (some v, src)
  | k + 1, v, src =>
    match srcGet src with
    | none => (none, src)
    | some (b, rest) => readField k (2 * v + b.toNat) rest

/-! ### Responses (30_encoding.md R66, R67) -/

/-- The fields of a completed command's response that a rule names; the others are 0 (R66, R67). -/
structure Reply where
  len : BitVec 8 := 0
  sym : Sym := 0
  r1 : BitVec 64 := 0
  cb : BitVec 256 := 0
  deriving DecidableEq, Repr

/-- `R0`: `[63:60]` ERR, `[59:56]` opcode echo, `[55:16]` zero, `[15:8]` LEN, `[7:0]` SYM (R66). -/
def packR0 (err : BitVec 4) (opc : Opc) (len : BitVec 8) (sym : Sym) : BitVec 64 :=
  (err ++ opc ++ 0#40 ++ len ++ sym : BitVec 64)

/-- Append one response to the response port. -/
def answer (r : Response) (s : State) : State := s.withResps (s.resps ++ [r])

/-- `respond(ERR = 0, …)`: the response of a command that completed (40_control.md R80 step 5). -/
def respond (opc : Opc) (r : Reply) (s : State) : State :=
  answer ⟨packR0 0 opc r.len r.sym, r.r1, r.cb⟩ s

/-! ### Faults (60_exceptions.md R166, R167, R170) -/

/-- The response of a command that faulted or was refused: the code and the opcode echo, all else 0. -/
def faultResponse (code : BitVec 4) (opc : Opc) : Response := ⟨packR0 code opc 0 0, 0, 0⟩

/-- `raise K`: fault entry. ERR takes the code if it holds 0, the command ends, the response carries the
code; nothing else is saved or changed (R166). -/
def takeFault (k : FaultKind) (opc : Opc) (s : State) : State :=
  answer (faultResponse k.code opc) (if s.err = 0 then s.withErr k.code else s)

/-- Refusal in the fault state: no state changes, the response carries the sticky code (R167). -/
def refuse (opc : Opc) (s : State) : State := answer (faultResponse s.err opc) s

/-- The only exit from the fault state (R170): every piece of core state at its reset value, the ports
untouched (40_control.md R81, 20_memory.md R48). -/
def clearCore (s : State) : State :=
  (((State.reset.withCmds s.cmds).withSrc s.src).withSink s.sink).withResps s.resps

/-- How a command's pseudocode ends. -/
inductive Ending where
  /-- It reached `respond(ERR = 0, …)`. -/
  | done (r : Reply) (s : State)
  /-- It reached `raise K`, with the state written up to there (R168). -/
  | raised (k : FaultKind) (s : State)
  /-- The spec gives the rule no meaning in this state (log entry 4). -/
  | stuck (f : Fault)
  deriving DecidableEq, Repr

/-- The response step of R80, for each ending. -/
def conclude (opc : Opc) : Ending → Host.Outcome State Fault Refusal
  | .done r s => .next (respond opc r s)
  | .raised k s => .next (takeFault k opc s)
  | .stuck f => .fault f

/-! ### Dispatch (40_control.md R80) -/

/-- An illegal word, or RDR of an unassigned register: refused in the fault state (step 1), else
IllegalCommand (step 2). -/
def illegalCommand (opc : Opc) (s : State) : State :=
  if s.err ≠ 0 then refuse opc s else takeFault .illegalCommand opc s

/-- A legal command other than CLR and RDR: refused in the fault state (step 1), IllegalSequence where
the phase or the missing root forbids it (step 3), else its pseudocode (steps 4 and 5). -/
def dispatch (opc : Opc) (legal : State → Bool) (body : State → Ending) (s : State) :
    Host.Outcome State Fault Refusal :=
  if s.err ≠ 0 then .next (refuse opc s)
  else if legal s then conclude opc (body s)
  else .next (takeFault .illegalSequence opc s)

/-- LDF, BUILD, RDH: legal in EMPTY only (10_state.md R17). -/
def legalInEmpty (s : State) : Bool := decide (s.phase = .empty)

/-- GETC, ENC: legal in every phase (R17). -/
def legalAlways (_ : State) : Bool := true

/-- WRH: legal in BUILT with a root (R17). -/
def legalInBuilt (s : State) : Bool := decide (s.phase = .built) && s.rootv

/-- DEC, DECM: legal in BUILT or READ, with a root (R17). -/
def legalWithTree (s : State) : Bool := decide (s.phase ≠ .empty) && s.rootv

/-! ### The command port (00_scope.md R2, 70_reset_and_hazards.md R195, R204) -/

/-- The next command word the host has issued, taken from the port; none when none is pending. -/
def fetch (s : State) : Option (CmdWord × State) :=
  match s.cmds with
  | [] => none
  | w :: rest => some (w, s.withCmds rest)

/-- The state with one word put in front of the pending words: the next one to be executed. -/
def placeWord (w : CmdWord) (s : State) : State := s.withCmds (w :: s.cmds)

end Sys2Proof.Machine
end

