-- ==== Sys2Proof/Machine/CodeDeriver.lean ====
section
/-! DEFINITION. `derive`, `getcode` and GETC (42_code_deriver.md R100 to R105). -/

namespace Sys2Proof.Machine

/-- The loop of `derive` (R102): from node `i` up to the root, prepending one bit per edge to `c`. The
first argument bounds the number of edges (R206). -/
def climb (ns : List Node) (root : Idx) : Nat → Idx → BitStr → Except Fault BitStr
  | 0, i, c => if i = root then .ok c else .error .walkTooLong
  | k + 1, i, c =>
    if i = root then .ok c
    else
      match nodeAt ns i with
      | none => .error .absentNode
      | some n =>
        match nodeAt ns n.parent with
        | none => .error .absentNode
        | some p => climb ns root k n.parent (decide (p.left ≠ i) :: c)

/-- `derive(s)` (R102): empty for an absent symbol, `<0>` when the leaf is the root, else the path. -/
def derive (ns : List Node) (symidx : Table Idx) (root : Idx) (s : Sym) : Except Fault BitStr :=
  if symidxAt symidx s = NIL then .ok []
  else if symidxAt symidx s = root then .ok [false]
  else climb ns root MAXLEN (symidxAt symidx s) []

/-- `getcode(s)` (R101): the code, and CODE after the lookup. -/
def getcode (st : State) (code : Table BitStr) (s : Sym) : Except Fault (BitStr × Table BitStr) :=
  match codeAt code s with
  | some c => .ok (c, code)
  | none =>
    match derive st.node st.symidx st.root s with
    | .error f => .error f
    | .ok c => .ok (c, if !c.isEmpty && !st.frozen then setCode code s c else code)

/-- `for s in ss: getcode(s)` (R111, R145): the codes, paired with their symbols in the same order, and
CODE after the lookups. -/
def getcodes (st : State) : List Sym → Table BitStr → Except Fault (List (Sym × BitStr) × Table BitStr)
  | [], code => .ok ([], code)
  | s :: ss, code =>
    match getcode st code s with
    | .error f => .error f
    | .ok (c, code1) =>
      match getcodes st ss code1 with
      | .error f => .error f
      | .ok (cs, code2) => .ok ((s, c) :: cs, code2)

/-- The pseudocode of GETC (R100). -/
def getcBody (sym : Sym) (s : State) : Ending :=
  match getcode s s.code sym with
  | .error f => .stuck f
  | .ok (c, code) => .done { len := BitVec.ofNat 8 c.length, cb := pack c } (s.withCode code)

/-- GETC sym (R100). -/
def execGetc (sym : Sym) (s : State) : Host.Outcome State Fault Refusal :=
  dispatch (Instr.getc sym).opcode legalAlways (getcBody sym) s

end Sys2Proof.Machine
end

