-- ==== Sys2Proof/Machine/Control.lean ====
section
/-! DEFINITION. CLR, LDF, RDR (40_control.md R81 to R83). -/

namespace Sys2Proof.Machine

/-- CLR (R81): legal in every phase and in the fault state. -/
def execClr (s : State) : Host.Outcome State Fault Refusal :=
  .next (respond Instr.clr.opcode {} (clearCore s))

/-- LDF sym, count (R82): the write replaces the old value. -/
def execLdf (sym : Sym) (count : Freq) (s : State) : Host.Outcome State Fault Refusal :=
  dispatch (Instr.ldf sym count).opcode legalInEmpty
    (fun s => .done {} (s.withFreq (setFreq s.freq sym count))) s

/-- RDR reg (R83): legal in every phase and in the fault state; its response carries ERR 0 even there.
An unassigned register number is an illegal word (R24, R64). -/
def execRdr (reg : Sym) (s : State) : Host.Outcome State Fault Refusal :=
  match hostRegister reg s with
  | some v => .next (respond (Instr.rdr reg).opcode { r1 := v } s)
  | none => .next (illegalCommand (Instr.rdr reg).opcode s)

end Sys2Proof.Machine
end

