-- ==== Sys2Proof/Machine/Decoder.lean ====
section
/-! DEFINITION. DEC and DECM (46_decoder.md R140 to R147). -/

namespace Sys2Proof.Machine

/-- What reading the payload moves: PPOS and the source. -/
structure Payload where
  ppos : Count
  src : BitStr
  deriving DecidableEq, Repr

/-- One request for a payload bit, by DEC or DECM: the count test first (R142), then `SrcGet()` (R143),
then PPOS. A fault leaves both as they were. -/
def payloadBit (total : Count) (p : Payload) : Except FaultKind (Bool × Payload) :=
  if total ≤ p.ppos then .error .malformedHeader
  else
    match srcGet p.src with
    | none => .error .truncatedStream
    | some (b, rest) => .ok (b, { ppos := p.ppos + 1, src := rest })

/-- How the decoding of one symbol ends. -/
inductive Decoded where
  /-- A symbol was resolved by `len` bits. -/
  | symbol (sym : Sym) (len : Nat) (p : Payload)
  | raised (k : FaultKind) (p : Payload)
  | stuck (f : Fault)
  deriving DecidableEq, Repr

/-- The cursor transfer (R141): an internal node's left child on 0, right child on 1; a leaf stays
(R144). -/
def moveCursor (n : Node) (cur : Idx) (b : Bool) : Idx :=
  if n.isLeaf then cur else if b then n.right else n.left

/-- The loop of DEC (R140): `n` bits consumed so far, cursor at `cur`. The first argument bounds the bits
still to be consumed (R206). -/
def walkDown (ns : List Node) (total : Count) : Nat → Idx → Nat → Payload → Decoded
  | 0, _, _, _ => .stuck .walkTooLong
  | k + 1, cur, n, p =>
    match payloadBit total p with
    | .error f => .raised f p
    | .ok (b, q) =>
      match nodeAt ns cur with
      | none => .stuck .absentNode
      | some c =>
        match nodeAt ns (moveCursor c cur b) with
        | none => .stuck .absentNode
        | some d => if d.isLeaf then .symbol d.symbol (n + 1) q else walkDown ns total k (moveCursor c cur b) (n + 1) q

/-- The state with what the decoding of one symbol moved. -/
def State.withPayload (s : State) (p : Payload) : State := (s.withPpos p.ppos).withSrc p.src

/-- A decoder's response: `SYM` and `LEN` (30_encoding.md R67). -/
def decoded (s : State) : Decoded → Ending
  | .symbol sym len p => .done { sym := sym, len := BitVec.ofNat 8 len } (s.withPayload p)
  | .raised k p => .raised k (s.withPayload p)
  | .stuck f => .stuck f

/-- The pseudocode of DEC (R140). -/
def decBody (s : State) : Ending :=
  decoded s (walkDown s.node s.total MAXLEN s.root 0 { ppos := s.ppos, src := s.src })

/-- DEC (R140). -/
def execDec (s : State) : Host.Outcome State Fault Refusal :=
  dispatch Instr.dec.opcode legalWithTree decBody s

/-- The least present symbol whose code is `cand` (R145). -/
def matchCode (symidx : Table Idx) (cand : BitStr) : List (Sym × BitStr) → Option Sym
  | [] => none
  | (s, c) :: cs => if symidxAt symidx s ≠ NIL ∧ c = cand then some s else matchCode symidx cand cs

/-- The loop of DECM (R145): candidate `cand`. The first argument is 255 less `|cand|`; at 0 no longer
candidate can match (R146). -/
def matchBits (symidx : Table Idx) (codes : List (Sym × BitStr)) (total : Count) :
    Nat → BitStr → Payload → Decoded
  | 0, _, p => .raised .malformedHeader p
  | k + 1, cand, p =>
    match payloadBit total p with
    | .error f => .raised f p
    | .ok (b, q) =>
      match matchCode symidx (cand ++ [b]) codes with
      | some s => .symbol s (cand ++ [b]).length q
      | none => matchBits symidx codes total k (cand ++ [b]) q

/-- The pseudocode of DECM (R145): all 256 codes first, then bit by bit. -/
def decmBody (s : State) : Ending :=
  match getcodes s allSyms s.code with
  | .error f => .stuck f
  | .ok (codes, code) =>
    decoded (s.withCode code)
      (matchBits s.symidx codes s.total MAXLEN [] { ppos := s.ppos, src := s.src })

/-- DECM (R145). -/
def execDecm (s : State) : Host.Outcome State Fault Refusal :=
  dispatch Instr.decm.opcode legalWithTree decmBody s

end Sys2Proof.Machine
end

