-- ==== Sys2Proof/Machine/Deserializer.lean ====
section
/-! DEFINITION. RDH (44_deserializer.md R120 to R126). -/

namespace Sys2Proof.Machine

/-- What `parse` reads and writes: the source and the two arrays. -/
structure Parsing where
  src : BitStr
  node : List Node
  symidx : Table Idx
  deriving DecidableEq, Repr

/-- How `parse` ends: with the index of the node it made, or at a `raise`, with what was written. -/
inductive Parsed where
  | made (i : Idx) (p : Parsing)
  | raised (k : FaultKind) (p : Parsing)
  deriving DecidableEq, Repr

/-- The leaf branch of `parse` (R120), after its tag bit: 8 symbol bits, the duplicate test of R123 (b),
the leaf. -/
def parseLeaf (par : Idx) (p : Parsing) : Parsed :=
  match readField WSYM 0 p.src with
  | (none, src) => .raised .truncatedStream { p with src := src }
  | (some n, src) =>
    let v := BitVec.ofNat 8 n
    if symidxAt p.symidx v ≠ NIL then .raised .malformedHeader { p with src := src }
    else
      let i := nextIdx p.node
      .made i
        { src := src
          node := p.node ++ [{ weight := 0, symbol := v, left := NIL, right := NIL, parent := par }]
          symidx := setSymidx p.symidx v i }

/-- `parse(par)` (R120, R122). The first argument is at least the number of free arena entries, so at 0
the arena is full: a tag bit, if there is one, is then one too many (R123 (a), R124). -/
def parse : Nat → Idx → Parsing → Parsed
  | 0, _, p =>
    match srcGet p.src with
    | none => .raised .truncatedStream p
    | some (_, src) => .raised .malformedHeader { p with src := src }
  | k + 1, par, p =>
    match srcGet p.src with
    | none => .raised .truncatedStream p
    | some (b, src) =>
      if NNODE ≤ p.node.length then .raised .malformedHeader { p with src := src }
      else if b then parseLeaf par { p with src := src }
      else
        let i := nextIdx p.node
        let node := p.node ++ [{ weight := 0, symbol := 0, left := NIL, right := NIL, parent := par }]
        match parse k i { p with src := src, node := node } with
        | .raised f q => .raised f q
        | .made l q =>
          match parse k i { q with node := setLeft q.node i l } with
          | .raised f r => .raised f r
          | .made r q2 => .made i { q2 with node := setRight q2.node i r }

/-- The state with what `parse` wrote. -/
def State.withParsing (s : State) (p : Parsing) : State :=
  ((s.withSrc p.src).withNode p.node).withSymidx p.symidx

/-- The pseudocode of RDH (R120): the 64 count bits (R121), then the tree (R122). -/
def rdhBody (s : State) : Ending :=
  match readField WCOUNT 0 s.src with
  | (none, src) => .raised .truncatedStream (s.withSrc src)
  | (some t, src) =>
    let total := BitVec.ofNat WCOUNT t
    let s1 := (s.withTotal total).withPpos 0
    match parse NNODE NIL { src := src, node := s.node, symidx := s.symidx } with
    | .raised k p => .raised k (s1.withParsing p)
    | .made r p => .done { r1 := total } (((s1.withParsing p).withRoot r).withPhase .read)

/-- RDH (R120). -/
def execRdh (s : State) : Host.Outcome State Fault Refusal :=
  dispatch Instr.rdh.opcode legalInEmpty rdhBody s

end Sys2Proof.Machine
end

