-- ==== Sys2Proof/Machine/Encoder.lean ====
section
/-! DEFINITION. ENC (45_encoder.md R130 to R133). -/

namespace Sys2Proof.Machine

/-- `SinkPut(c[k]); PPOS <- (PPOS + 1) mod 2^64` for each bit in string order (R130 to R132). -/
def putPayload (s : State) : BitStr → State
  | [] => s
  | b :: c => putPayload ((sinkPut s b).withPpos (s.ppos + 1)) c

/-- The pseudocode of ENC (R130). -/
def encBody (sym : Sym) (s : State) : Ending :=
  match getcode s s.code sym with
  | .error f => .stuck f
  | .ok (c, code) =>
    if c.isEmpty then .raised .unknownSymbol (s.withCode code)
    else .done { len := BitVec.ofNat 8 c.length } (putPayload (s.withCode code) c)

/-- ENC sym (R130). -/
def execEnc (sym : Sym) (s : State) : Host.Outcome State Fault Refusal :=
  dispatch (Instr.enc sym).opcode legalAlways (encBody sym) s

end Sys2Proof.Machine
end

