-- ==== Sys2Proof/Machine/Serializer.lean ====
section
/-! DEFINITION. WRH (43_serializer.md R110 to R115). -/

namespace Sys2Proof.Machine

/-- `emit(i)` (R110, R114): the bits of the preorder walk below node `i`. The first argument bounds the
number of levels. -/
def emit (ns : List Node) : Nat → Idx → Except Fault BitStr
  | 0, _ => .error .walkTooLong
  | k + 1, i =>
    match nodeAt ns i with
    | none => .error .absentNode
    | some n =>
      if n.isLeaf then .ok (true :: msb n.symbol)
      else
        match emit ns k n.left with
        | .error f => .error f
        | .ok l =>
          match emit ns k n.right with
          | .error f => .error f
          | .ok r => .ok (false :: (l ++ r))

/-- The sum of R112, `CODE[s].len × NODE[SYMIDX[s]].weight` over the present symbols, exact. -/
def encodedBits (st : State) (code : Table BitStr) : List Sym → Nat → Except Fault Nat
  | [], t => .ok t
  | s :: ss, t =>
    if symidxAt st.symidx s = NIL then encodedBits st code ss t
    else
      match codeAt code s with
      | none => .error .invalidCacheEntry
      | some c =>
        match nodeAt st.node (symidxAt st.symidx s) with
        | none => .error .absentNode
        | some n => encodedBits st code ss (t + c.length * n.weight.toNat)

/-- The pseudocode of WRH (R110): derive all, freeze (R111), count (R112), write the count most
significant bit first (R113), write the tree (R114). -/
def wrhBody (s : State) : Ending :=
  match getcodes s allSyms s.code with
  | .error f => .stuck f
  | .ok (_, code) =>
    match encodedBits s code allSyms 0 with
    | .error f => .stuck f
    | .ok t =>
      match emit s.node (MAXLEN + 1) s.root with
      | .error f => .stuck f
      | .ok tree =>
        let total := BitVec.ofNat WCOUNT t
        .done { r1 := total }
          (sinkPutAll ((((s.withCode code).withFrozen true).withTotal total).withPpos 0)
            (msb total ++ tree))

/-- WRH (R110). -/
def execWrh (s : State) : Host.Outcome State Fault Refusal :=
  dispatch Instr.wrh.opcode legalInBuilt wrhBody s

end Sys2Proof.Machine
end

