-- ==== Sys2Proof/Machine/TreeBuilder.lean ====
section
/-! DEFINITION. BUILD (41_tree_builder.md R90 to R95). -/

namespace Sys2Proof.Machine

/-- An element of the priority queue PQ: a node index with that node's weight (R92). -/
structure Queued where
  weight : Weight
  idx : Idx
  deriving DecidableEq, Repr

/-- The order of R92: least weight first, among equal weights least node index. -/
def Queued.before (a b : Queued) : Bool :=
  decide (a.weight < b.weight) || (decide (a.weight = b.weight) && decide (a.idx < b.idx))

/-- `extract_min(PQ)`: the least element and the others (R92). -/
def extractMin : List Queued → Option (Queued × List Queued)
  | [] => none
  | e :: pq =>
    match extractMin pq with
    | none => some (e, [])
    | some (m, rest) => if e.before m then some (e, pq) else some (m, e :: rest)

/-- What the leaf loop of R90 writes. -/
structure Leaves where
  node : List Node
  symidx : Table Idx
  pq : List Queued
  deriving DecidableEq, Repr

/-- One turn of the leaf loop: a leaf for a symbol of nonzero frequency (R90, R91). -/
def addLeaf (freq : Table Freq) (b : Leaves) (s : Sym) : Leaves :=
  if freqAt freq s = 0 then b
  else
    let w : Weight := (freqAt freq s).setWidth 40
    let i := nextIdx b.node
    { node := b.node ++ [{ weight := w, symbol := s, left := NIL, right := NIL, parent := NIL }]
      symidx := setSymidx b.symidx s i
      pq := { weight := w, idx := i } :: b.pq }

/-- The leaf loop: symbols in ascending order (R91). -/
def addLeaves (freq : Table Freq) (b : Leaves) : Leaves := allSyms.foldl (addLeaf freq) b

/-- One merge of R90 and R93: a new internal node over `a`, removed first, at the left and `b`, removed
second, at the right. -/
def mergeNode (ns : List Node) (a b : Queued) : List Node :=
  let i := nextIdx ns
  setParent (setParent
    (ns ++ [{ weight := a.weight + b.weight, symbol := 0, left := a.idx, right := b.idx, parent := NIL }])
    a.idx i) b.idx i

/-- The merge loop `while |PQ| > 1` and the choice of ROOT after it (R90, R95). The first argument is at
least `|PQ|`, which each merge lowers by one. -/
def mergeAll : Nat → List Node → List Queued → List Node × Idx
  | 0, ns, _ => (ns, NIL)
  | k + 1, ns, pq =>
    match extractMin pq with
    | none => (ns, NIL)
    | some (a, pq1) =>
      match extractMin pq1 with
      | none => (ns, a.idx)
      | some (b, pq2) =>
        mergeAll k (mergeNode ns a b) ({ weight := a.weight + b.weight, idx := nextIdx ns } :: pq2)

/-- `k`: the number of nonzero FREQ entries (R95). -/
def presentCount (freq : Table Freq) : Nat :=
  (allSyms.filter fun s => decide (freqAt freq s ≠ 0)).length

/-- The number of arena entries BUILD allocates: `2k − 1`, or 0 when `k = 0` (R95). -/
def buildSize (freq : Table Freq) : Nat := 2 * presentCount freq - 1

/-- The pseudocode of R90. The arena cannot overflow when NALLOC = 0 (R84). -/
def buildTree (s : State) : Ending :=
  if NNODE < s.node.length + buildSize s.freq then .stuck .arenaOverflow
  else
    let b := addLeaves s.freq { node := s.node, symidx := s.symidx, pq := [] }
    let m := mergeAll b.pq.length b.node b.pq
    .done {} ((((s.withNode m.1).withSymidx b.symidx).withRoot m.2).withPhase .built)

/-- BUILD (R90). -/
def execBuild (s : State) : Host.Outcome State Fault Refusal :=
  dispatch Instr.build.opcode legalInEmpty buildTree s

end Sys2Proof.Machine
end

