-- ==== Sys2Proof/Machine/Dispatch.lean ====
section
/-! DEFINITION. One arm per command (30_encoding.md R62). -/

namespace Sys2Proof.Machine

def exec (i : Instr) (s : State) : Host.Outcome State Fault Refusal :=
  match i with
  | .clr => Sys2Proof.Machine.execClr s
  | .ldf sym count => Sys2Proof.Machine.execLdf sym count s
  | .build => Sys2Proof.Machine.execBuild s
  | .getc sym => Sys2Proof.Machine.execGetc sym s
  | .wrh => Sys2Proof.Machine.execWrh s
  | .rdh => Sys2Proof.Machine.execRdh s
  | .enc sym => Sys2Proof.Machine.execEnc sym s
  | .dec => Sys2Proof.Machine.execDec s
  | .decm => Sys2Proof.Machine.execDecm s
  | .rdr reg => Sys2Proof.Machine.execRdr reg s

end Sys2Proof.Machine
end

