-- ==== Sys2Proof/Machine/Step.lean ====
section
/-! DEFINITION. One step: one command word, from the command port to its response (40_control.md R80,
70_reset_and_hazards.md R205). -/

namespace Sys2Proof.Machine

/-- Take the next pending word; an illegal word is refused or raises IllegalCommand (R80 steps 1 and 2), a
legal one runs. With no word pending the core is idle and keeps all its state (60_exceptions.md R179). -/
def step (s : State) : Host.Outcome State Fault Refusal :=
  match fetch s with
  | none => .next s
  | some (w, s1) =>
    match decode w with
    | .ok i => exec i s1
    | .error _ => .next (illegalCommand (opcField w) s1)

/-- `s` with that word presented by the host as its next command. -/
def State.withFetchWord (s : State) (nbits w : Nat) : State := placeWord (tableWord nbits w) s

end Sys2Proof.Machine
end

