-- ==== Sys2Proof/Safety.lean ====
section
/-! DEFINITION. The terms statements are made in: the tree a header describes (30_encoding.md R70), when
the arena holds one, the invariants between commands (10_state.md R28), and what a step leaves alone. -/

namespace Sys2Proof

/-- A binary tree with a symbol at each leaf: what the tree field of a header describes (R70, R72). -/
inductive CodeTree where
  | leaf (c : Sym)
  | fork (l r : CodeTree)
  deriving DecidableEq, Repr

namespace CodeTree

/-- The symbols at the leaves, left to right. -/
def leaves : CodeTree → List Sym
  | leaf c => [c]
  | fork l r => l.leaves ++ r.leaves

/-- The number of nodes. -/
def size : CodeTree → Nat
  | leaf _ => 1
  | fork l r => 1 + l.size + r.size

/-- The number of edges on the longest path. -/
def depth : CodeTree → Nat
  | leaf _ => 0
  | fork l r => 1 + max l.depth r.depth

/-- The tree field `node(i)` of R70. -/
def header : CodeTree → BitStr
  | leaf c => true :: Machine.msb c
  | fork l r => false :: (l.header ++ r.header)

/-- Each leaf's symbol with the path from the root down to the leaf, 0 = left, 1 = right (R102). -/
def paths : CodeTree → List (Sym × BitStr)
  | leaf c => [(c, [])]
  | fork l r =>
    (l.paths.map fun e => (e.1, false :: e.2)) ++ (r.paths.map fun e => (e.1, true :: e.2))

/-- Each symbol with its code: `<0>` for the symbol of a single-leaf tree, else its path (R102). -/
def codes : CodeTree → List (Sym × BitStr)
  | leaf c => [(c, [false])]
  | fork l r => (fork l r).paths

/-- `total_encoded_bit_count`: the sum over all leaves of (code length of that leaf's symbol) × (that
symbol's frequency), exact (43_serializer.md R112). -/
def payload (freq : Machine.Table Freq) (t : CodeTree) : Nat :=
  (t.codes.map fun e => e.2.length * (Machine.freqAt freq e.1).toNat).sum

/-- The subtree a bit string leads to from the root, if it stays in the tree (46_decoder.md R141). -/
def sub : CodeTree → BitStr → Option CodeTree
  | t, [] => some t
  | leaf _, _ :: _ => none
  | fork l r, b :: w => if b then r.sub w else l.sub w

end CodeTree

namespace Machine

/-- The bits of nodes read one after another in the order of R70, before their tree is complete: `none` is an
internal node (tag 0), `some c` a leaf (tag 1, then its symbol). -/
def tagBits : List (Option Sym) → BitStr
  | [] => []
  | none :: ts => false :: tagBits ts
  | some c :: ts => true :: (msb c ++ tagBits ts)

/-- The symbols of the leaves among such nodes. -/
def tagSyms : List (Option Sym) → List Sym
  | [] => []
  | none :: ts => tagSyms ts
  | some c :: ts => c :: tagSyms ts

/-- How many subtrees are still to come where `n` were to come and the nodes `ts` have been read since; 0 once
all are complete (R70). -/
def pending : Nat → List (Option Sym) → Nat
  | 0, _ => 0
  | n + 1, [] => n + 1
  | n + 1, none :: ts => pending (n + 2) ts
  | n + 1, some _ :: ts => pending n ts

/-- The nodes `ts`, as the first of a tree field: they fit the arena, the tree is not complete after them, and
no two of them are leaves of one symbol, so RDH has allocated them all and asks for another tag (R120). -/
def Unfinished (ts : List (Option Sym)) : Prop :=
  ts.length ≤ NNODE ∧ pending 1 ts ≠ 0 ∧ (tagSyms ts).Nodup

/-- `Holds ns par i t is`: the nodes of the arena `ns` from index `i` down, whose parent link is `par`, form
the tree `t`; `is` are their indices in preorder (R11, R12). -/
inductive Holds (ns : List Node) : Idx → Idx → CodeTree → List Idx → Prop where
  | leaf {par i : Idx} {n : Node} {c : Sym} (at_ : nodeAt ns i = some n) (up : n.parent = par)
      (nil : n.isLeaf = true) (sym : n.symbol = c) : Holds ns par i (.leaf c) [i]
  | fork {par i : Idx} {n : Node} {l r : CodeTree} {ls rs : List Idx} (at_ : nodeAt ns i = some n)
      (up : n.parent = par) (left : Holds ns i n.left l ls) (right : Holds ns i n.right r rs) :
      Holds ns par i (.fork l r) (i :: (ls ++ rs))

/-- The arena is exactly the tree `t` under ROOT: every allocated entry is a node of it, none twice
(R28 clause 4). -/
def TreeAt (s : State) (t : CodeTree) : Prop :=
  ∃ is : List Idx, Holds s.node NIL s.root t is ∧ is.Nodup ∧ is.length = s.node.length

/-- The weight rule of R28 clause 8 in phase BUILT, for one node. -/
def BuiltWeight (s : State) (n : Node) : Prop :=
  if n.isLeaf then n.weight = (freqAt s.freq n.symbol).setWidth 40 ∧ freqAt s.freq n.symbol ≠ 0
  else ∃ a b, nodeAt s.node n.left = some a ∧ nodeAt s.node n.right = some b ∧
    n.weight = a.weight + b.weight

/-- The invariants that hold between commands while ERR = 0 (R28, clauses 1 to 8 by number), with the
symbol field of internal nodes (R11) and the root of phase READ (R17). -/
structure Consistent (s : State) : Prop where
  /-- 1: NALLOC ≤ 511. -/
  arena : s.node.length ≤ NNODE
  /-- 2. -/
  fresh : s.phase = .empty → s.node = [] ∧ s.root = NIL ∧ s.symidx = [] ∧ s.code = [] ∧
    s.frozen = false ∧ s.total = 0 ∧ s.ppos = 0
  /-- 3. -/
  rooted : s.root = NIL ↔ s.node = []
  /-- 4, and the links of clause 1. -/
  tree : s.root ≠ NIL → ∃ t, TreeAt s t
  /-- 5. -/
  symbols : ∀ c i, i ≠ NIL →
    (symidxAt s.symidx c = i ↔ ∃ n, nodeAt s.node i = some n ∧ n.isLeaf = true ∧ n.symbol = c)
  /-- 6. -/
  cache : ∀ c w, codeAt s.code c = some w →
    symidxAt s.symidx c ≠ NIL ∧ derive s.node s.symidx s.root c = .ok w
  /-- 7. -/
  freeze : s.frozen = true → s.phase = .built ∧ s.root ≠ NIL ∧
    ∀ c, symidxAt s.symidx c ≠ NIL → (codeAt s.code c).isSome = true
  /-- 8, phase BUILT. -/
  built : s.phase = .built → ∀ n ∈ s.node, BuiltWeight s n
  /-- 8, phase READ. -/
  read : s.phase = .read → s.root ≠ NIL ∧ ∀ n ∈ s.node, n.weight = 0
  /-- R11: the symbol field of every internal node is 0. -/
  internal : ∀ n ∈ s.node, n.isLeaf = false → n.symbol = 0

/-- `j` was available when entry `i` was made: made before it, and without a parent made before it. -/
def Available (ns : List Node) (i j : Idx) (m : Node) : Prop :=
  nodeAt ns j = some m ∧ j.toNat < i.toNat ∧ (m.parent = NIL ∨ i.toNat ≤ m.parent.toNat)

/-- Entry `i` joins the two least of the entries that were available, the least at the left (R92, R93);
its weight is the exact sum of theirs (R94); its symbol field is 0 (R11). -/
def Merged (ns : List Node) (i : Idx) (n : Node) : Prop :=
  n.symbol = 0 ∧ n.left ≠ NIL ∧ n.right ≠ NIL ∧ ∃ l r, Available ns i n.left l ∧ Available ns i n.right r ∧
    Queued.before ⟨l.weight, n.left⟩ ⟨r.weight, n.right⟩ = true ∧
    n.weight = l.weight + r.weight ∧ n.weight.toNat = l.weight.toNat + r.weight.toNat ∧
    ∀ j m, Available ns i j m → j ≠ n.left → j ≠ n.right →
      Queued.before ⟨r.weight, n.right⟩ ⟨m.weight, j⟩ = true

/-- The codes ERR can hold (60_exceptions.md R160, R164). -/
def legalErr (e : BitVec 4) : Bool := e = 0 || e = 1 || e = 2 || e = 3 || e = 5 || e = 6

/-- The invariant of every state between commands: the arrays in canonical form, a legal code in ERR, and
R28 while ERR = 0. -/
structure Inv (s : State) : Prop where
  tables : s.tablesWf = true
  code : legalErr s.err = true
  between : s.err = 0 → Consistent s

/-- `derive(c)` in the state `s`, none where it answers the empty string (R102). -/
def derived (s : State) (c : Sym) : Option BitStr :=
  match derive s.node s.symidx s.root c with
  | .ok w => if w.isEmpty then none else some w
  | .error _ => none

/-- CODE is `code` after the lookup of the symbols `ss` in the state `s`: a valid entry stays as it is, and
an entry looked up takes the derived code, unless that is empty or FROZEN = 1 (R101). -/
def LookedUp (s : State) (ss : List Sym) (code : Table BitStr) : Prop :=
  ∀ c, codeAt code c = (codeAt s.code c).or (if c ∈ ss ∧ s.frozen = false then derived s c else none)

/-- The response of R66 with `R0.ERR = 0`, appended: the fields a row of R67 does not name are 0. -/
def completed (opc : Opc) (s : State) (len : Nat := 0) (sym : Sym := 0) (r1 : BitVec 64 := 0)
    (cb : BitVec 256 := 0) : State :=
  answer ⟨0#4 ++ opc ++ 0#40 ++ BitVec.ofNat 8 len ++ sym, r1, cb⟩ s

/-- Fault entry as R166 gives it, from ERR = 0: ERR takes the code, and the response is
`R0 = {code, CW[63:60], 56 zero bits}`, `R1 = 0`, `CB = 0`. -/
def faulted (code : BitVec 4) (opc : Opc) (s : State) : State :=
  answer ⟨code ++ opc ++ 0#56, 0, 0⟩ (s.withErr code)

/-- The number of present symbols: the leaves of the tree (R15). -/
def leafCount (s : State) : Nat := (allSyms.filter fun c => decide (symidxAt s.symidx c ≠ NIL)).length

/-- Every piece of core state of `t` is that of `s` (R10). -/
structure SameCore (s t : State) : Prop where
  freq : t.freq = s.freq
  node : t.node = s.node
  symidx : t.symidx = s.symidx
  code : t.code = s.code
  root : t.root = s.root
  phase : t.phase = s.phase
  frozen : t.frozen = s.frozen
  total : t.total = s.total
  ppos : t.ppos = s.ppos
  err : t.err = s.err

/-- Both streams and the pending command words of `t` are those of `s`. -/
structure SameStreams (s t : State) : Prop where
  src : t.src = s.src
  sink : t.sink = s.sink
  cmds : t.cmds = s.cmds

/-- Where the phase table of R17 forbids a command: outside its phase, or without the root it needs. -/
def PhaseForbids (i : Instr) (s : State) : Prop :=
  match i with
  | .clr => False
  | .ldf _ _ => s.phase ≠ .empty
  | .build => s.phase ≠ .empty
  | .getc _ => False
  | .wrh => s.phase ≠ .built ∨ s.root = NIL
  | .rdh => s.phase ≠ .empty
  | .enc _ => False
  | .dec => s.phase = .empty ∨ s.root = NIL
  | .decm => s.phase = .empty ∨ s.root = NIL
  | .rdr _ => False

/-- The write sets of R29: what a command leaves alone, whichever way it ends. ERR is written only from 0;
every command gives one response and takes no other command word. -/
def WritesOnly (i : Instr) (s t : State) : Prop :=
  t.cmds = s.cmds ∧ (∃ r, t.resps = s.resps ++ [r]) ∧
  match i with
  | .clr => SameCore State.reset t ∧ t.src = s.src ∧ t.sink = s.sink
  | .ldf c _ => (∀ d, d ≠ c → freqAt t.freq d = freqAt s.freq d) ∧ t.node = s.node ∧ t.symidx = s.symidx ∧
      t.code = s.code ∧ t.root = s.root ∧ t.phase = s.phase ∧ t.frozen = s.frozen ∧ t.total = s.total ∧
      t.ppos = s.ppos ∧ t.src = s.src ∧ t.sink = s.sink ∧ (s.err ≠ 0 → t.err = s.err)
  | .build => t.freq = s.freq ∧ t.code = s.code ∧ t.frozen = s.frozen ∧ t.total = s.total ∧ t.ppos = s.ppos ∧
      t.src = s.src ∧ t.sink = s.sink ∧ (s.err ≠ 0 → t.err = s.err)
  | .getc c => t.freq = s.freq ∧ t.node = s.node ∧ t.symidx = s.symidx ∧ t.root = s.root ∧ t.phase = s.phase ∧
      t.frozen = s.frozen ∧ t.total = s.total ∧ t.ppos = s.ppos ∧ t.src = s.src ∧ t.sink = s.sink ∧
      t.err = s.err ∧ (LookedUp s [c] t.code ∨ t.code = s.code)
  | .wrh => t.freq = s.freq ∧ t.node = s.node ∧ t.symidx = s.symidx ∧ t.root = s.root ∧ t.phase = s.phase ∧
      t.src = s.src ∧ (s.err ≠ 0 → t.err = s.err) ∧ (LookedUp s allSyms t.code ∨ t.code = s.code)
  | .rdh => t.freq = s.freq ∧ t.code = s.code ∧ t.frozen = s.frozen ∧ t.sink = s.sink ∧
      (s.err ≠ 0 → t.err = s.err)
  | .enc c => t.freq = s.freq ∧ t.node = s.node ∧ t.symidx = s.symidx ∧ t.root = s.root ∧ t.phase = s.phase ∧
      t.frozen = s.frozen ∧ t.total = s.total ∧ t.src = s.src ∧ (s.err ≠ 0 → t.err = s.err) ∧
      (LookedUp s [c] t.code ∨ t.code = s.code)
  | .dec => t.freq = s.freq ∧ t.node = s.node ∧ t.symidx = s.symidx ∧ t.code = s.code ∧ t.root = s.root ∧
      t.phase = s.phase ∧ t.frozen = s.frozen ∧ t.total = s.total ∧ t.sink = s.sink ∧
      (s.err ≠ 0 → t.err = s.err)
  | .decm => t.freq = s.freq ∧ t.node = s.node ∧ t.symidx = s.symidx ∧ t.root = s.root ∧ t.phase = s.phase ∧
      t.frozen = s.frozen ∧ t.total = s.total ∧ t.sink = s.sink ∧ (s.err ≠ 0 → t.err = s.err) ∧
      (LookedUp s allSyms t.code ∨ t.code = s.code)
  | .rdr _ => t.freq = s.freq ∧ t.node = s.node ∧ t.symidx = s.symidx ∧ t.code = s.code ∧ t.root = s.root ∧
      t.phase = s.phase ∧ t.frozen = s.frozen ∧ t.total = s.total ∧ t.ppos = s.ppos ∧ t.err = s.err ∧
      t.src = s.src ∧ t.sink = s.sink

/-- Commands executed one after another, each in the state the one before left (70_reset_and_hazards.md R204). -/
def execAll : List Instr → State → Host.Outcome State Fault Refusal
  | [], s => .next s
  | i :: is, s =>
    match exec i s with
    | .next t => execAll is t
    | .fault f => .fault f
    | .refused r => .refused r

/-- The symbols of nonzero frequency in ascending order: `s_0 < s_1 < ... < s_(k-1)` (R91). -/
def presentSyms (freq : Table Freq) : List Sym := allSyms.filter fun c => decide (freqAt freq c ≠ 0)

end Machine

end Sys2Proof
end

