-- ==== Sys2Proof/Certificates/Slice0/Obligations.lean ====
section
/-! DEFINITION. The statements about HUFFCORE. Each docstring names the rule it formalises; a statement about
a command is about every state that meets its hypotheses, reached by a run or not. -/

open Sys2Proof Sys2Proof.Machine

/-! ### The command word (30_encoding.md) -/

/-- Decoding the word of a well-formed command gives the command back, at every operand value (R60 to R63). -/
def Obligations.DecodeInvertsEncode : Prop :=
  ∀ i : Instr, i.wellFormed = true → decode (encode i) = .ok i

/-- Each command has one word: a word that decodes is the word of the command it decodes to, which is
well-formed (R60 to R65). -/
def Obligations.EncodeInvertsDecode : Prop :=
  ∀ (w : CmdWord) (i : Instr), decode w = .ok i → i.wellFormed = true ∧ encode i = w

/-- The decoder against the masks of R61 and the matches of R62, with the operands of R63. -/
def Obligations.DecodesByMaskAndMatch : Prop :=
  ∀ w : CmdWord,
    (decode w = .ok .clr ↔ w &&& 0xFFFFFFFFFFFFFFFF#64 = 0x1000000000000000#64) ∧
    (∀ c n, decode w = .ok (.ldf c n) ↔ w &&& 0xFFFFFF0000000000#64 = 0x2000000000000000#64 ∧
      c = w.extractLsb' 32 8 ∧ n = w.extractLsb' 0 32) ∧
    (decode w = .ok .build ↔ w &&& 0xFFFFFFFFFFFFFFFF#64 = 0x3000000000000000#64) ∧
    (∀ c, decode w = .ok (.getc c) ↔ w &&& 0xFFFFFF00FFFFFFFF#64 = 0x4000000000000000#64 ∧
      c = w.extractLsb' 32 8) ∧
    (decode w = .ok .wrh ↔ w &&& 0xFFFFFFFFFFFFFFFF#64 = 0x5000000000000000#64) ∧
    (decode w = .ok .rdh ↔ w &&& 0xFFFFFFFFFFFFFFFF#64 = 0x6000000000000000#64) ∧
    (∀ c, decode w = .ok (.enc c) ↔ w &&& 0xFFFFFF00FFFFFFFF#64 = 0x7000000000000000#64 ∧
      c = w.extractLsb' 32 8) ∧
    (decode w = .ok .dec ↔ w &&& 0xFFFFFFFFFFFFFFFF#64 = 0x8000000000000000#64) ∧
    (decode w = .ok .decm ↔ w &&& 0xFFFFFFFFFFFFFFFF#64 = 0x9000000000000000#64) ∧
    (∀ r, decode w = .ok (.rdr r) ↔ w &&& 0xFFFFFF00FFFFFFFF#64 = 0xA000000000000000#64 ∧
      r = w.extractLsb' 32 8 ∧ r.toNat ≤ 4)

/-- The illegal words are those R64 lists, and each, presented in a state without a fault, raises
IllegalCommand (code 5) and changes no other state. -/
def Obligations.IllegalWordsRaise : Prop :=
  ∀ w : CmdWord,
    let opc := (w.extractLsb' 60 4).toNat
    let illegal : Prop := opc = 0 ∨ 0xB ≤ opc ∨ w.extractLsb' 40 20 ≠ 0#20 ∨
      (opc ∈ [0x1, 0x3, 0x5, 0x6, 0x8, 0x9] ∧ w.extractLsb' 32 8 ≠ 0#8) ∨
      (opc ∈ [0x1, 0x3, 0x4, 0x5, 0x6, 0x7, 0x8, 0x9, 0xA] ∧ w.extractLsb' 0 32 ≠ 0#32) ∨
      (opc = 0xA ∧ 4 < (w.extractLsb' 32 8).toNat)
    ((∃ e, decode w = .error e) ↔ illegal) ∧
    (illegal → ∀ (s : State) (rest : List CmdWord), s.err = 0 → s.cmds = w :: rest →
      step s = .next (faulted 5 (w.extractLsb' 60 4) (s.withCmds rest)))

/-- Words written out from the syntax table of R68 decode to their commands, and the all-zero word to none
(R64). -/
def Obligations.SpecWordsDecode : Prop :=
  decode 0x1000000000000000#64 = .ok .clr ∧ decode 0x2000006100000003#64 = .ok (.ldf 0x61 3) ∧
  decode 0x3000000000000000#64 = .ok .build ∧ decode 0x4000006200000000#64 = .ok (.getc 0x62) ∧
  decode 0x5000000000000000#64 = .ok .wrh ∧ decode 0x6000000000000000#64 = .ok .rdh ∧
  decode 0x7000007200000000#64 = .ok (.enc 0x72) ∧ decode 0x8000000000000000#64 = .ok .dec ∧
  decode 0x9000000000000000#64 = .ok .decm ∧ decode 0xA000000400000000#64 = .ok (.rdr 4) ∧
  decode 0x0000000000000000#64 = .error .unusedOpcode ∧
  decode 0xA000000500000000#64 = .error .registerNumber

/-! ### One step: a command word, its dispatch and its response (40_control.md, 60_exceptions.md) -/

/-- A pending word that decodes to a command is taken from the command port and that command is executed
(R80); so is a word presented in front of the pending ones. How pending words stand in State is the model's
choice (log entry 1). -/
def Obligations.StepRunsDecodedCommand : Prop :=
  (∀ (s : State) (w : CmdWord) (rest : List CmdWord) (i : Instr), s.cmds = w :: rest → decode w = .ok i →
    step s = exec i (s.withCmds rest)) ∧
  (∀ (s : State) (i : Instr), i.wellFormed = true → step (s.withFetchWord 64 (encode i).toNat) = exec i s)

/-- With no word pending the core is idle and keeps all its state (R179); that an idle step exists at all is
the model's choice (log entry 1). -/
def Obligations.IdleStepKeepsState : Prop := ∀ s : State, s.cmds = [] → step s = .next s

/-- Every word, legal or not, in the fault state or not, is answered by exactly one response (R66): the opcode
echo, zeros in `R0[55:16]`, `R0.ERR`, nothing else beside a nonzero `R0.ERR`, and zero in every field the
command's row of R67 does not name. -/
def Obligations.OneResponsePerWord : Prop :=
  ∀ (s t : State) (w : CmdWord) (rest : List CmdWord), s.cmds = w :: rest → step s = .next t →
    ∃ r : Response, t.resps = s.resps ++ [r] ∧ t.cmds = rest ∧
      r.r0.extractLsb' 56 4 = w.extractLsb' 60 4 ∧ r.r0.extractLsb' 16 40 = 0#40 ∧
      (s.err = 0 → r.r0.extractLsb' 60 4 = t.err) ∧
      (s.err ≠ 0 → (decode w = .ok .clr ∨ ∃ n, decode w = .ok (.rdr n)) → r.r0.extractLsb' 60 4 = 0#4) ∧
      (s.err ≠ 0 → ¬ (decode w = .ok .clr ∨ ∃ n, decode w = .ok (.rdr n)) →
        r.r0.extractLsb' 60 4 = s.err) ∧
      (r.r0.extractLsb' 60 4 ≠ 0#4 → r.r0.extractLsb' 0 16 = 0#16 ∧ r.r1 = 0 ∧ r.cb = 0) ∧
      ∀ i, decode w = .ok i → match i with
        | .clr => r.r0.extractLsb' 0 16 = 0#16 ∧ r.r1 = 0 ∧ r.cb = 0
        | .ldf _ _ => r.r0.extractLsb' 0 16 = 0#16 ∧ r.r1 = 0 ∧ r.cb = 0
        | .build => r.r0.extractLsb' 0 16 = 0#16 ∧ r.r1 = 0 ∧ r.cb = 0
        | .getc _ => r.r0.extractLsb' 0 8 = 0#8 ∧ r.r1 = 0
        | .wrh => r.r0.extractLsb' 0 16 = 0#16 ∧ r.cb = 0
        | .rdh => r.r0.extractLsb' 0 16 = 0#16 ∧ r.cb = 0
        | .enc _ => r.r0.extractLsb' 0 8 = 0#8 ∧ r.r1 = 0 ∧ r.cb = 0
        | .dec => r.r1 = 0 ∧ r.cb = 0
        | .decm => r.r1 = 0 ∧ r.cb = 0
        | .rdr _ => r.r0.extractLsb' 0 16 = 0#16 ∧ r.cb = 0

/-- While ERR ≠ 0 every word but a legal CLR and a legal RDR is refused: no state changes, and the response is
`R0 = {ERR, CW[63:60], 56 zero bits}`, `R1 = 0`, `CB = 0` (R167). -/
def Obligations.RefusedInFaultState : Prop :=
  ∀ (s : State) (w : CmdWord) (rest : List CmdWord), s.err ≠ 0 → s.cmds = w :: rest →
    decode w ≠ .ok .clr → (∀ n, decode w ≠ .ok (.rdr n)) →
    step s = .next (answer ⟨s.err ++ w.extractLsb' 60 4 ++ 0#56, 0, 0⟩ (s.withCmds rest))

/-- Fault entry (R166): a command that ends in a fault from ERR = 0 has put a code in ERR, answers
`R0 = {code, CW[63:60], 56 zero bits}`, `R1 = 0`, `CB = 0`, takes no other command word, and has written
nothing outside its write set. -/
def Obligations.FaultEntryWritesErrAndResponse : Prop :=
  ∀ (i : Instr) (s t : State), i.wellFormed = true → s.err = 0 → exec i s = .next t → t.err ≠ 0 →
    t.resps = s.resps ++ [⟨t.err ++ i.opcode ++ 0#56, 0, 0⟩] ∧ legalErr t.err = true ∧ WritesOnly i s t

/-- Which commands can raise which codes (R160): 1 and 2 by RDH, DEC, DECM; 3 by ENC; 4 and 7 .. 15 by none;
5 by an illegal word, and by nothing else; 6 by the six commands R17 restricts. -/
def Obligations.FaultCodesByCommand : Prop :=
  (∀ (i : Instr) (s t : State), i.wellFormed = true → s.err = 0 → exec i s = .next t →
    match i with
    | .clr => t.err = 0
    | .ldf _ _ => t.err = 0 ∨ t.err = 6
    | .build => t.err = 0 ∨ t.err = 6
    | .getc _ => t.err = 0
    | .wrh => t.err = 0 ∨ t.err = 6
    | .rdh => t.err = 0 ∨ t.err = 1 ∨ t.err = 2 ∨ t.err = 6
    | .enc _ => t.err = 0 ∨ t.err = 3
    | .dec => t.err = 0 ∨ t.err = 1 ∨ t.err = 2 ∨ t.err = 6
    | .decm => t.err = 0 ∨ t.err = 1 ∨ t.err = 2 ∨ t.err = 6
    | .rdr _ => t.err = 0) ∧
  (∀ (s t : State) (w : CmdWord) (rest : List CmdWord), s.err = 0 → s.cmds = w :: rest →
    step s = .next t → (t.err = 5 ↔ ∃ e, decode w = .error e))

/-- ERR keeps the first code until CLR (R22), which R171 infers from R166 and R167. -/
def Obligations.ErrKeepsFirstCode : Prop :=
  ∀ s t : State, s.err ≠ 0 → step s = .next t →
    t.err = s.err ∨ (t.err = 0 ∧ ∃ w rest, s.cmds = w :: rest ∧ decode w = .ok .clr)

/-- IllegalCommand and IllegalSequence (R165): a word that is no command raises the first (code 5); a command
that the phase, or the missing root, forbids raises the second (code 6); each changes no other state, and
no other command raises the second. -/
def Obligations.PhaseTableDecidesIllegalSequence : Prop :=
  (∀ (i : Instr) (s : State), s.err = 0 →
    (PhaseForbids i s → exec i s = .next (faulted 6 i.opcode s)) ∧
    (¬ PhaseForbids i s → ∀ t, exec i s = .next t → t.err ≠ 6)) ∧
  ∀ (s : State) (w : CmdWord) (rest : List CmdWord) (e : Reject), s.err = 0 → s.cmds = w :: rest →
    decode w = .error e → step s = .next (faulted 5 (w.extractLsb' 60 4) (s.withCmds rest))

/-! ### Reset, CLR, LDF, RDR (10_state.md, 40_control.md) -/

/-- The state after reset and after every CLR (R27), with what RDR reads in it (R24: STATUS 0x080, ROOT 0x1FF);
CLR leaves both streams alone. -/
def Obligations.ResetValuesOfEveryRegister : Prop :=
  (∀ u : State, (u = State.reset ∨ ∃ s, exec .clr s = .next u) →
    (∀ c, freqAt u.freq c = 0) ∧ (∀ c, symidxAt u.symidx c = 0x1FF) ∧
    (∀ c, codeAt u.code c = none) ∧ u.nalloc = 0 ∧ u.root = 0x1FF ∧
    u.phase = .empty ∧ u.frozen = false ∧ u.total = 0 ∧ u.ppos = 0 ∧
    u.err = 0 ∧ hostRegister 0 u = some 0x080 ∧ hostRegister 1 u = some 0 ∧
    hostRegister 2 u = some 0 ∧ hostRegister 3 u = some 0x1FF ∧ hostRegister 4 u = some 0) ∧
  ∀ s u : State, exec .clr s = .next u → u.src = s.src ∧ u.sink = s.sink

/-- CLR, in every phase and in the fault state: every piece of core state takes its reset value, the streams
are not touched, and the response is all zero but the opcode echo (R81). One word encodes it. -/
def Obligations.ClearIsReset : Prop :=
  (∀ s : State, exec .clr s = .next (completed 0x1
    ((((State.reset.withCmds s.cmds).withSrc s.src).withSink s.sink).withResps s.resps))) ∧
  ∀ w : CmdWord, decode w = .ok .clr ↔ w = 0x1000000000000000#64

/-- LDF replaces one entry of FREQ in phase EMPTY, and raises IllegalSequence in the others (R82). -/
def Obligations.LoadFrequencyReplacesOneEntry : Prop :=
  ∀ (s : State) (c : Sym) (n : Freq), s.err = 0 →
    (s.phase = .empty → ∃ f, exec (.ldf c n) s = .next (completed 0x2 (s.withFreq f)) ∧
      ∀ d, freqAt f d = if d = c then n else freqAt s.freq d) ∧
    (s.phase ≠ .empty → exec (.ldf c n) s = .next (faulted 6 0x2 s))

/-- RDR returns the five registers and writes nothing, in every phase and in the fault state; its response
carries `R0.ERR = 0` even there; its word is `0xA000000000000000 + reg·2^32`, illegal for reg > 4 (R83). -/
def Obligations.ReadRegisterReturnsState : Prop :=
  (∀ s : State, s.node.length ≤ 511 →
    exec (.rdr 0) s = .next (completed 0xA s (r1 := 0#55 ++ BitVec.ofBool (decide (s.root ≠ 0x1FF)) ++
      BitVec.ofBool (decide (s.ppos = s.total)) ++ BitVec.ofBool s.frozen ++
      (match s.phase with | .empty => 0#2 | .built => 1#2 | .read => 2#2) ++ s.err)) ∧
    exec (.rdr 1) s = .next (completed 0xA s (r1 := s.total)) ∧
    exec (.rdr 2) s = .next (completed 0xA s (r1 := s.ppos)) ∧
    exec (.rdr 3) s = .next (completed 0xA s (r1 := s.root.setWidth 64)) ∧
    exec (.rdr 4) s = .next (completed 0xA s (r1 := BitVec.ofNat 64 s.node.length))) ∧
  ∀ r : Sym, let w : CmdWord := 0xA000000000000000#64 + BitVec.ofNat 64 (r.toNat * 2 ^ 32)
    (r.toNat ≤ 4 → decode w = .ok (.rdr r)) ∧ (4 < r.toNat → ∃ e, decode w = .error e)

/-! ### BUILD (41_tree_builder.md) -/

/-- BUILD completes in phase EMPTY on any FREQ, writes NODE (with NALLOC), SYMIDX, ROOT and PHASE only, and
leaves the invariants of R28; exactly the symbols of nonzero frequency are present (R90; R96 a, an inference
the spec marks as derived). -/
def Obligations.BuildCompletes : Prop :=
  ∀ s : State, s.err = 0 → s.phase = .empty → Consistent s →
    ∃ t, exec .build s = .next (completed 0x3 t) ∧
      t = (((s.withNode t.node).withSymidx t.symidx).withRoot t.root).withPhase .built ∧
      Consistent t ∧ ∀ c, symidxAt t.symidx c ≠ NIL ↔ freqAt s.freq c ≠ 0

/-- With k distinct symbols s_0 < s_1 < ... < s_(k-1) the leaf of s_j is NODE[j], with weight FREQ[s_j]
(R91). -/
def Obligations.BuildLeafOrder : Prop :=
  ∀ s : State, s.err = 0 → s.phase = .empty → Consistent s →
    ∃ t, exec .build s = .next t ∧ ∀ j c, (presentSyms s.freq)[j]? = some c →
      symidxAt t.symidx c = BitVec.ofNat 9 j ∧
      ∃ n, nodeAt t.node (BitVec.ofNat 9 j) = some n ∧ n.isLeaf = true ∧ n.symbol = c ∧
        n.weight = (freqAt s.freq c).setWidth 40

/-- The number of symbols decides what BUILD makes, and what the commands after it answer when there is none
(R95). -/
def Obligations.BuildCounts : Prop :=
  ∀ s : State, s.err = 0 → s.phase = .empty → Consistent s →
    ∃ t, exec .build s = .next t ∧ t.err = 0 ∧ t.phase = .built ∧
      ((presentSyms s.freq).length = 0 → t.node = [] ∧ t.root = NIL ∧
        (∀ c, exec (.getc c) t = .next (completed 0x4 t)) ∧
        (∀ c, exec (.enc c) t = .next (faulted 3 0x7 t)) ∧
        exec .wrh t = .next (faulted 6 0x5 t) ∧ exec .dec t = .next (faulted 6 0x8 t) ∧
        exec .decm t = .next (faulted 6 0x9 t)) ∧
      ((presentSyms s.freq).length = 1 → t.root = 0 ∧ t.node.length = 1 ∧
        ∀ c, freqAt s.freq c ≠ 0 → derive t.node t.symidx t.root c = .ok [false]) ∧
      (∀ k, (presentSyms s.freq).length = k → 2 ≤ k →
        t.node.length = 2 * k - 1 ∧ t.root = BitVec.ofNat 9 (2 * k - 2) ∧
        ∀ i n, nodeAt t.node i = some n → (n.isLeaf = true ↔ i.toNat < k))

/-- Every node made after the leaves joins the two least of the nodes that had no parent when it was made, in
the order of R92 (weight, then index), the least at the left (R93). -/
def Obligations.BuildMergesLeastTwo : Prop :=
  ∀ s : State, s.err = 0 → s.phase = .empty → Consistent s →
    ∃ t, exec .build s = .next t ∧
      ∀ i n, (presentSyms s.freq).length ≤ i.toNat → nodeAt t.node i = some n → Merged t.node i n

/-- Every node's weight is the exact sum of the frequencies of the symbols below it, is not 0 and does not
wrap; the root's is the sum of all frequencies (R94, whose bound the spec marks as derived). -/
def Obligations.BuildWeightsAreSums : Prop :=
  ∀ s : State, s.err = 0 → s.phase = .empty → Consistent s →
    ∃ t, exec .build s = .next t ∧
      (∀ i n, nodeAt t.node i = some n → ∃ p u is, Holds t.node p i u is ∧
        n.weight.toNat = (u.leaves.map fun c => (freqAt s.freq c).toNat).sum ∧
        n.weight.toNat ≤ 256 * (2 ^ 32 - 1) ∧ n.weight ≠ 0) ∧
      (t.root ≠ NIL → ∃ n, nodeAt t.node t.root = some n ∧
        n.weight.toNat = (allSyms.map fun c => (freqAt s.freq c).toNat).sum)

/-- `extract_min` removes and returns the element with the least pair (weight, index), as R92 orders them. The
queue holds each weight beside its index, which is the model's choice (log entry 7): the order is stated by the
weight held there, and BuildMergesLeastTwo states it by the weights of the arena. -/
def Obligations.ExtractMinTakesLeast : Prop :=
  (∀ pq, extractMin pq = none ↔ pq = []) ∧
  ∀ pq m rest, extractMin pq = some (m, rest) → pq.Perm (m :: rest) ∧
    ∀ e ∈ rest, m.weight.toNat < e.weight.toNat ∨
      (m.weight.toNat = e.weight.toNat ∧ m.idx.toNat ≤ e.idx.toNat)

/-- The result of BUILD is a function of FREQ alone, index for index (R96 c, which the spec marks as derived),
so the order LDF loaded it in has no effect (R82). -/
def Obligations.BuildIsFunctionOfFreq : Prop :=
  ∀ s u : State, s.err = 0 → s.phase = .empty → Consistent s → u.err = 0 → u.phase = .empty → Consistent u →
    (∀ c, freqAt s.freq c = freqAt u.freq c) →
    ∃ x y, exec .build s = .next x ∧ exec .build u = .next y ∧
      x.node = y.node ∧ x.symidx = y.symidx ∧ x.root = y.root

/-! ### GETC and the codes (42_code_deriver.md) -/

/-- GETC returns the derived code, its length and its packed image (empty where the symbol is absent), and
writes at most the one cache entry of its symbol; its word is `0x4000000000000000 + sym·2^32` (R100). -/
def Obligations.GetcReturnsDerivedCode : Prop :=
  (∀ (s : State) (c : Sym), s.err = 0 → Consistent s →
    ∃ w code, derive s.node s.symidx s.root c = .ok w ∧ LookedUp s [c] code ∧
      (w = [] ↔ symidxAt s.symidx c = NIL) ∧ w.length ≤ 255 ∧
      exec (.getc c) s = .next (completed 0x4 (s.withCode code) (len := w.length) (cb := pack w))) ∧
  ∀ c : Sym, decode (0x4000000000000000#64 + BitVec.ofNat 64 (c.toNat * 2 ^ 32)) = .ok (.getc c)

/-- The memoized lookup (R101), in every state without a fault: a valid entry is returned with no derivation
and nothing is written; on a miss the derived string is returned, and it is inserted exactly where it is not
empty and FROZEN = 0. -/
def Obligations.LookupInsertsUnlessFrozen : Prop :=
  ∀ (s : State) (c : Sym) (w : BitStr), s.err = 0 →
    (codeAt s.code c = some w →
      exec (.getc c) s = .next (completed 0x4 s (len := w.length) (cb := pack w))) ∧
    (codeAt s.code c = none → derive s.node s.symidx s.root c = .ok w →
      ∃ code, exec (.getc c) s = .next (completed 0x4 (s.withCode code) (len := w.length) (cb := pack w)) ∧
        ∀ d, codeAt code d = if d = c ∧ w ≠ [] ∧ s.frozen = false then some w else codeAt s.code d)

/-- `derive` returns the path from the root down to the leaf, 0 = left, 1 = right, `<0>` for a single leaf and
the empty string for an absent symbol (R102). -/
def Obligations.DeriveReturnsPath : Prop :=
  ∀ s : State, Consistent s →
    (∀ t c w, TreeAt s t → (c, w) ∈ t.codes → derive s.node s.symidx s.root c = .ok w ∧ w.length ≤ 255) ∧
    (∀ t c, TreeAt s t → (symidxAt s.symidx c ≠ NIL ↔ ∃ w, (c, w) ∈ t.codes)) ∧
    (∀ c, symidxAt s.symidx c = NIL → derive s.node s.symidx s.root c = .ok [])

/-- The codes of the present symbols: lengths 1 .. 255, distinct, prefix-free; with two or more symbols every
255-bit string has exactly one code as a prefix, with one the only code is `<0>` (R103, which the spec marks
as derived from R102 and R28). -/
def Obligations.CodesArePrefixFreeAndComplete : Prop :=
  ∀ s : State, Consistent s →
    (∀ c, symidxAt s.symidx c ≠ NIL →
      ∃ w, derive s.node s.symidx s.root c = .ok w ∧ 1 ≤ w.length ∧ w.length ≤ 255) ∧
    (∀ c d v w, symidxAt s.symidx c ≠ NIL → symidxAt s.symidx d ≠ NIL → c ≠ d →
      derive s.node s.symidx s.root c = .ok v → derive s.node s.symidx s.root d = .ok w → ¬ v <+: w) ∧
    (2 ≤ leafCount s → ∀ b : BitStr, b.length = 255 →
      ∃! c, symidxAt s.symidx c ≠ NIL ∧ ∃ w, derive s.node s.symidx s.root c = .ok w ∧ w <+: b) ∧
    (leafCount s = 1 → ∀ c, symidxAt s.symidx c ≠ NIL → derive s.node s.symidx s.root c = .ok [false])

/-- `pack(c)[255-k] = c[k]` and all other bits are 0, with the examples of R105. -/
def Obligations.PackedImageLayout : Prop :=
  (∀ w : BitStr, w.length ≤ 255 →
    (∀ k b, w[k]? = some b → (pack w).getLsbD (255 - k) = b) ∧
    (∀ j, j < 256 - w.length → (pack w).getLsbD j = false)) ∧
  pack [] = 0 ∧ pack [true, true, false] = 0xC#4 ++ 0#252 ∧ pack [false] = 0 ∧ pack [true] = 0x8#4 ++ 0#252

/-! ### WRH (43_serializer.md) -/

/-- WRH completes on a built tree `t`: it caches the codes, freezes, sets TOTAL and PPOS, and appends the
count most significant bit first and then the preorder tree field to the sink (R110, R113, R114, R72). -/
def Obligations.WriteHeaderEmitsCountAndTree : Prop :=
  ∀ (s : State) (t : CodeTree), s.err = 0 → s.phase = .built → Consistent s → TreeAt s t →
    ∃ code, LookedUp s allSyms code ∧
      exec .wrh s = .next (completed 0x5
        (((((s.withCode code).withFrozen true).withTotal (BitVec.ofNat 64 (t.payload s.freq))).withPpos 0).withSink
          (s.sink ++ msb (BitVec.ofNat 64 (t.payload s.freq)) ++ t.header))
        (r1 := BitVec.ofNat 64 (t.payload s.freq)))

/-- TOTAL is the exact sum over all leaves of (code length) × (frequency): at least 1, below 2^48, and the
frequency itself for a single-leaf tree (R112, whose bound the spec marks as derived). -/
def Obligations.WriteHeaderCountIsExact : Prop :=
  ∀ (s : State) (t : CodeTree), s.err = 0 → s.phase = .built → Consistent s → TreeAt s t →
    ∃ u, exec .wrh s = .next u ∧ u.total.toNat = t.payload s.freq ∧ 1 ≤ u.total.toNat ∧
      u.total.toNat < 2 ^ 48 ∧ ∀ c, t = .leaf c → u.total.toNat = (freqAt s.freq c).toNat

/-- WRH caches the code of every present symbol and then freezes: from there on no lookup inserts anything
(R111, R19; R200, which the spec marks as derived). -/
def Obligations.WriteHeaderFreezesCache : Prop :=
  ∀ s : State, s.err = 0 → s.phase = .built → s.root ≠ NIL → Consistent s →
    ∃ u, exec .wrh s = .next u ∧ u.frozen = true ∧
      (∀ c, symidxAt s.symidx c ≠ NIL → ∃ w, codeAt u.code c = some w ∧
        derive s.node s.symidx s.root c = .ok w) ∧
      (∀ c, symidxAt s.symidx c = NIL → codeAt u.code c = none) ∧
      ∀ c, ∃ v, exec (.getc c) u = .next v ∧ v.code = u.code

/-- WRH leaves PPOS = 0 and writes a header of 63 + 10k bits for k leaves (R72, which marks that count as
derived); a second WRH, whatever PPOS is by then, writes the same bits again, sets PPOS back to 0 and changes
nothing else (R115, R111). -/
def Obligations.WriteHeaderTwice : Prop :=
  ∀ s : State, s.err = 0 → s.phase = .built → s.root ≠ NIL → Consistent s →
    ∃ u bits, exec .wrh s = .next u ∧ u.sink = s.sink ++ bits ∧ bits.length = 63 + 10 * leafCount s ∧
      u.ppos = 0 ∧ ∀ p, exec .wrh (u.withPpos p) = .next (completed 0x5 (u.withSink (u.sink ++ bits)) (r1 := u.total))

/-! ### RDH (44_deserializer.md) -/

/-- RDH completes on a source that starts with a header of distinct symbols: it consumes exactly the header,
sets TOTAL and PPOS, and holds the header's tree in preorder from NODE[0] on, weights 0 (R120, R122). -/
def Obligations.ReadHeaderBuildsTree : Prop :=
  ∀ (s : State) (total : Count) (t : CodeTree) (rest : BitStr), s.err = 0 → s.phase = .empty → Consistent s →
    s.src = msb total ++ t.header ++ rest → t.leaves.Nodup →
    ∃ u, exec .rdh s = .next (completed 0x6 u (r1 := total)) ∧
      u = ((((((s.withTotal total).withPpos 0).withSrc rest).withNode u.node).withSymidx u.symidx).withRoot
        0).withPhase .read ∧
      Consistent u ∧ TreeAt u t ∧ Holds u.node NIL 0 t ((List.range t.size).map (BitVec.ofNat 9)) ∧
      ∀ n ∈ u.node, n.weight = 0

/-- RDH completes exactly on the sources that start with a count and the tree field of a tree whose symbols
are distinct; on every other source it raises MalformedHeader or TruncatedStream (R123, R124, R70). -/
def Obligations.ReadHeaderCompletesIffWellFormed : Prop :=
  ∀ s : State, s.err = 0 → s.phase = .empty → Consistent s →
    ∃ u, exec .rdh s = .next u ∧ (u.err = 0 ∨ u.err = 1 ∨ u.err = 2) ∧
      (u.err = 0 ↔ ∃ (total : Count) (t : CodeTree) (rest : BitStr),
        s.src = msb total ++ t.header ++ rest ∧ t.leaves.Nodup)

/-- The count is read as 64 bits, most significant first; TOTAL is written only after all of them have
arrived (R121). -/
def Obligations.ReadHeaderCount : Prop :=
  ∀ s : State, s.err = 0 → s.phase = .empty →
    (s.src.length < 64 → exec .rdh s = .next (faulted 2 0x6 (s.withSrc []))) ∧
    (64 ≤ s.src.length → ∃ u, exec .rdh s = .next u ∧ msb u.total = s.src.take 64 ∧ u.ppos = 0)

/-- A source that ends inside the tree field: TruncatedStream, every bit consumed, TOTAL written, ROOT and
PHASE as they were (R124, R126). -/
def Obligations.ReadHeaderTruncated : Prop :=
  ∀ (s : State) (total : Count) (t : CodeTree) (v x : BitStr), s.err = 0 → s.phase = .empty → Consistent s →
    t.leaves.Nodup → t.header = v ++ x → x ≠ [] → s.src = msb total ++ v →
    ∃ u, exec .rdh s = .next u ∧ u.err = 2 ∧ u.src = [] ∧ u.total = total ∧ u.ppos = 0 ∧ u.root = NIL ∧
      u.phase = .empty

/-- A leaf whose symbol already has a leaf: MalformedHeader (R123 b). -/
def Obligations.ReadHeaderDuplicateSymbol : Prop :=
  ∀ (s : State) (total : Count) (t : CodeTree) (rest : BitStr), s.err = 0 → s.phase = .empty → Consistent s →
    s.src = msb total ++ t.header ++ rest → ¬ t.leaves.Nodup →
    ∃ u, exec .rdh s = .next u ∧ u.err = 1 ∧ u.root = NIL ∧ u.phase = .empty

/-- A node tag read when all 511 entries are allocated: MalformedHeader (R123 a), but TruncatedStream where the
source has no such tag (R124); whichever 511 nodes, leaves among them or not, the source has given so far. -/
def Obligations.ReadHeaderArenaExhausted : Prop :=
  ∀ (s : State) (total : Count) (ts : List (Option Sym)) (rest : BitStr), s.err = 0 → s.phase = .empty →
    Consistent s → Unfinished ts → ts.length = 511 → s.src = msb total ++ tagBits ts ++ rest →
    ∃ u, exec .rdh s = .next u ∧ u.node.length = 511 ∧ u.root = NIL ∧ u.phase = .empty ∧
      (rest = [] → u.err = 2 ∧ u.src = []) ∧ ∀ b rest', rest = b :: rest' → u.err = 1 ∧ u.src = rest'

/-- Which sources RDH raises which code on. MalformedHeader exactly where, after nodes that leave the tree
unfinished, a tag is read with all 511 entries allocated, or the next node is a leaf whose symbol has a leaf
already (R123). TruncatedStream exactly where the source ends in the count, at a node tag, or inside the symbol
of a leaf there is an entry for (R124). -/
def Obligations.ReadHeaderFaultPoints : Prop :=
  ∀ s : State, s.err = 0 → s.phase = .empty → Consistent s →
    ∃ u, exec .rdh s = .next u ∧
      (u.err = 1 ↔ ∃ (total : Count) (ts : List (Option Sym)), Unfinished ts ∧
        ((ts.length = 511 ∧ ∃ b rest, s.src = msb total ++ tagBits ts ++ b :: rest) ∨
         (ts.length < 511 ∧ ∃ c rest, some c ∈ ts ∧ s.src = msb total ++ tagBits ts ++ true :: (msb c ++ rest)))) ∧
      (u.err = 2 ↔ s.src.length < 64 ∨ ∃ (total : Count) (ts : List (Option Sym)), Unfinished ts ∧
        (s.src = msb total ++ tagBits ts ∨
         (ts.length < 511 ∧ ∃ v : BitStr, v.length < 8 ∧ s.src = msb total ++ tagBits ts ++ true :: v)))

/-- RDH inverts WRH (R125, which the spec marks as derived from R110 and R120): on a source that starts with the
bits WRH wrote, RDH completes, consumes exactly those bits, reads the same TOTAL, and its nodes correspond one to
one to the writer's, root to root, children to children, parents to parents, equal symbols at leaves, the symbol
index carried along. -/
def Obligations.ReadHeaderInvertsWriteHeader : Prop :=
  ∀ a b : State, a.err = 0 → a.phase = .built → a.root ≠ NIL → Consistent a →
    b.err = 0 → b.phase = .empty → Consistent b →
    ∃ a' bits, exec .wrh a = .next a' ∧ a'.sink = a.sink ++ bits ∧
      ∀ rest, b.src = bits ++ rest →
        ∃ b', exec .rdh b = .next b' ∧ b'.err = 0 ∧ b'.src = rest ∧ b'.total = a'.total ∧
          ∃ f : Idx → Idx, f NIL = NIL ∧ f a'.root = 0 ∧ b'.root = 0 ∧
            (∀ i j, f i = f j → i ≠ NIL → f i ≠ NIL → i = j) ∧
            (∀ i n, nodeAt a'.node i = some n → ∃ m, nodeAt b'.node (f i) = some m ∧ m.left = f n.left ∧
              m.right = f n.right ∧ m.parent = f n.parent ∧ m.isLeaf = n.isLeaf ∧
              m.symbol = n.symbol ∧ m.weight = 0) ∧
            (∀ j m, nodeAt b'.node j = some m → ∃ i n, nodeAt a'.node i = some n ∧ f i = j) ∧
            ∀ c, symidxAt b'.symidx c = f (symidxAt a'.symidx c)

/-- `derive` depends only on the shape and the leaf symbols of the tree: two consistent states that hold one
tree derive the same codes, whatever their node indices and weights (R104, which the spec marks as derived). -/
def Obligations.CodesAgreeOnEqualTrees : Prop :=
  ∀ (a b : State) (t : CodeTree), Consistent a → Consistent b → TreeAt a t → TreeAt b t →
    ∀ c, derive a.node a.symidx a.root c = derive b.node b.symidx b.root c

/-! ### ENC (45_encoder.md) -/

/-- ENC of a present symbol puts its code on the sink in string order, adds its length to PPOS modulo 2^64 and
answers that length (R130 to R132). -/
def Obligations.EncodeWritesCode : Prop :=
  ∀ (s : State) (t : CodeTree) (c : Sym) (w : BitStr), s.err = 0 → Consistent s → TreeAt s t → (c, w) ∈ t.codes →
    1 ≤ w.length ∧ w.length ≤ 255 ∧ ∃ code, LookedUp s [c] code ∧
      exec (.enc c) s = .next (completed 0x7
        (((s.withCode code).withSink (s.sink ++ w)).withPpos (s.ppos + BitVec.ofNat 64 w.length))
        (len := w.length))

/-- ENC raises UnknownSymbol (code 3) exactly where the symbol is absent; then nothing else changes (R133). -/
def Obligations.EncodeUnknownSymbol : Prop :=
  ∀ (s : State) (c : Sym), s.err = 0 → Consistent s →
    (symidxAt s.symidx c = NIL → exec (.enc c) s = .next (faulted 3 0x7 s)) ∧
    (symidxAt s.symidx c ≠ NIL → ∃ t, exec (.enc c) s = .next t ∧ t.err = 0)

/-- The bits ENC writes for a symbol, read by DEC in any state that holds the same tree, give the symbol back
and nothing more is consumed (an inference from R131 and R140). -/
def Obligations.EncodeThenDecode : Prop :=
  ∀ (s : State) (t : CodeTree) (c : Sym), s.err = 0 → Consistent s → TreeAt s t → c ∈ t.leaves →
    ∃ w s', exec (.enc c) s = .next s' ∧ s'.sink = s.sink ++ w ∧
      ∀ (d : State) (rest : BitStr), d.err = 0 → Consistent d → TreeAt d t → d.src = w ++ rest →
        d.ppos.toNat + w.length ≤ d.total.toNat →
        exec .dec d = .next (completed 0x8
          ((d.withPpos (d.ppos + BitVec.ofNat 64 w.length)).withSrc rest) (len := w.length) (sym := c))

/-! ### DEC and DECM (46_decoder.md) -/

/-- DEC resolves the symbol whose code the source starts with, and consumes exactly that code (R140, R141). -/
def Obligations.DecodeResolvesSymbol : Prop :=
  ∀ (s : State) (t : CodeTree) (c : Sym) (w rest : BitStr), s.err = 0 → Consistent s → TreeAt s t →
    (c, w) ∈ t.codes → s.src = w ++ rest → s.ppos.toNat + w.length ≤ s.total.toNat →
    exec .dec s = .next (completed 0x8
      ((s.withPpos (s.ppos + BitVec.ofNat 64 w.length)).withSrc rest) (len := w.length) (sym := c))

/-- On a single-leaf tree DEC reads exactly one bit and returns the root's symbol, whatever the bit (R144). -/
def Obligations.DecodeSingleLeaf : Prop :=
  ∀ (s : State) (c : Sym) (b : Bool) (rest : BitStr), s.err = 0 → Consistent s → TreeAt s (.leaf c) →
    s.src = b :: rest → s.ppos < s.total →
    exec .dec s = .next (completed 0x8 ((s.withPpos (s.ppos + 1)).withSrc rest) (len := 1) (sym := c))

/-- Where a payload bit is needed and PPOS ≥ TOTAL, DEC and DECM raise MalformedHeader without touching the
source: after any bits `w` that end inside a code, or at once (R142). -/
def Obligations.PayloadExhausted : Prop :=
  ∀ (s : State) (t u : CodeTree) (w rest : BitStr), s.err = 0 → Consistent s → TreeAt s t → t.sub w = some u →
    (w = [] ∨ ∃ l r, u = .fork l r) → s.src = w ++ rest →
    ((w = [] ∧ s.total ≤ s.ppos) ∨ s.ppos.toNat + w.length = s.total.toNat) →
    exec .dec s = .next (faulted 1 0x8 ((s.withPpos (s.ppos + BitVec.ofNat 64 w.length)).withSrc rest)) ∧
    ∃ code, LookedUp s allSyms code ∧ exec .decm s = .next (faulted 1 0x9
      (((s.withCode code).withPpos (s.ppos + BitVec.ofNat 64 w.length)).withSrc rest))

/-- Where a payload bit is needed below TOTAL and the source has none, DEC and DECM raise TruncatedStream; the
bits consumed so far stay consumed and PPOS stays advanced by them (R143). -/
def Obligations.SourceExhausted : Prop :=
  ∀ (s : State) (t u : CodeTree) (w : BitStr), s.err = 0 → Consistent s → TreeAt s t → t.sub w = some u →
    (w = [] ∨ ∃ l r, u = .fork l r) → s.src = w → s.ppos.toNat + w.length < s.total.toNat →
    exec .dec s = .next (faulted 2 0x8 ((s.withPpos (s.ppos + BitVec.ofNat 64 w.length)).withSrc [])) ∧
    ∃ code, LookedUp s allSyms code ∧ exec .decm s = .next (faulted 2 0x9
      (((s.withCode code).withPpos (s.ppos + BitVec.ofNat 64 w.length)).withSrc []))

/-- DECM resolves the symbol whose code the source starts with, and fills the cache with all codes (R145). -/
def Obligations.MatchDecodeResolvesSymbol : Prop :=
  ∀ (s : State) (t : CodeTree) (c : Sym) (w rest : BitStr), s.err = 0 → Consistent s → TreeAt s t →
    (c, w) ∈ t.codes → s.src = w ++ rest → s.ppos.toNat + w.length ≤ s.total.toNat →
    ∃ code, LookedUp s allSyms code ∧ exec .decm s = .next (completed 0x9
      (((s.withCode code).withPpos (s.ppos + BitVec.ofNat 64 w.length)).withSrc rest)
      (len := w.length) (sym := c))

/-- On a single-leaf tree whose payload has a 1 where a symbol should start, DECM consumes `m` bits, as many as
the bound of 255, TOTAL and the source allow, and raises MalformedHeader if the bound or TOTAL stopped it,
else TruncatedStream (R146). -/
def Obligations.MatchDecodeCandidateBound : Prop :=
  ∀ (s : State) (c : Sym) (v rest : BitStr), s.err = 0 → Consistent s → TreeAt s (.leaf c) →
    s.src = true :: v ++ rest → s.ppos.toNat + (v.length + 1) ≤ s.total.toNat → v.length ≤ 254 →
    (v.length = 254 ∨ s.ppos.toNat + (v.length + 1) = s.total.toNat ∨ rest = []) →
    ∃ code, LookedUp s allSyms code ∧ exec .decm s = .next (faulted
      (if v.length = 254 ∨ s.ppos.toNat + (v.length + 1) = s.total.toNat then 1 else 2) 0x9
      (((s.withCode code).withPpos (s.ppos + BitVec.ofNat 64 (v.length + 1))).withSrc rest))

/-- DEC and DECM agree on every source when the tree has two or more leaves: same response but for the opcode
echo, same bits consumed, same PPOS, same fault, and the same state but for CODE. With one leaf they agree when
the first bit is 0, and when it is 1 DECM ends in a fault (R147, which the spec marks as derived). -/
def Obligations.DecodersAgree : Prop :=
  ∀ (s : State) (t : CodeTree), s.err = 0 → Consistent s → TreeAt s t →
    ∃ d m rd rm, exec .dec s = .next d ∧ exec .decm s = .next m ∧
      d.resps = s.resps ++ [rd] ∧ m.resps = s.resps ++ [rm] ∧
      ((2 ≤ t.leaves.length ∨ ∀ rest, s.src ≠ true :: rest) →
        m.src = d.src ∧ m.ppos = d.ppos ∧ m.err = d.err ∧ rm.r1 = rd.r1 ∧ rm.cb = rd.cb ∧
        rm.r0.extractLsb' 60 4 = rd.r0.extractLsb' 60 4 ∧ rm.r0.extractLsb' 0 56 = rd.r0.extractLsb' 0 56 ∧
        m.freq = d.freq ∧ m.node = d.node ∧ m.symidx = d.symidx ∧ m.root = d.root ∧ m.phase = d.phase ∧
        m.frozen = d.frozen ∧ m.total = d.total ∧ m.sink = d.sink) ∧
      (∀ c rest, t = .leaf c → s.src = true :: rest → s.ppos < s.total →
        d.err = 0 ∧ d.src = rest ∧ (m.err = 1 ∨ m.err = 2))

/-- The payload round trip (R73, R148), by inference from R131, R140 and R145: the bits ENC puts on the sink
for a list of symbols, read in any state that holds the same tree by as many DEC or DECM in any mixture, give
that list back in order, without a fault, and nothing more is consumed. Where each symbol occurs as often as
FREQ says, their number is the sum WRH puts in TOTAL. -/
def Obligations.PayloadRoundTrip : Prop :=
  ∀ (s : State) (t : CodeTree) (cs : List Sym), s.err = 0 → Consistent s → TreeAt s t → (∀ c ∈ cs, c ∈ t.leaves) →
    ∃ w s', execAll (cs.map .enc) s = .next s' ∧ s'.sink = s.sink ++ w ∧
      s'.ppos = s.ppos + BitVec.ofNat 64 w.length ∧
      ((∀ c, cs.count c = (freqAt s.freq c).toNat) → w.length = t.payload s.freq) ∧
      ∀ (d : State) (ks : List Instr) (rest : BitStr), d.err = 0 → Consistent d → TreeAt d t → d.src = w ++ rest →
        d.ppos.toNat + w.length ≤ d.total.toNat → ks.length = cs.length → (∀ k ∈ ks, k = .dec ∨ k = .decm) →
        ∃ d' rs, execAll ks d = .next d' ∧ d'.err = 0 ∧ d'.src = rest ∧
          d'.ppos.toNat = d.ppos.toNat + w.length ∧ d'.resps = d.resps ++ rs ∧
          rs.map (fun r => r.r0.extractLsb' 0 8) = cs ∧ ∀ r ∈ rs, r.r0.extractLsb' 60 4 = 0#4

/-! ### The whole machine -/

/-- The invariants hold after reset: those of R28, which the spec marks as derived, with the model's canonical
tables (log entry 3) and a legal code in ERR. -/
def Obligations.ResetMeetsInvariants : Prop := Inv State.reset

/-- Every step keeps the invariants between commands (R28, which the spec marks as derived; the tables of log
entry 3), from every state that has them. -/
def Obligations.StepKeepsInvariants : Prop := ∀ s t : State, Inv s → step s = .next t → Inv t

/-- No command stops the machine: from every state with the invariants a step answers a next state (R204,
R206; the latter the spec marks as derived). -/
def Obligations.EveryStepAnswers : Prop := ∀ s : State, Inv s → ∃ t, step s = .next t

/-- The write sets (R29, which the spec marks as derived): whichever way a command ends, and in every state, it
changes only what its row lists. -/
def Obligations.CommandsWriteOnlyTheirSets : Prop :=
  ∀ (i : Instr) (s t : State), i.wellFormed = true → exec i s = .next t → WritesOnly i s t

/-- PPOS ≤ TOTAL is kept by every command but ENC (R28 clause 9, which the spec marks as derived). -/
def Obligations.PposStaysWithinTotal : Prop :=
  ∀ (i : Instr) (s t : State), (∀ c, i ≠ .enc c) → s.ppos ≤ s.total → exec i s = .next t → t.ppos ≤ t.total

/-- The sink only grows, and the source is only consumed from the front (R46, R47). -/
def Obligations.StreamsAreSequential : Prop :=
  ∀ s t : State, step s = .next t → (∃ v, s.src = v ++ t.src) ∧ ∃ w, t.sink = s.sink ++ w

/-- The work of one command on the streams is bounded: at most 255 sink bits for ENC and 2623 for WRH, at most
2624 source bits for RDH, whether it completes or faults, and 255 for DEC and DECM (R206, which the spec marks
as derived). -/
def Obligations.StreamWorkIsBounded : Prop :=
  ∀ s : State, Consistent s →
    (∀ c t, exec (.enc c) s = .next t → t.sink.length ≤ s.sink.length + 255) ∧
    (∀ t, exec .wrh s = .next t → t.sink.length ≤ s.sink.length + 2623) ∧
    (∀ t, exec .rdh s = .next t → s.src.length ≤ t.src.length + 2624) ∧
    (∀ t, exec .dec s = .next t → s.src.length ≤ t.src.length + 255) ∧
    (∀ t, exec .decm s = .next t → s.src.length ≤ t.src.length + 255)
end

