-- ==== Sys2Proof/Laws/State.lean ====
section
/-! SUPPORT. One lemma per field per setter, so that no later proof unfolds a record update. -/

namespace Sys2Proof.Machine

variable (s : State)

/-! ### `withFreq` -/

@[simp] theorem withFreq_freq (v : Table Freq) : (s.withFreq v).freq = v := rfl
@[simp] theorem withFreq_node (v : Table Freq) : (s.withFreq v).node = s.node := rfl
@[simp] theorem withFreq_symidx (v : Table Freq) : (s.withFreq v).symidx = s.symidx := rfl
@[simp] theorem withFreq_code (v : Table Freq) : (s.withFreq v).code = s.code := rfl
@[simp] theorem withFreq_root (v : Table Freq) : (s.withFreq v).root = s.root := rfl
@[simp] theorem withFreq_phase (v : Table Freq) : (s.withFreq v).phase = s.phase := rfl
@[simp] theorem withFreq_frozen (v : Table Freq) : (s.withFreq v).frozen = s.frozen := rfl
@[simp] theorem withFreq_total (v : Table Freq) : (s.withFreq v).total = s.total := rfl
@[simp] theorem withFreq_ppos (v : Table Freq) : (s.withFreq v).ppos = s.ppos := rfl
@[simp] theorem withFreq_err (v : Table Freq) : (s.withFreq v).err = s.err := rfl
@[simp] theorem withFreq_cmds (v : Table Freq) : (s.withFreq v).cmds = s.cmds := rfl
@[simp] theorem withFreq_src (v : Table Freq) : (s.withFreq v).src = s.src := rfl
@[simp] theorem withFreq_sink (v : Table Freq) : (s.withFreq v).sink = s.sink := rfl
@[simp] theorem withFreq_resps (v : Table Freq) : (s.withFreq v).resps = s.resps := rfl

/-! ### `withNode` -/

@[simp] theorem withNode_freq (v : List Node) : (s.withNode v).freq = s.freq := rfl
@[simp] theorem withNode_node (v : List Node) : (s.withNode v).node = v := rfl
@[simp] theorem withNode_symidx (v : List Node) : (s.withNode v).symidx = s.symidx := rfl
@[simp] theorem withNode_code (v : List Node) : (s.withNode v).code = s.code := rfl
@[simp] theorem withNode_root (v : List Node) : (s.withNode v).root = s.root := rfl
@[simp] theorem withNode_phase (v : List Node) : (s.withNode v).phase = s.phase := rfl
@[simp] theorem withNode_frozen (v : List Node) : (s.withNode v).frozen = s.frozen := rfl
@[simp] theorem withNode_total (v : List Node) : (s.withNode v).total = s.total := rfl
@[simp] theorem withNode_ppos (v : List Node) : (s.withNode v).ppos = s.ppos := rfl
@[simp] theorem withNode_err (v : List Node) : (s.withNode v).err = s.err := rfl
@[simp] theorem withNode_cmds (v : List Node) : (s.withNode v).cmds = s.cmds := rfl
@[simp] theorem withNode_src (v : List Node) : (s.withNode v).src = s.src := rfl
@[simp] theorem withNode_sink (v : List Node) : (s.withNode v).sink = s.sink := rfl
@[simp] theorem withNode_resps (v : List Node) : (s.withNode v).resps = s.resps := rfl

/-! ### `withSymidx` -/

@[simp] theorem withSymidx_freq (v : Table Idx) : (s.withSymidx v).freq = s.freq := rfl
@[simp] theorem withSymidx_node (v : Table Idx) : (s.withSymidx v).node = s.node := rfl
@[simp] theorem withSymidx_symidx (v : Table Idx) : (s.withSymidx v).symidx = v := rfl
@[simp] theorem withSymidx_code (v : Table Idx) : (s.withSymidx v).code = s.code := rfl
@[simp] theorem withSymidx_root (v : Table Idx) : (s.withSymidx v).root = s.root := rfl
@[simp] theorem withSymidx_phase (v : Table Idx) : (s.withSymidx v).phase = s.phase := rfl
@[simp] theorem withSymidx_frozen (v : Table Idx) : (s.withSymidx v).frozen = s.frozen := rfl
@[simp] theorem withSymidx_total (v : Table Idx) : (s.withSymidx v).total = s.total := rfl
@[simp] theorem withSymidx_ppos (v : Table Idx) : (s.withSymidx v).ppos = s.ppos := rfl
@[simp] theorem withSymidx_err (v : Table Idx) : (s.withSymidx v).err = s.err := rfl
@[simp] theorem withSymidx_cmds (v : Table Idx) : (s.withSymidx v).cmds = s.cmds := rfl
@[simp] theorem withSymidx_src (v : Table Idx) : (s.withSymidx v).src = s.src := rfl
@[simp] theorem withSymidx_sink (v : Table Idx) : (s.withSymidx v).sink = s.sink := rfl
@[simp] theorem withSymidx_resps (v : Table Idx) : (s.withSymidx v).resps = s.resps := rfl

/-! ### `withCode` -/

@[simp] theorem withCode_freq (v : Table BitStr) : (s.withCode v).freq = s.freq := rfl
@[simp] theorem withCode_node (v : Table BitStr) : (s.withCode v).node = s.node := rfl
@[simp] theorem withCode_symidx (v : Table BitStr) : (s.withCode v).symidx = s.symidx := rfl
@[simp] theorem withCode_code (v : Table BitStr) : (s.withCode v).code = v := rfl
@[simp] theorem withCode_root (v : Table BitStr) : (s.withCode v).root = s.root := rfl
@[simp] theorem withCode_phase (v : Table BitStr) : (s.withCode v).phase = s.phase := rfl
@[simp] theorem withCode_frozen (v : Table BitStr) : (s.withCode v).frozen = s.frozen := rfl
@[simp] theorem withCode_total (v : Table BitStr) : (s.withCode v).total = s.total := rfl
@[simp] theorem withCode_ppos (v : Table BitStr) : (s.withCode v).ppos = s.ppos := rfl
@[simp] theorem withCode_err (v : Table BitStr) : (s.withCode v).err = s.err := rfl
@[simp] theorem withCode_cmds (v : Table BitStr) : (s.withCode v).cmds = s.cmds := rfl
@[simp] theorem withCode_src (v : Table BitStr) : (s.withCode v).src = s.src := rfl
@[simp] theorem withCode_sink (v : Table BitStr) : (s.withCode v).sink = s.sink := rfl
@[simp] theorem withCode_resps (v : Table BitStr) : (s.withCode v).resps = s.resps := rfl

/-! ### `withRoot` -/

@[simp] theorem withRoot_freq (v : Idx) : (s.withRoot v).freq = s.freq := rfl
@[simp] theorem withRoot_node (v : Idx) : (s.withRoot v).node = s.node := rfl
@[simp] theorem withRoot_symidx (v : Idx) : (s.withRoot v).symidx = s.symidx := rfl
@[simp] theorem withRoot_code (v : Idx) : (s.withRoot v).code = s.code := rfl
@[simp] theorem withRoot_root (v : Idx) : (s.withRoot v).root = v := rfl
@[simp] theorem withRoot_phase (v : Idx) : (s.withRoot v).phase = s.phase := rfl
@[simp] theorem withRoot_frozen (v : Idx) : (s.withRoot v).frozen = s.frozen := rfl
@[simp] theorem withRoot_total (v : Idx) : (s.withRoot v).total = s.total := rfl
@[simp] theorem withRoot_ppos (v : Idx) : (s.withRoot v).ppos = s.ppos := rfl
@[simp] theorem withRoot_err (v : Idx) : (s.withRoot v).err = s.err := rfl
@[simp] theorem withRoot_cmds (v : Idx) : (s.withRoot v).cmds = s.cmds := rfl
@[simp] theorem withRoot_src (v : Idx) : (s.withRoot v).src = s.src := rfl
@[simp] theorem withRoot_sink (v : Idx) : (s.withRoot v).sink = s.sink := rfl
@[simp] theorem withRoot_resps (v : Idx) : (s.withRoot v).resps = s.resps := rfl

/-! ### `withPhase` -/

@[simp] theorem withPhase_freq (v : Phase) : (s.withPhase v).freq = s.freq := rfl
@[simp] theorem withPhase_node (v : Phase) : (s.withPhase v).node = s.node := rfl
@[simp] theorem withPhase_symidx (v : Phase) : (s.withPhase v).symidx = s.symidx := rfl
@[simp] theorem withPhase_code (v : Phase) : (s.withPhase v).code = s.code := rfl
@[simp] theorem withPhase_root (v : Phase) : (s.withPhase v).root = s.root := rfl
@[simp] theorem withPhase_phase (v : Phase) : (s.withPhase v).phase = v := rfl
@[simp] theorem withPhase_frozen (v : Phase) : (s.withPhase v).frozen = s.frozen := rfl
@[simp] theorem withPhase_total (v : Phase) : (s.withPhase v).total = s.total := rfl
@[simp] theorem withPhase_ppos (v : Phase) : (s.withPhase v).ppos = s.ppos := rfl
@[simp] theorem withPhase_err (v : Phase) : (s.withPhase v).err = s.err := rfl
@[simp] theorem withPhase_cmds (v : Phase) : (s.withPhase v).cmds = s.cmds := rfl
@[simp] theorem withPhase_src (v : Phase) : (s.withPhase v).src = s.src := rfl
@[simp] theorem withPhase_sink (v : Phase) : (s.withPhase v).sink = s.sink := rfl
@[simp] theorem withPhase_resps (v : Phase) : (s.withPhase v).resps = s.resps := rfl

/-! ### `withFrozen` -/

@[simp] theorem withFrozen_freq (v : Bool) : (s.withFrozen v).freq = s.freq := rfl
@[simp] theorem withFrozen_node (v : Bool) : (s.withFrozen v).node = s.node := rfl
@[simp] theorem withFrozen_symidx (v : Bool) : (s.withFrozen v).symidx = s.symidx := rfl
@[simp] theorem withFrozen_code (v : Bool) : (s.withFrozen v).code = s.code := rfl
@[simp] theorem withFrozen_root (v : Bool) : (s.withFrozen v).root = s.root := rfl
@[simp] theorem withFrozen_phase (v : Bool) : (s.withFrozen v).phase = s.phase := rfl
@[simp] theorem withFrozen_frozen (v : Bool) : (s.withFrozen v).frozen = v := rfl
@[simp] theorem withFrozen_total (v : Bool) : (s.withFrozen v).total = s.total := rfl
@[simp] theorem withFrozen_ppos (v : Bool) : (s.withFrozen v).ppos = s.ppos := rfl
@[simp] theorem withFrozen_err (v : Bool) : (s.withFrozen v).err = s.err := rfl
@[simp] theorem withFrozen_cmds (v : Bool) : (s.withFrozen v).cmds = s.cmds := rfl
@[simp] theorem withFrozen_src (v : Bool) : (s.withFrozen v).src = s.src := rfl
@[simp] theorem withFrozen_sink (v : Bool) : (s.withFrozen v).sink = s.sink := rfl
@[simp] theorem withFrozen_resps (v : Bool) : (s.withFrozen v).resps = s.resps := rfl

/-! ### `withTotal` -/

@[simp] theorem withTotal_freq (v : Count) : (s.withTotal v).freq = s.freq := rfl
@[simp] theorem withTotal_node (v : Count) : (s.withTotal v).node = s.node := rfl
@[simp] theorem withTotal_symidx (v : Count) : (s.withTotal v).symidx = s.symidx := rfl
@[simp] theorem withTotal_code (v : Count) : (s.withTotal v).code = s.code := rfl
@[simp] theorem withTotal_root (v : Count) : (s.withTotal v).root = s.root := rfl
@[simp] theorem withTotal_phase (v : Count) : (s.withTotal v).phase = s.phase := rfl
@[simp] theorem withTotal_frozen (v : Count) : (s.withTotal v).frozen = s.frozen := rfl
@[simp] theorem withTotal_total (v : Count) : (s.withTotal v).total = v := rfl
@[simp] theorem withTotal_ppos (v : Count) : (s.withTotal v).ppos = s.ppos := rfl
@[simp] theorem withTotal_err (v : Count) : (s.withTotal v).err = s.err := rfl
@[simp] theorem withTotal_cmds (v : Count) : (s.withTotal v).cmds = s.cmds := rfl
@[simp] theorem withTotal_src (v : Count) : (s.withTotal v).src = s.src := rfl
@[simp] theorem withTotal_sink (v : Count) : (s.withTotal v).sink = s.sink := rfl
@[simp] theorem withTotal_resps (v : Count) : (s.withTotal v).resps = s.resps := rfl

/-! ### `withPpos` -/

@[simp] theorem withPpos_freq (v : Count) : (s.withPpos v).freq = s.freq := rfl
@[simp] theorem withPpos_node (v : Count) : (s.withPpos v).node = s.node := rfl
@[simp] theorem withPpos_symidx (v : Count) : (s.withPpos v).symidx = s.symidx := rfl
@[simp] theorem withPpos_code (v : Count) : (s.withPpos v).code = s.code := rfl
@[simp] theorem withPpos_root (v : Count) : (s.withPpos v).root = s.root := rfl
@[simp] theorem withPpos_phase (v : Count) : (s.withPpos v).phase = s.phase := rfl
@[simp] theorem withPpos_frozen (v : Count) : (s.withPpos v).frozen = s.frozen := rfl
@[simp] theorem withPpos_total (v : Count) : (s.withPpos v).total = s.total := rfl
@[simp] theorem withPpos_ppos (v : Count) : (s.withPpos v).ppos = v := rfl
@[simp] theorem withPpos_err (v : Count) : (s.withPpos v).err = s.err := rfl
@[simp] theorem withPpos_cmds (v : Count) : (s.withPpos v).cmds = s.cmds := rfl
@[simp] theorem withPpos_src (v : Count) : (s.withPpos v).src = s.src := rfl
@[simp] theorem withPpos_sink (v : Count) : (s.withPpos v).sink = s.sink := rfl
@[simp] theorem withPpos_resps (v : Count) : (s.withPpos v).resps = s.resps := rfl

/-! ### `withErr` -/

@[simp] theorem withErr_freq (v : BitVec 4) : (s.withErr v).freq = s.freq := rfl
@[simp] theorem withErr_node (v : BitVec 4) : (s.withErr v).node = s.node := rfl
@[simp] theorem withErr_symidx (v : BitVec 4) : (s.withErr v).symidx = s.symidx := rfl
@[simp] theorem withErr_code (v : BitVec 4) : (s.withErr v).code = s.code := rfl
@[simp] theorem withErr_root (v : BitVec 4) : (s.withErr v).root = s.root := rfl
@[simp] theorem withErr_phase (v : BitVec 4) : (s.withErr v).phase = s.phase := rfl
@[simp] theorem withErr_frozen (v : BitVec 4) : (s.withErr v).frozen = s.frozen := rfl
@[simp] theorem withErr_total (v : BitVec 4) : (s.withErr v).total = s.total := rfl
@[simp] theorem withErr_ppos (v : BitVec 4) : (s.withErr v).ppos = s.ppos := rfl
@[simp] theorem withErr_err (v : BitVec 4) : (s.withErr v).err = v := rfl
@[simp] theorem withErr_cmds (v : BitVec 4) : (s.withErr v).cmds = s.cmds := rfl
@[simp] theorem withErr_src (v : BitVec 4) : (s.withErr v).src = s.src := rfl
@[simp] theorem withErr_sink (v : BitVec 4) : (s.withErr v).sink = s.sink := rfl
@[simp] theorem withErr_resps (v : BitVec 4) : (s.withErr v).resps = s.resps := rfl

/-! ### `withCmds` -/

@[simp] theorem withCmds_freq (v : List CmdWord) : (s.withCmds v).freq = s.freq := rfl
@[simp] theorem withCmds_node (v : List CmdWord) : (s.withCmds v).node = s.node := rfl
@[simp] theorem withCmds_symidx (v : List CmdWord) : (s.withCmds v).symidx = s.symidx := rfl
@[simp] theorem withCmds_code (v : List CmdWord) : (s.withCmds v).code = s.code := rfl
@[simp] theorem withCmds_root (v : List CmdWord) : (s.withCmds v).root = s.root := rfl
@[simp] theorem withCmds_phase (v : List CmdWord) : (s.withCmds v).phase = s.phase := rfl
@[simp] theorem withCmds_frozen (v : List CmdWord) : (s.withCmds v).frozen = s.frozen := rfl
@[simp] theorem withCmds_total (v : List CmdWord) : (s.withCmds v).total = s.total := rfl
@[simp] theorem withCmds_ppos (v : List CmdWord) : (s.withCmds v).ppos = s.ppos := rfl
@[simp] theorem withCmds_err (v : List CmdWord) : (s.withCmds v).err = s.err := rfl
@[simp] theorem withCmds_cmds (v : List CmdWord) : (s.withCmds v).cmds = v := rfl
@[simp] theorem withCmds_src (v : List CmdWord) : (s.withCmds v).src = s.src := rfl
@[simp] theorem withCmds_sink (v : List CmdWord) : (s.withCmds v).sink = s.sink := rfl
@[simp] theorem withCmds_resps (v : List CmdWord) : (s.withCmds v).resps = s.resps := rfl

/-! ### `withSrc` -/

@[simp] theorem withSrc_freq (v : BitStr) : (s.withSrc v).freq = s.freq := rfl
@[simp] theorem withSrc_node (v : BitStr) : (s.withSrc v).node = s.node := rfl
@[simp] theorem withSrc_symidx (v : BitStr) : (s.withSrc v).symidx = s.symidx := rfl
@[simp] theorem withSrc_code (v : BitStr) : (s.withSrc v).code = s.code := rfl
@[simp] theorem withSrc_root (v : BitStr) : (s.withSrc v).root = s.root := rfl
@[simp] theorem withSrc_phase (v : BitStr) : (s.withSrc v).phase = s.phase := rfl
@[simp] theorem withSrc_frozen (v : BitStr) : (s.withSrc v).frozen = s.frozen := rfl
@[simp] theorem withSrc_total (v : BitStr) : (s.withSrc v).total = s.total := rfl
@[simp] theorem withSrc_ppos (v : BitStr) : (s.withSrc v).ppos = s.ppos := rfl
@[simp] theorem withSrc_err (v : BitStr) : (s.withSrc v).err = s.err := rfl
@[simp] theorem withSrc_cmds (v : BitStr) : (s.withSrc v).cmds = s.cmds := rfl
@[simp] theorem withSrc_src (v : BitStr) : (s.withSrc v).src = v := rfl
@[simp] theorem withSrc_sink (v : BitStr) : (s.withSrc v).sink = s.sink := rfl
@[simp] theorem withSrc_resps (v : BitStr) : (s.withSrc v).resps = s.resps := rfl

/-! ### `withSink` -/

@[simp] theorem withSink_freq (v : BitStr) : (s.withSink v).freq = s.freq := rfl
@[simp] theorem withSink_node (v : BitStr) : (s.withSink v).node = s.node := rfl
@[simp] theorem withSink_symidx (v : BitStr) : (s.withSink v).symidx = s.symidx := rfl
@[simp] theorem withSink_code (v : BitStr) : (s.withSink v).code = s.code := rfl
@[simp] theorem withSink_root (v : BitStr) : (s.withSink v).root = s.root := rfl
@[simp] theorem withSink_phase (v : BitStr) : (s.withSink v).phase = s.phase := rfl
@[simp] theorem withSink_frozen (v : BitStr) : (s.withSink v).frozen = s.frozen := rfl
@[simp] theorem withSink_total (v : BitStr) : (s.withSink v).total = s.total := rfl
@[simp] theorem withSink_ppos (v : BitStr) : (s.withSink v).ppos = s.ppos := rfl
@[simp] theorem withSink_err (v : BitStr) : (s.withSink v).err = s.err := rfl
@[simp] theorem withSink_cmds (v : BitStr) : (s.withSink v).cmds = s.cmds := rfl
@[simp] theorem withSink_src (v : BitStr) : (s.withSink v).src = s.src := rfl
@[simp] theorem withSink_sink (v : BitStr) : (s.withSink v).sink = v := rfl
@[simp] theorem withSink_resps (v : BitStr) : (s.withSink v).resps = s.resps := rfl

/-! ### `withResps` -/

@[simp] theorem withResps_freq (v : List Response) : (s.withResps v).freq = s.freq := rfl
@[simp] theorem withResps_node (v : List Response) : (s.withResps v).node = s.node := rfl
@[simp] theorem withResps_symidx (v : List Response) : (s.withResps v).symidx = s.symidx := rfl
@[simp] theorem withResps_code (v : List Response) : (s.withResps v).code = s.code := rfl
@[simp] theorem withResps_root (v : List Response) : (s.withResps v).root = s.root := rfl
@[simp] theorem withResps_phase (v : List Response) : (s.withResps v).phase = s.phase := rfl
@[simp] theorem withResps_frozen (v : List Response) : (s.withResps v).frozen = s.frozen := rfl
@[simp] theorem withResps_total (v : List Response) : (s.withResps v).total = s.total := rfl
@[simp] theorem withResps_ppos (v : List Response) : (s.withResps v).ppos = s.ppos := rfl
@[simp] theorem withResps_err (v : List Response) : (s.withResps v).err = s.err := rfl
@[simp] theorem withResps_cmds (v : List Response) : (s.withResps v).cmds = s.cmds := rfl
@[simp] theorem withResps_src (v : List Response) : (s.withResps v).src = s.src := rfl
@[simp] theorem withResps_sink (v : List Response) : (s.withResps v).sink = s.sink := rfl
@[simp] theorem withResps_resps (v : List Response) : (s.withResps v).resps = v := rfl

/-! ### The operations made of setters -/

@[simp] theorem answer_freq (r : Response) : (answer r s).freq = s.freq := rfl
@[simp] theorem answer_node (r : Response) : (answer r s).node = s.node := rfl
@[simp] theorem answer_symidx (r : Response) : (answer r s).symidx = s.symidx := rfl
@[simp] theorem answer_code (r : Response) : (answer r s).code = s.code := rfl
@[simp] theorem answer_root (r : Response) : (answer r s).root = s.root := rfl
@[simp] theorem answer_phase (r : Response) : (answer r s).phase = s.phase := rfl
@[simp] theorem answer_frozen (r : Response) : (answer r s).frozen = s.frozen := rfl
@[simp] theorem answer_total (r : Response) : (answer r s).total = s.total := rfl
@[simp] theorem answer_ppos (r : Response) : (answer r s).ppos = s.ppos := rfl
@[simp] theorem answer_err (r : Response) : (answer r s).err = s.err := rfl
@[simp] theorem answer_cmds (r : Response) : (answer r s).cmds = s.cmds := rfl
@[simp] theorem answer_src (r : Response) : (answer r s).src = s.src := rfl
@[simp] theorem answer_sink (r : Response) : (answer r s).sink = s.sink := rfl
@[simp] theorem answer_resps (r : Response) : (answer r s).resps = s.resps ++ [r] := rfl

@[simp] theorem sinkPut_freq (b : Bool) : (sinkPut s b).freq = s.freq := rfl
@[simp] theorem sinkPut_node (b : Bool) : (sinkPut s b).node = s.node := rfl
@[simp] theorem sinkPut_symidx (b : Bool) : (sinkPut s b).symidx = s.symidx := rfl
@[simp] theorem sinkPut_code (b : Bool) : (sinkPut s b).code = s.code := rfl
@[simp] theorem sinkPut_root (b : Bool) : (sinkPut s b).root = s.root := rfl
@[simp] theorem sinkPut_phase (b : Bool) : (sinkPut s b).phase = s.phase := rfl
@[simp] theorem sinkPut_frozen (b : Bool) : (sinkPut s b).frozen = s.frozen := rfl
@[simp] theorem sinkPut_total (b : Bool) : (sinkPut s b).total = s.total := rfl
@[simp] theorem sinkPut_ppos (b : Bool) : (sinkPut s b).ppos = s.ppos := rfl
@[simp] theorem sinkPut_err (b : Bool) : (sinkPut s b).err = s.err := rfl
@[simp] theorem sinkPut_cmds (b : Bool) : (sinkPut s b).cmds = s.cmds := rfl
@[simp] theorem sinkPut_src (b : Bool) : (sinkPut s b).src = s.src := rfl
@[simp] theorem sinkPut_sink (b : Bool) : (sinkPut s b).sink = s.sink ++ [b] := rfl
@[simp] theorem sinkPut_resps (b : Bool) : (sinkPut s b).resps = s.resps := rfl

@[simp] theorem sinkPutAll_freq (bs : BitStr) : (sinkPutAll s bs).freq = s.freq := rfl
@[simp] theorem sinkPutAll_node (bs : BitStr) : (sinkPutAll s bs).node = s.node := rfl
@[simp] theorem sinkPutAll_symidx (bs : BitStr) : (sinkPutAll s bs).symidx = s.symidx := rfl
@[simp] theorem sinkPutAll_code (bs : BitStr) : (sinkPutAll s bs).code = s.code := rfl
@[simp] theorem sinkPutAll_root (bs : BitStr) : (sinkPutAll s bs).root = s.root := rfl
@[simp] theorem sinkPutAll_phase (bs : BitStr) : (sinkPutAll s bs).phase = s.phase := rfl
@[simp] theorem sinkPutAll_frozen (bs : BitStr) : (sinkPutAll s bs).frozen = s.frozen := rfl
@[simp] theorem sinkPutAll_total (bs : BitStr) : (sinkPutAll s bs).total = s.total := rfl
@[simp] theorem sinkPutAll_ppos (bs : BitStr) : (sinkPutAll s bs).ppos = s.ppos := rfl
@[simp] theorem sinkPutAll_err (bs : BitStr) : (sinkPutAll s bs).err = s.err := rfl
@[simp] theorem sinkPutAll_cmds (bs : BitStr) : (sinkPutAll s bs).cmds = s.cmds := rfl
@[simp] theorem sinkPutAll_src (bs : BitStr) : (sinkPutAll s bs).src = s.src := rfl
@[simp] theorem sinkPutAll_sink (bs : BitStr) : (sinkPutAll s bs).sink = s.sink ++ bs := rfl
@[simp] theorem sinkPutAll_resps (bs : BitStr) : (sinkPutAll s bs).resps = s.resps := rfl

@[simp] theorem respond_freq (opc : Opc) (r : Reply) : (respond opc r s).freq = s.freq := rfl
@[simp] theorem respond_node (opc : Opc) (r : Reply) : (respond opc r s).node = s.node := rfl
@[simp] theorem respond_symidx (opc : Opc) (r : Reply) : (respond opc r s).symidx = s.symidx := rfl
@[simp] theorem respond_code (opc : Opc) (r : Reply) : (respond opc r s).code = s.code := rfl
@[simp] theorem respond_root (opc : Opc) (r : Reply) : (respond opc r s).root = s.root := rfl
@[simp] theorem respond_phase (opc : Opc) (r : Reply) : (respond opc r s).phase = s.phase := rfl
@[simp] theorem respond_frozen (opc : Opc) (r : Reply) : (respond opc r s).frozen = s.frozen := rfl
@[simp] theorem respond_total (opc : Opc) (r : Reply) : (respond opc r s).total = s.total := rfl
@[simp] theorem respond_ppos (opc : Opc) (r : Reply) : (respond opc r s).ppos = s.ppos := rfl
@[simp] theorem respond_err (opc : Opc) (r : Reply) : (respond opc r s).err = s.err := rfl
@[simp] theorem respond_cmds (opc : Opc) (r : Reply) : (respond opc r s).cmds = s.cmds := rfl
@[simp] theorem respond_src (opc : Opc) (r : Reply) : (respond opc r s).src = s.src := rfl
@[simp] theorem respond_sink (opc : Opc) (r : Reply) : (respond opc r s).sink = s.sink := rfl
@[simp] theorem respond_resps (opc : Opc) (r : Reply) : (respond opc r s).resps = s.resps ++ [⟨packR0 0 opc r.len r.sym, r.r1, r.cb⟩] := rfl

@[simp] theorem refuse_freq (opc : Opc) : (refuse opc s).freq = s.freq := rfl
@[simp] theorem refuse_node (opc : Opc) : (refuse opc s).node = s.node := rfl
@[simp] theorem refuse_symidx (opc : Opc) : (refuse opc s).symidx = s.symidx := rfl
@[simp] theorem refuse_code (opc : Opc) : (refuse opc s).code = s.code := rfl
@[simp] theorem refuse_root (opc : Opc) : (refuse opc s).root = s.root := rfl
@[simp] theorem refuse_phase (opc : Opc) : (refuse opc s).phase = s.phase := rfl
@[simp] theorem refuse_frozen (opc : Opc) : (refuse opc s).frozen = s.frozen := rfl
@[simp] theorem refuse_total (opc : Opc) : (refuse opc s).total = s.total := rfl
@[simp] theorem refuse_ppos (opc : Opc) : (refuse opc s).ppos = s.ppos := rfl
@[simp] theorem refuse_err (opc : Opc) : (refuse opc s).err = s.err := rfl
@[simp] theorem refuse_cmds (opc : Opc) : (refuse opc s).cmds = s.cmds := rfl
@[simp] theorem refuse_src (opc : Opc) : (refuse opc s).src = s.src := rfl
@[simp] theorem refuse_sink (opc : Opc) : (refuse opc s).sink = s.sink := rfl
@[simp] theorem refuse_resps (opc : Opc) : (refuse opc s).resps = s.resps ++ [faultResponse s.err opc] := rfl

@[simp] theorem placeWord_freq (w : CmdWord) : (placeWord w s).freq = s.freq := rfl
@[simp] theorem placeWord_node (w : CmdWord) : (placeWord w s).node = s.node := rfl
@[simp] theorem placeWord_symidx (w : CmdWord) : (placeWord w s).symidx = s.symidx := rfl
@[simp] theorem placeWord_code (w : CmdWord) : (placeWord w s).code = s.code := rfl
@[simp] theorem placeWord_root (w : CmdWord) : (placeWord w s).root = s.root := rfl
@[simp] theorem placeWord_phase (w : CmdWord) : (placeWord w s).phase = s.phase := rfl
@[simp] theorem placeWord_frozen (w : CmdWord) : (placeWord w s).frozen = s.frozen := rfl
@[simp] theorem placeWord_total (w : CmdWord) : (placeWord w s).total = s.total := rfl
@[simp] theorem placeWord_ppos (w : CmdWord) : (placeWord w s).ppos = s.ppos := rfl
@[simp] theorem placeWord_err (w : CmdWord) : (placeWord w s).err = s.err := rfl
@[simp] theorem placeWord_cmds (w : CmdWord) : (placeWord w s).cmds = w :: s.cmds := rfl
@[simp] theorem placeWord_src (w : CmdWord) : (placeWord w s).src = s.src := rfl
@[simp] theorem placeWord_sink (w : CmdWord) : (placeWord w s).sink = s.sink := rfl
@[simp] theorem placeWord_resps (w : CmdWord) : (placeWord w s).resps = s.resps := rfl

@[simp] theorem takeFault_freq (k : FaultKind) (opc : Opc) : (takeFault k opc s).freq = s.freq := by
  unfold takeFault; split <;> simp_all
@[simp] theorem takeFault_node (k : FaultKind) (opc : Opc) : (takeFault k opc s).node = s.node := by
  unfold takeFault; split <;> simp_all
@[simp] theorem takeFault_symidx (k : FaultKind) (opc : Opc) : (takeFault k opc s).symidx = s.symidx := by
  unfold takeFault; split <;> simp_all
@[simp] theorem takeFault_code (k : FaultKind) (opc : Opc) : (takeFault k opc s).code = s.code := by
  unfold takeFault; split <;> simp_all
@[simp] theorem takeFault_root (k : FaultKind) (opc : Opc) : (takeFault k opc s).root = s.root := by
  unfold takeFault; split <;> simp_all
@[simp] theorem takeFault_phase (k : FaultKind) (opc : Opc) : (takeFault k opc s).phase = s.phase := by
  unfold takeFault; split <;> simp_all
@[simp] theorem takeFault_frozen (k : FaultKind) (opc : Opc) : (takeFault k opc s).frozen = s.frozen := by
  unfold takeFault; split <;> simp_all
@[simp] theorem takeFault_total (k : FaultKind) (opc : Opc) : (takeFault k opc s).total = s.total := by
  unfold takeFault; split <;> simp_all
@[simp] theorem takeFault_ppos (k : FaultKind) (opc : Opc) : (takeFault k opc s).ppos = s.ppos := by
  unfold takeFault; split <;> simp_all
@[simp] theorem takeFault_err (k : FaultKind) (opc : Opc) : (takeFault k opc s).err = if s.err = 0 then k.code else s.err := by
  unfold takeFault; split <;> simp_all
@[simp] theorem takeFault_cmds (k : FaultKind) (opc : Opc) : (takeFault k opc s).cmds = s.cmds := by
  unfold takeFault; split <;> simp_all
@[simp] theorem takeFault_src (k : FaultKind) (opc : Opc) : (takeFault k opc s).src = s.src := by
  unfold takeFault; split <;> simp_all
@[simp] theorem takeFault_sink (k : FaultKind) (opc : Opc) : (takeFault k opc s).sink = s.sink := by
  unfold takeFault; split <;> simp_all
@[simp] theorem takeFault_resps (k : FaultKind) (opc : Opc) : (takeFault k opc s).resps = s.resps ++ [faultResponse k.code opc] := by
  unfold takeFault; split <;> simp_all

@[simp] theorem clearCore_freq : (clearCore s).freq = State.reset.freq := rfl
@[simp] theorem clearCore_node : (clearCore s).node = State.reset.node := rfl
@[simp] theorem clearCore_symidx : (clearCore s).symidx = State.reset.symidx := rfl
@[simp] theorem clearCore_code : (clearCore s).code = State.reset.code := rfl
@[simp] theorem clearCore_root : (clearCore s).root = State.reset.root := rfl
@[simp] theorem clearCore_phase : (clearCore s).phase = State.reset.phase := rfl
@[simp] theorem clearCore_frozen : (clearCore s).frozen = State.reset.frozen := rfl
@[simp] theorem clearCore_total : (clearCore s).total = State.reset.total := rfl
@[simp] theorem clearCore_ppos : (clearCore s).ppos = State.reset.ppos := rfl
@[simp] theorem clearCore_err : (clearCore s).err = State.reset.err := rfl
@[simp] theorem clearCore_cmds : (clearCore s).cmds = s.cmds := rfl
@[simp] theorem clearCore_src : (clearCore s).src = s.src := rfl
@[simp] theorem clearCore_sink : (clearCore s).sink = s.sink := rfl
@[simp] theorem clearCore_resps : (clearCore s).resps = s.resps := rfl

@[simp] theorem reset_freq : State.reset.freq = [] := rfl
@[simp] theorem reset_node : State.reset.node = [] := rfl
@[simp] theorem reset_symidx : State.reset.symidx = [] := rfl
@[simp] theorem reset_code : State.reset.code = [] := rfl
@[simp] theorem reset_root : State.reset.root = NIL := rfl
@[simp] theorem reset_phase : State.reset.phase = .empty := rfl
@[simp] theorem reset_frozen : State.reset.frozen = false := rfl
@[simp] theorem reset_total : State.reset.total = 0 := rfl
@[simp] theorem reset_ppos : State.reset.ppos = 0 := rfl
@[simp] theorem reset_err : State.reset.err = 0 := rfl
@[simp] theorem reset_cmds : State.reset.cmds = [] := rfl
@[simp] theorem reset_src : State.reset.src = [] := rfl
@[simp] theorem reset_sink : State.reset.sink = [] := rfl
@[simp] theorem reset_resps : State.reset.resps = [] := rfl

end Sys2Proof.Machine
end

