-- ==== Sys2Proof/Laws/Arrays.lean ====
section
/-! SUPPORT. The laws of the symbol-indexed arrays and of the arena: read after write, canonical form. -/

namespace Sys2Proof.Machine

namespace Table

variable {α : Type}

theorem find_insert (t : Table α) (s u : Sym) (v : α) :
    find (insert t s v) u = if s = u then some v else find t u := by
  induction t with
  | nil => simp [insert, find]
  | cons e t ih =>
    obtain ⟨k, w⟩ := e
    simp only [insert]
    split
    · simp only [find]
    · split
      · subst_vars; simp only [find]; split <;> simp_all
      · simp only [find, ih]
        by_cases hku : k = u <;> by_cases hsu : s = u <;> simp_all

theorem find_erase (t : Table α) (s u : Sym) :
    find (erase t s) u = if s = u then none else find t u := by
  induction t with
  | nil => simp [erase, find]
  | cons e t ih =>
    obtain ⟨k, w⟩ := e
    simp only [erase]
    by_cases hks : k = s <;> by_cases hsu : s = u <;> by_cases hku : k = u <;> simp_all [find]

theorem rising_cons (k : Sym) (w : α) (t : Table α) :
    rising ((k, w) :: t) = true ↔ (∀ e ∈ t, k < e.1) ∧ rising t = true := by
  simp [rising]

theorem mem_insert (t : Table α) (s : Sym) (v : α) (e : Sym × α) (h : e ∈ insert t s v) :
    e = (s, v) ∨ e ∈ t := by
  induction t with
  | nil => simpa [insert] using h
  | cons d t ih =>
    obtain ⟨k, w⟩ := d
    simp only [insert] at h
    split at h
    · simpa using h
    · split at h
      · rcases List.mem_cons.1 h with h | h
        · exact .inl h
        · exact .inr (List.mem_cons_of_mem _ h)
      · rcases List.mem_cons.1 h with h | h
        · exact .inr (h ▸ List.mem_cons_self ..)
        · exact (ih h).imp id (List.mem_cons_of_mem _)

theorem mem_erase (t : Table α) (s : Sym) (e : Sym × α) (h : e ∈ erase t s) : e ∈ t := by
  induction t with
  | nil => simp [erase] at h
  | cons d t ih =>
    obtain ⟨k, w⟩ := d
    simp only [erase] at h
    split at h
    · exact List.mem_cons_of_mem _ (ih h)
    · rcases List.mem_cons.1 h with h | h
      · exact h ▸ List.mem_cons_self ..
      · exact List.mem_cons_of_mem _ (ih h)

theorem rising_insert (t : Table α) (s : Sym) (v : α) (h : rising t = true) :
    rising (insert t s v) = true := by
  induction t with
  | nil => simp [insert, rising]
  | cons d t ih =>
    obtain ⟨k, w⟩ := d
    rw [rising_cons] at h
    simp only [insert]
    split
    · rename_i hsk
      simp only [rising_cons]
      refine ⟨?_, h.1, h.2⟩
      intro e he
      rcases List.mem_cons.1 he with he | he
      · exact he ▸ hsk
      · exact BitVec.lt_trans hsk (h.1 e he)
    · split
      · subst_vars; exact (rising_cons ..).2 h
      · rename_i h1 h2
        rw [rising_cons]
        refine ⟨?_, ih h.2⟩
        intro e he
        rcases mem_insert t s v e he with he | he
        · subst he; simp only; bv_omega
        · exact h.1 e he

theorem rising_erase (t : Table α) (s : Sym) (h : rising t = true) : rising (erase t s) = true := by
  induction t with
  | nil => simp [erase, rising]
  | cons d t ih =>
    obtain ⟨k, w⟩ := d
    rw [rising_cons] at h
    simp only [erase]
    split
    · exact ih h.2
    · rw [rising_cons]
      exact ⟨fun e he => h.1 e (mem_erase t s e he), ih h.2⟩

theorem wf_insert (absent : α → Bool) (t : Table α) (s : Sym) (v : α) (h : wf absent t = true)
    (hv : absent v = false) : wf absent (insert t s v) = true := by
  simp only [wf, Bool.and_eq_true, List.all_eq_true, Bool.not_eq_true'] at h ⊢
  refine ⟨rising_insert t s v h.1, fun e he => ?_⟩
  rcases mem_insert t s v e he with he | he
  · subst he; exact hv
  · exact h.2 e he

theorem wf_erase (absent : α → Bool) (t : Table α) (s : Sym) (h : wf absent t = true) :
    wf absent (erase t s) = true := by
  simp only [wf, Bool.and_eq_true, List.all_eq_true, Bool.not_eq_true'] at h ⊢
  exact ⟨rising_erase t s h.1, fun e he => h.2 e (mem_erase t s e he)⟩

/-- A found entry is a listed pair. -/
theorem mem_of_find (t : Table α) (s : Sym) (v : α) (h : find t s = some v) : (s, v) ∈ t := by
  induction t with
  | nil => simp [find] at h
  | cons d t ih =>
    obtain ⟨k, w⟩ := d
    simp only [find] at h
    split at h
    · simp_all
    · exact List.mem_cons_of_mem _ (ih h)

end Table

/-! ### FREQ, SYMIDX, CODE -/

@[simp] theorem freqAt_setFreq (t : Table Freq) (s u : Sym) (n : Freq) :
    freqAt (setFreq t s n) u = if s = u then n else freqAt t u := by
  simp only [freqAt, setFreq]
  split
  · rw [Table.find_erase]; split <;> simp_all
  · rw [Table.find_insert]; split <;> simp_all

@[simp] theorem symidxAt_setSymidx (t : Table Idx) (s u : Sym) (i : Idx) :
    symidxAt (setSymidx t s i) u = if s = u then i else symidxAt t u := by
  simp only [symidxAt, setSymidx]
  split
  · rw [Table.find_erase]; split <;> simp_all
  · rw [Table.find_insert]; split <;> simp_all

@[simp] theorem codeAt_setCode (t : Table BitStr) (s u : Sym) (c : BitStr) :
    codeAt (setCode t s c) u = if s = u then some c else codeAt t u := Table.find_insert t s u c

@[simp] theorem freqAt_nil (s : Sym) : freqAt [] s = 0 := rfl
@[simp] theorem symidxAt_nil (s : Sym) : symidxAt [] s = NIL := rfl
@[simp] theorem codeAt_nil (s : Sym) : codeAt [] s = none := rfl

theorem setFreq_wf (t : Table Freq) (s : Sym) (n : Freq)
    (h : Table.wf (fun n => decide (n = 0)) t = true) :
    Table.wf (fun n => decide (n = 0)) (setFreq t s n) = true := by
  unfold setFreq
  split
  · exact Table.wf_erase _ _ _ h
  · exact Table.wf_insert _ _ _ _ h (by simpa)

theorem setSymidx_wf (t : Table Idx) (s : Sym) (i : Idx)
    (h : Table.wf (fun i => decide (i = NIL)) t = true) :
    Table.wf (fun i => decide (i = NIL)) (setSymidx t s i) = true := by
  unfold setSymidx
  split
  · exact Table.wf_erase _ _ _ h
  · exact Table.wf_insert _ _ _ _ h (by simpa)

theorem setCode_wf (t : Table BitStr) (s : Sym) (c : BitStr)
    (h : Table.wf (fun c => c.isEmpty) t = true) (hc : c.isEmpty = false) :
    Table.wf (fun c => c.isEmpty) (setCode t s c) = true := Table.wf_insert _ _ _ _ h hc

/-- In canonical form a valid entry of CODE is never the empty string. -/
theorem codeAt_ne_nil (t : Table BitStr) (s : Sym) (c : BitStr)
    (h : Table.wf (fun c => c.isEmpty) t = true) (hc : codeAt t s = some c) : c.isEmpty = false := by
  simp only [Table.wf, Bool.and_eq_true, List.all_eq_true, Bool.not_eq_true'] at h
  exact h.2 _ (Table.mem_of_find t s c hc)

/-! ### The arena -/

@[simp] theorem nodeAt_NIL (ns : List Node) : nodeAt ns NIL = none := by simp [nodeAt]

@[simp] theorem nodeAt_nil (i : Idx) : nodeAt [] i = none := by simp [nodeAt]

theorem ne_NIL_of_nodeAt {ns : List Node} {i : Idx} {n : Node} (h : nodeAt ns i = some n) : i ≠ NIL := by
  rintro rfl; simp at h

theorem getElem?_of_nodeAt {ns : List Node} {i : Idx} {n : Node} (h : nodeAt ns i = some n) :
    ns[i.toNat]? = some n := by
  unfold nodeAt at h; split at h <;> simp_all

theorem nodeAt_eq {ns : List Node} {i : Idx} (h : i ≠ NIL) : nodeAt ns i = ns[i.toNat]? := by
  simp [nodeAt, h]

theorem mem_of_nodeAt {ns : List Node} {i : Idx} {n : Node} (h : nodeAt ns i = some n) : n ∈ ns :=
  List.mem_of_getElem? (getElem?_of_nodeAt h)

theorem lt_of_nodeAt {ns : List Node} {i : Idx} {n : Node} (h : nodeAt ns i = some n) :
    i.toNat < ns.length := by
  have := getElem?_of_nodeAt h
  exact (List.getElem?_eq_some_iff.1 this).1

theorem toNat_lt_of_ne_NIL {i : Idx} (h : i ≠ NIL) : i.toNat < NNODE := by
  have := i.isLt
  have h2 : i.toNat ≠ 511 := fun e => h (BitVec.eq_of_toNat_eq (by simpa using e))
  simp only [NNODE]; omega

theorem exists_nodeAt {ns : List Node} {i : Idx} (h : i ≠ NIL) (hl : i.toNat < ns.length) :
    ∃ n, nodeAt ns i = some n :=
  ⟨ns[i.toNat], by rw [nodeAt_eq h]; exact List.getElem?_eq_getElem hl⟩

@[simp] theorem nextIdx_toNat {ns : List Node} (h : ns.length < NNODE) :
    (nextIdx ns).toNat = ns.length := by
  simp only [nextIdx, BitVec.toNat_ofNat, NNODE] at *; omega

theorem nextIdx_ne_NIL {ns : List Node} (h : ns.length < NNODE) : nextIdx ns ≠ NIL := by
  intro e
  have := congrArg BitVec.toNat e
  rw [nextIdx_toNat h] at this
  simp [NNODE] at *; omega

theorem ofNat_ne_NIL {j : Nat} (h : j < NNODE) : BitVec.ofNat 9 j ≠ NIL := by
  intro e
  have := congrArg BitVec.toNat e
  simp [NNODE] at *; omega

/-- A new entry leaves the older ones alone. -/
theorem nodeAt_append {ns : List Node} {i : Idx} {n : Node} (ms : List Node)
    (h : nodeAt ns i = some n) : nodeAt (ns ++ ms) i = some n := by
  rw [nodeAt_eq (ne_NIL_of_nodeAt h)]
  exact List.getElem?_append_left (lt_of_nodeAt h) ▸ getElem?_of_nodeAt h

theorem nodeAt_append_left {ns ms : List Node} {i : Idx} (h : i.toNat < ns.length) :
    nodeAt (ns ++ ms) i = nodeAt ns i := by
  unfold nodeAt; split
  · rfl
  · exact List.getElem?_append_left h

/-- The entry a rule has just allocated. -/
theorem nodeAt_nextIdx {ns : List Node} (h : ns.length < NNODE) (n : Node) (ms : List Node) :
    nodeAt (ns ++ n :: ms) (nextIdx ns) = some n := by
  rw [nodeAt_eq (nextIdx_ne_NIL h), nextIdx_toNat h]; simp

theorem nodeAt_modify (ns : List Node) (i j : Idx) (f : Node → Node) :
    nodeAt (ns.modify i.toNat f) j = if i = j then (nodeAt ns j).map f else nodeAt ns j := by
  by_cases hj : j = NIL
  · subst hj; simp
  · rw [nodeAt_eq hj, nodeAt_eq hj, List.getElem?_modify]
    by_cases hij : i = j
    · subst hij; simp
    · have : i.toNat ≠ j.toNat := fun e => hij (BitVec.eq_of_toNat_eq e)
      simp [hij, this]

theorem nodeAt_setLeft (ns : List Node) (i l j : Idx) :
    nodeAt (setLeft ns i l) j = if i = j then (nodeAt ns j).map (fun n => { n with left := l })
      else nodeAt ns j := nodeAt_modify ns i j _

theorem nodeAt_setRight (ns : List Node) (i r j : Idx) :
    nodeAt (setRight ns i r) j = if i = j then (nodeAt ns j).map (fun n => { n with right := r })
      else nodeAt ns j := nodeAt_modify ns i j _

theorem nodeAt_setParent (ns : List Node) (i p j : Idx) :
    nodeAt (setParent ns i p) j = if i = j then (nodeAt ns j).map (fun n => { n with parent := p })
      else nodeAt ns j := nodeAt_modify ns i j _

@[simp] theorem setLeft_length (ns : List Node) (i l : Idx) : (setLeft ns i l).length = ns.length :=
  List.length_modify ..

@[simp] theorem setRight_length (ns : List Node) (i r : Idx) : (setRight ns i r).length = ns.length :=
  List.length_modify ..

@[simp] theorem setParent_length (ns : List Node) (i p : Idx) : (setParent ns i p).length = ns.length :=
  List.length_modify ..

/-- A property of all nodes, read at every allocated index. -/
theorem forall_mem_iff {ns : List Node} (h : ns.length ≤ NNODE) (P : Node → Prop) :
    (∀ n ∈ ns, P n) ↔ ∀ i n, nodeAt ns i = some n → P n := by
  constructor
  · exact fun H i n hn => H n (mem_of_nodeAt hn)
  · intro H n hn
    obtain ⟨j, hj, rfl⟩ := List.getElem_of_mem hn
    have hjN : j < NNODE := by omega
    refine H (BitVec.ofNat 9 j) _ ?_
    rw [nodeAt_eq (ofNat_ne_NIL hjN)]
    have : (BitVec.ofNat 9 j).toNat = j := by simp [NNODE] at *; omega
    rw [this]; exact List.getElem?_eq_getElem hj

end Sys2Proof.Machine
end

