-- ==== Sys2Proof/Laws/Bits.lean ====
section
/-! SUPPORT. The laws of bit strings: `msb` and its inverse, fields read from the source, the packed image
of a code. -/

namespace Sys2Proof.Machine

@[simp] theorem msb_length {n : Nat} (v : BitVec n) : (msb v).length = n := by simp [msb]

theorem getElem?_msb {n : Nat} (v : BitVec n) (k : Nat) :
    (msb v)[k]? = if k < n then some (v.getMsbD k) else none := by
  simp only [msb, List.getElem?_map]
  split <;> simp_all

/-- The bits shifted in before stand above those shifted in after. -/
theorem shiftIn_eq (c : BitStr) (v : Nat) : shiftIn v c = v * 2 ^ c.length + shiftIn 0 c := by
  induction c generalizing v with
  | nil => simp [shiftIn]
  | cons b c ih =>
    simp only [shiftIn, List.length_cons]
    rw [ih (2 * v + b.toNat), ih (2 * 0 + b.toNat), pow_succ]; ring

theorem shiftIn_append (v : Nat) (c d : BitStr) : shiftIn v (c ++ d) = shiftIn (shiftIn v c) d := by
  induction c generalizing v with
  | nil => rfl
  | cons b c ih => simp [shiftIn, ih]

theorem shiftIn_lt (c : BitStr) : shiftIn 0 c < 2 ^ c.length := by
  induction c with
  | nil => simp [shiftIn]
  | cons b c ih =>
    simp only [shiftIn, List.length_cons]
    rw [shiftIn_eq, pow_succ]
    cases b <;> simp <;> omega

/-- Bit `k` of a bit string, counted from the first bit, in the number it writes. -/
theorem testBit_shiftIn (c : BitStr) (j : Nat) :
    (shiftIn 0 c).testBit j = (decide (j < c.length) && c.getD (c.length - 1 - j) false) := by
  induction c generalizing j with
  | nil => simp [shiftIn]
  | cons b c ih =>
    simp only [shiftIn, List.length_cons]
    have hlt := shiftIn_lt c
    rw [shiftIn_eq]
    have : (2 * 0 + b.toNat) * 2 ^ c.length = 2 ^ c.length * b.toNat := by ring
    rw [this, Nat.testBit_two_pow_mul_add _ hlt]
    split
    · rename_i h
      rw [ih]
      have e : c.length + 1 - 1 - j = (c.length - 1 - j) + 1 := by omega
      simp only [h, e, List.getD_cons_succ]
      simp; omega
    · rename_i h
      by_cases hj : j = c.length
      · subst hj; cases b <;> simp
      · have : 0 < j - c.length := by omega
        have h1 : ¬ j < c.length + 1 := by omega
        obtain ⟨m, hm⟩ : ∃ m, j - c.length = m + 1 := ⟨j - c.length - 1, by omega⟩
        rw [hm]
        cases b <;> simp [h1, Nat.testBit_succ]

/-- `msb` is undone by shifting the bits in. -/
@[simp] theorem shiftIn_msb {n : Nat} (v : BitVec n) : shiftIn 0 (msb v) = v.toNat := by
  apply Nat.eq_of_testBit_eq
  intro j
  rw [testBit_shiftIn, msb_length, BitVec.testBit_toNat]
  by_cases h : j < n
  · have h1 : n - 1 - j < n := by omega
    rw [List.getD_eq_getElem?_getD, getElem?_msb, if_pos h1]
    simp only [h, decide_true, Bool.true_and, Option.getD_some, BitVec.getMsbD]
    have : n - 1 - (n - 1 - j) = j := by omega
    simp [this, h1]
  · simp [h, BitVec.getLsbD_of_ge v j (by omega)]

theorem msb_inj {n : Nat} {v w : BitVec n} (h : msb v = msb w) : v = w :=
  BitVec.eq_of_toNat_eq (by rw [← shiftIn_msb v, h, shiftIn_msb])

/-- The bits of a number, written back. -/
theorem msb_shiftIn (c : BitStr) {n : Nat} (h : c.length = n) : msb (BitVec.ofNat n (shiftIn 0 c)) = c := by
  apply List.ext_getElem?
  intro k
  rw [getElem?_msb]
  split
  · rename_i hk
    simp only [BitVec.getMsbD, BitVec.getLsbD_ofNat, testBit_shiftIn]
    have h1 : n - 1 - k < n := by omega
    have h2 : c.length - 1 - (n - 1 - k) = k := by omega
    rw [h2, List.getElem?_eq_getElem (by omega : k < c.length)]
    simp [hk, h, h1, List.getD_eq_getElem?_getD]
  · rw [List.getElem?_eq_none (by omega)]

/-! ### Fields read from the source -/

@[simp] theorem srcGet_nil : srcGet [] = none := rfl
@[simp] theorem srcGet_cons (b : Bool) (rest : BitStr) : srcGet (b :: rest) = some (b, rest) := rfl

/-- Reading a field of as many bits as are there. -/
theorem readField_append (c rest : BitStr) (v : Nat) :
    readField c.length v (c ++ rest) = (some (shiftIn v c), rest) := by
  induction c generalizing v with
  | nil => rfl
  | cons b c ih => simp [readField, shiftIn, ih]

/-- Reading a field the source ends in: every bit is consumed. -/
theorem readField_short (k v : Nat) (src : BitStr) (h : src.length < k) :
    readField k v src = (none, []) := by
  induction k generalizing v src with
  | zero => simp at h
  | succ k ih =>
    cases src with
    | nil => rfl
    | cons b rest => simp only [readField, srcGet_cons]; exact ih _ _ (by simpa using h)

/-- Reading a field, in full: enough bits, or all of too few. -/
theorem readField_eq (k : Nat) (src : BitStr) :
    readField k 0 src = if k ≤ src.length then (some (shiftIn 0 (src.take k)), src.drop k) else (none, []) := by
  split
  · rename_i h
    have hl : (src.take k).length = k := by simp [h]
    have := readField_append (src.take k) (src.drop k) 0
    rwa [List.take_append_drop, hl] at this
  · exact readField_short _ _ _ (by omega)

theorem readField_msb {n : Nat} (v : BitVec n) (rest : BitStr) :
    readField n 0 (msb v ++ rest) = (some v.toNat, rest) := by
  have := readField_append (msb v) rest 0
  rwa [msb_length, shiftIn_msb] at this

/-! ### The packed image of a code -/

/-- Bit `k` of the packed image, from the most significant: the code's bit `k`, then zeros. -/
theorem getMsbD_pack (c : BitStr) (k : Nat) (hc : c.length ≤ WCODE) (hk : k < WCODE) :
    (pack c).getMsbD k = c.getD k false := by
  simp only [WCODE] at *
  have hlt := shiftIn_lt c
  simp only [pack, BitVec.getMsbD, BitVec.getLsbD_shiftLeft, BitVec.getLsbD_ofNat, testBit_shiftIn]
  by_cases h : k < c.length
  · have h1 : ¬ (255 - k < 256 - c.length) := by omega
    have h2 : 255 - k - (256 - c.length) < c.length := by omega
    have h3 : c.length - 1 - (255 - k - (256 - c.length)) = k := by omega
    have h4 : 255 - k < 256 := by omega
    have h5 : 255 - k - (256 - c.length) < 256 := by omega
    simp [hk, h1, h2, h3, h4, h5]
  · have h1 : 255 - k < 256 - c.length := by omega
    have h2 : (c : List Bool)[k]? = none := List.getElem?_eq_none (by omega)
    simp [h1, h2]

@[simp] theorem pack_nil : pack [] = 0 := by decide

end Sys2Proof.Machine
end

