-- ==== Sys2Proof/Laws/Trees.lean ====
section
/-! SUPPORT. Trees as headers describe them, and the arenas that hold them. -/

namespace Sys2Proof

namespace CodeTree

theorem leaves_pos (t : CodeTree) : 0 < t.leaves.length := by
  induction t with
  | leaf c => simp [leaves]
  | fork l r ihl ihr => simp only [leaves, List.length_append]; omega

/-- A tree of k leaves has 2k − 1 nodes (R12). -/
theorem size_eq (t : CodeTree) : t.size + 1 = 2 * t.leaves.length := by
  induction t with
  | leaf c => simp [size, leaves]
  | fork l r ihl ihr => simp only [size, leaves, List.length_append]; omega

theorem size_pos (t : CodeTree) : 0 < t.size := by have := t.size_eq; have := t.leaves_pos; omega

/-- A tree of k leaves has depth at most k − 1 (R12). -/
theorem depth_lt (t : CodeTree) : t.depth < t.leaves.length := by
  induction t with
  | leaf c => simp [depth, leaves]
  | fork l r ihl ihr =>
    have := l.leaves_pos; have := r.leaves_pos
    simp only [depth, leaves, List.length_append]; omega

/-- The tree field of k leaves is 10k − 1 bits (R72). -/
theorem header_length (t : CodeTree) : t.header.length + 1 = 10 * t.leaves.length := by
  induction t with
  | leaf c => simp [header, leaves]
  | fork l r ihl ihr =>
    simp only [header, leaves, List.length_cons, List.length_append]; omega

@[simp] theorem paths_map_fst (t : CodeTree) : t.paths.map Prod.fst = t.leaves := by
  induction t with
  | leaf c => rfl
  | fork l r ihl ihr =>
    simp only [paths, leaves, List.map_append, List.map_map]
    rw [← ihl, ← ihr]; rfl

theorem mem_leaves_of_path {t : CodeTree} {c : Sym} {p : BitStr} (h : (c, p) ∈ t.paths) :
    c ∈ t.leaves := by
  rw [← paths_map_fst]; exact List.mem_map_of_mem h

theorem path_of_mem_leaves {t : CodeTree} {c : Sym} (h : c ∈ t.leaves) : ∃ p, (c, p) ∈ t.paths := by
  rw [← paths_map_fst] at h
  obtain ⟨⟨d, p⟩, hp, rfl⟩ := List.mem_map.1 h
  exact ⟨p, hp⟩

theorem path_length_le {t : CodeTree} {c : Sym} {p : BitStr} (h : (c, p) ∈ t.paths) :
    p.length ≤ t.depth := by
  induction t generalizing p with
  | leaf d => simp [paths] at h; simp [h, depth]
  | fork l r ihl ihr =>
    simp only [paths, List.mem_append, List.mem_map, Prod.mk.injEq, Prod.exists] at h
    rcases h with ⟨d, q, hq, rfl, rfl⟩ | ⟨d, q, hq, rfl, rfl⟩
    · have := ihl hq; simp only [List.length_cons, depth]; omega
    · have := ihr hq; simp only [List.length_cons, depth]; omega

theorem mem_paths_fork {l r : CodeTree} {c : Sym} {p : BitStr} :
    (c, p) ∈ (fork l r).paths ↔
      (∃ q, p = false :: q ∧ (c, q) ∈ l.paths) ∨ (∃ q, p = true :: q ∧ (c, q) ∈ r.paths) := by
  simp only [paths, List.mem_append, List.mem_map, Prod.mk.injEq, Prod.exists]
  constructor
  · rintro (⟨d, q, hq, rfl, rfl⟩ | ⟨d, q, hq, rfl, rfl⟩)
    · exact .inl ⟨q, rfl, hq⟩
    · exact .inr ⟨q, rfl, hq⟩
  · rintro (⟨q, rfl, hq⟩ | ⟨q, rfl, hq⟩)
    · exact .inl ⟨c, q, hq, rfl, rfl⟩
    · exact .inr ⟨c, q, hq, rfl, rfl⟩

/-- A path that is a prefix of another is that path, and leads to the same symbol (R103). -/
theorem path_prefix_eq {t : CodeTree} {c d : Sym} {p q : BitStr} (hp : (c, p) ∈ t.paths)
    (hq : (d, q) ∈ t.paths) (h : p <+: q) : c = d ∧ p = q := by
  induction t generalizing p q with
  | leaf e => simp [paths] at hp hq; simp [hp, hq]
  | fork l r ihl ihr =>
    rw [mem_paths_fork] at hp hq
    rcases hp with ⟨p, rfl, hp⟩ | ⟨p, rfl, hp⟩ <;> rcases hq with ⟨q, rfl, hq⟩ | ⟨q, rfl, hq⟩
    · have := ihl hp hq (List.cons_prefix_cons.1 h).2; simp [this]
    · simp at h
    · simp at h
    · have := ihr hp hq (List.cons_prefix_cons.1 h).2; simp [this]

/-- With distinct leaf symbols a symbol has one path. -/
theorem path_unique {t : CodeTree} (hn : t.leaves.Nodup) {c : Sym} {p q : BitStr}
    (hp : (c, p) ∈ t.paths) (hq : (c, q) ∈ t.paths) : p = q := by
  induction t generalizing p q with
  | leaf e => simp [paths] at hp hq; simp [hp, hq]
  | fork l r ihl ihr =>
    simp only [leaves, List.nodup_append] at hn
    rw [mem_paths_fork] at hp hq
    rcases hp with ⟨p, rfl, hp⟩ | ⟨p, rfl, hp⟩ <;> rcases hq with ⟨q, rfl, hq⟩ | ⟨q, rfl, hq⟩
    · rw [ihl hn.1 hp hq]
    · exact absurd rfl (hn.2.2 _ (mem_leaves_of_path hp) _ (mem_leaves_of_path hq))
    · exact absurd rfl (hn.2.2 _ (mem_leaves_of_path hq) _ (mem_leaves_of_path hp))
    · rw [ihr hn.2.1 hp hq]

/-- A bit string as long as the tree is deep has a path as a prefix (R103). -/
theorem exists_path_prefix (t : CodeTree) (w : BitStr) (h : t.depth ≤ w.length) :
    ∃ c p, (c, p) ∈ t.paths ∧ p <+: w := by
  induction t generalizing w with
  | leaf c => exact ⟨c, [], by simp [paths], List.nil_prefix⟩
  | fork l r ihl ihr =>
    cases w with
    | nil => simp [depth] at h
    | cons b w =>
      simp only [depth, List.length_cons] at h
      cases b with
      | false =>
        obtain ⟨c, p, hp, hw⟩ := ihl w (by omega)
        exact ⟨c, false :: p, mem_paths_fork.2 (.inl ⟨p, rfl, hp⟩), List.cons_prefix_cons.2 ⟨rfl, hw⟩⟩
      | true =>
        obtain ⟨c, p, hp, hw⟩ := ihr w (by omega)
        exact ⟨c, true :: p, mem_paths_fork.2 (.inr ⟨p, rfl, hp⟩), List.cons_prefix_cons.2 ⟨rfl, hw⟩⟩

/-- The tree field says which tree it describes, and where it ends. -/
theorem header_append_inj {t u : CodeTree} {a b : BitStr} (h : t.header ++ a = u.header ++ b) :
    t = u ∧ a = b := by
  induction t generalizing u a b with
  | leaf c =>
    cases u with
    | leaf d =>
      simp only [header, List.cons_append, List.cons.injEq, true_and] at h
      have := List.append_inj h (by simp)
      exact ⟨by rw [Machine.msb_inj this.1], this.2⟩
    | fork l r => simp [header] at h
  | fork l r ihl ihr =>
    cases u with
    | leaf d => simp [header] at h
    | fork l' r' =>
      simp only [header, List.cons_append, List.cons.injEq, true_and, List.append_assoc] at h
      obtain ⟨rfl, h2⟩ := ihl h
      obtain ⟨rfl, h3⟩ := ihr h2
      exact ⟨rfl, h3⟩

/-- The codes are the paths, but for the single-leaf tree (R102). -/
theorem mem_codes {t : CodeTree} {c : Sym} {w : BitStr} :
    (c, w) ∈ t.codes ↔ ∃ p, (c, p) ∈ t.paths ∧ w = if p.isEmpty then [false] else p := by
  cases t with
  | leaf d => simp [codes, paths]
  | fork l r =>
    simp only [codes]
    constructor
    · intro h
      refine ⟨w, h, ?_⟩
      rw [mem_paths_fork] at h
      rcases h with ⟨q, rfl, -⟩ | ⟨q, rfl, -⟩ <;> simp
    · rintro ⟨p, hp, rfl⟩
      have := hp
      rw [mem_paths_fork] at this
      rcases this with ⟨q, rfl, -⟩ | ⟨q, rfl, -⟩ <;> simpa using hp

@[simp] theorem codes_map_fst (t : CodeTree) : t.codes.map Prod.fst = t.leaves := by
  cases t with
  | leaf d => rfl
  | fork l r => exact paths_map_fst _

theorem mem_leaves_of_code {t : CodeTree} {c : Sym} {w : BitStr} (h : (c, w) ∈ t.codes) :
    c ∈ t.leaves := by
  rw [← codes_map_fst]; exact List.mem_map_of_mem h

theorem code_of_mem_leaves {t : CodeTree} {c : Sym} (h : c ∈ t.leaves) : ∃ w, (c, w) ∈ t.codes := by
  rw [← codes_map_fst] at h
  obtain ⟨⟨d, p⟩, hp, rfl⟩ := List.mem_map.1 h
  exact ⟨p, hp⟩

theorem code_ne_nil {t : CodeTree} {c : Sym} {w : BitStr} (h : (c, w) ∈ t.codes) : w ≠ [] := by
  obtain ⟨p, -, rfl⟩ := mem_codes.1 h
  split <;> simp_all

/-- A code that is a prefix of another is that code, of the same symbol (R103). -/
theorem code_prefix_eq {t : CodeTree} {c d : Sym} {v w : BitStr} (hv : (c, v) ∈ t.codes)
    (hw : (d, w) ∈ t.codes) (h : v <+: w) : c = d ∧ v = w := by
  cases t with
  | leaf e => simp [codes] at hv hw; simp [hv, hw]
  | fork l r => exact path_prefix_eq hv hw h

theorem code_length_le {t : CodeTree} {c : Sym} {w : BitStr} (h : (c, w) ∈ t.codes) :
    w.length ≤ max 1 t.depth := by
  obtain ⟨p, hp, rfl⟩ := mem_codes.1 h
  have := path_length_le hp
  split
  · simp
  · omega

theorem code_unique {t : CodeTree} (hn : t.leaves.Nodup) {c : Sym} {v w : BitStr}
    (hv : (c, v) ∈ t.codes) (hw : (c, w) ∈ t.codes) : v = w := by
  obtain ⟨p, hp, rfl⟩ := mem_codes.1 hv
  obtain ⟨q, hq, rfl⟩ := mem_codes.1 hw
  rw [path_unique hn hp hq]

end CodeTree

namespace Machine

namespace Holds

variable {ns ms : List Node} {par i : Idx} {t : CodeTree} {is : List Idx}

/-- The root of a held tree is its first index, an allocated entry with the parent link given. -/
theorem root (h : Holds ns par i t is) : ∃ n rest, nodeAt ns i = some n ∧ n.parent = par ∧ is = i :: rest := by
  cases h with
  | leaf at_ up nil sym => exact ⟨_, _, at_, up, rfl⟩
  | fork at_ up left right => exact ⟨_, _, at_, up, rfl⟩

theorem mem_root (h : Holds ns par i t is) : i ∈ is := by
  obtain ⟨n, rest, -, -, rfl⟩ := h.root; exact List.mem_cons_self ..

theorem root_ne (h : Holds ns par i t is) : i ≠ NIL := by
  obtain ⟨n, rest, hn, -, -⟩ := h.root; exact ne_NIL_of_nodeAt hn

theorem length_eq (h : Holds ns par i t is) : is.length = t.size := by
  induction h with
  | leaf => rfl
  | fork _ _ _ _ ihl ihr => simp only [List.length_cons, List.length_append, CodeTree.size, ihl, ihr]; omega

theorem at_mem (h : Holds ns par i t is) {j : Idx} (hj : j ∈ is) : ∃ n, nodeAt ns j = some n := by
  induction h with
  | leaf at_ => rw [List.mem_singleton.1 hj]; exact ⟨_, at_⟩
  | fork at_ _ _ _ ihl ihr =>
    rcases List.mem_cons.1 hj with rfl | hj
    · exact ⟨_, at_⟩
    · rcases List.mem_append.1 hj with hj | hj
      · exact ihl hj
      · exact ihr hj

/-- A tree is held by every arena with the same entries at its indices. -/
theorem congr (h : Holds ns par i t is) (he : ∀ j ∈ is, nodeAt ms j = nodeAt ns j) :
    Holds ms par i t is := by
  induction h with
  | leaf at_ up nil sym => exact .leaf ((he _ (by simp)).trans at_) up nil sym
  | fork at_ up left right ihl ihr =>
    refine .fork ((he _ (by simp)).trans at_) up (ihl fun j hj => he j ?_) (ihr fun j hj => he j ?_)
    · simp [hj]
    · simp [hj]

theorem append (h : Holds ns par i t is) (ms : List Node) : Holds (ns ++ ms) par i t is :=
  h.congr fun j hj => by
    obtain ⟨n, hn⟩ := h.at_mem hj
    rw [hn, nodeAt_append ms hn]

/-- Whether a held node is a leaf is whether the tree is one. -/
theorem isLeaf_iff {n : Node} (h : Holds ns par i t is) (hn : nodeAt ns i = some n) :
    n.isLeaf = true ↔ ∃ c, t = .leaf c := by
  cases h with
  | leaf at_ up nil sym =>
    obtain rfl : _ = n := by simpa using at_.symm.trans hn
    simp [nil]
  | fork at_ up left right =>
    obtain rfl : _ = n := by simpa using at_.symm.trans hn
    simp [Node.isLeaf, left.root_ne]

/-- The parent link of the root changed: the tree stays, under the new parent. -/
theorem reparent (h : Holds ns par i t is) (hn : is.Nodup) {q : Idx}
    (hi : nodeAt ms i = (nodeAt ns i).map fun n => { n with parent := q })
    (he : ∀ j ∈ is, j ≠ i → nodeAt ms j = nodeAt ns j) : Holds ms q i t is := by
  cases h with
  | leaf at_ up nil sym =>
    rw [at_] at hi
    exact .leaf hi rfl nil sym
  | @fork _ _ n l r ls rs at_ up left right =>
    rw [at_] at hi
    have hni : i ∉ ls ++ rs := (List.nodup_cons.1 hn).1
    refine .fork hi rfl (left.congr fun j hj => he j ?_ ?_) (right.congr fun j hj => he j ?_ ?_)
    · simp [hj]
    · rintro rfl; exact hni (by simp [hj])
    · simp [hj]
    · rintro rfl; exact hni (by simp [hj])

/-- Every leaf symbol of a held tree stands in a leaf entry at one of its indices. -/
theorem leaf_index (h : Holds ns par i t is) {c : Sym} (hc : c ∈ t.leaves) :
    ∃ j ∈ is, ∃ n, nodeAt ns j = some n ∧ n.isLeaf = true ∧ n.symbol = c := by
  induction h with
  | leaf at_ up nil sym =>
    rw [List.mem_singleton.1 hc]
    exact ⟨_, by simp, _, at_, nil, sym⟩
  | fork at_ up left right ihl ihr =>
    simp only [CodeTree.leaves, List.mem_append] at hc
    rcases hc with hc | hc
    · obtain ⟨j, hj, n, h⟩ := ihl hc; exact ⟨j, by simp [hj], n, h⟩
    · obtain ⟨j, hj, n, h⟩ := ihr hc; exact ⟨j, by simp [hj], n, h⟩

/-- A leaf entry at an index of a held tree is one of its leaves. -/
theorem mem_leaves (h : Holds ns par i t is) {j : Idx} {n : Node} (hj : j ∈ is) (hn : nodeAt ns j = some n)
    (hl : n.isLeaf = true) : n.symbol ∈ t.leaves := by
  induction h with
  | leaf at_ up nil sym =>
    rw [List.mem_singleton.1 hj] at hn
    obtain rfl : _ = n := by simpa using at_.symm.trans hn
    simp [CodeTree.leaves, sym]
  | fork at_ up left right ihl ihr =>
    simp only [CodeTree.leaves, List.mem_append]
    rcases List.mem_cons.1 hj with rfl | hj
    · obtain rfl : _ = n := by simpa using at_.symm.trans hn
      simp [Node.isLeaf, left.root_ne] at hl
    · rcases List.mem_append.1 hj with hj | hj
      · exact .inl (ihl hj)
      · exact .inr (ihr hj)

/-- Entries of different leaves with different symbols make a tree of distinct leaf symbols. -/
theorem leaves_nodup (h : Holds ns par i t is) (hn : is.Nodup)
    (hu : ∀ j k m n, nodeAt ns j = some m → nodeAt ns k = some n → m.isLeaf = true → n.isLeaf = true →
      m.symbol = n.symbol → j = k) : t.leaves.Nodup := by
  induction h with
  | leaf => simp [CodeTree.leaves]
  | fork at_ up left right ihl ihr =>
    have hn2 := (List.nodup_cons.1 hn).2
    rw [List.nodup_append] at hn2
    simp only [CodeTree.leaves, List.nodup_append]
    refine ⟨ihl hn2.1, ihr hn2.2.1, ?_⟩
    rintro c hc d hd rfl
    obtain ⟨j, hj, m, hm, hml, hms⟩ := left.leaf_index hc
    obtain ⟨k, hk, n, hn, hnl, hns⟩ := right.leaf_index hd
    exact hn2.2.2 j hj k hk (hu j k m n hm hn hml hnl (hms.trans hns.symm))

/-- With distinct leaf symbols, a symbol's leaf entry is one. -/
theorem leaf_index_unique (h : Holds ns par i t is) (hn : is.Nodup) (hu : t.leaves.Nodup) {j k : Idx}
    {m n : Node} (hj : j ∈ is) (hk : k ∈ is) (hm : nodeAt ns j = some m) (hkn : nodeAt ns k = some n)
    (hml : m.isLeaf = true) (hnl : n.isLeaf = true) (e : m.symbol = n.symbol) : j = k := by
  induction h with
  | leaf => simp only [List.mem_singleton] at hj hk; rw [hj, hk]
  | @fork par i x l r ls rs at_ up left right ihl ihr =>
    have hn2 := (List.nodup_cons.1 hn).2
    rw [List.nodup_append] at hn2
    simp only [CodeTree.leaves, List.nodup_append] at hu
    have hroot : ∀ y, nodeAt ns i = some y → y.isLeaf = true → False := by
      intro y hy hyl
      obtain rfl : x = y := by simpa using at_.symm.trans hy
      simp [Node.isLeaf, left.root_ne] at hyl
    rcases List.mem_cons.1 hj with rfl | hj
    · exact (hroot _ hm hml).elim
    rcases List.mem_cons.1 hk with rfl | hk
    · exact (hroot _ hkn hnl).elim
    rcases List.mem_append.1 hj with hj | hj <;> rcases List.mem_append.1 hk with hk | hk
    · exact ihl hn2.1 hu.1 hj hk
    · exact absurd e (hu.2.2 _ (left.mem_leaves hj hm hml) _ (right.mem_leaves hk hkn hnl))
    · exact absurd e.symm (hu.2.2 _ (left.mem_leaves hk hkn hnl) _ (right.mem_leaves hj hm hml))
    · exact ihr hn2.2.1 hu.2.1 hj hk

end Holds

end Machine

end Sys2Proof
end

