-- ==== Sys2Proof/Laws/Codes.lean ====
section
/-! SUPPORT. What `derive`, `getcode` and `getcodes` answer in a consistent state. -/

namespace Sys2Proof.Machine

/-- A consistent state has a root exactly when its arena is a tree, of at most 256 leaves. -/
theorem TreeAt.leaves_le {s : State} {t : CodeTree} (h : TreeAt s t) (ha : s.node.length ≤ NNODE) :
    t.leaves.length ≤ 256 := by
  obtain ⟨is, hh, -, hl⟩ := h
  have := hh.length_eq
  have := t.size_eq
  simp only [NNODE] at ha
  omega

theorem TreeAt.depth_le {s : State} {t : CodeTree} (h : TreeAt s t) (ha : s.node.length ≤ NNODE) :
    t.depth ≤ MAXLEN := by
  have := h.leaves_le ha
  have := t.depth_lt
  simp only [MAXLEN]; omega

/-- Every allocated index is one of the held tree's. -/
theorem mem_of_covering {ns : List Node} {is : List Idx} (hn : is.Nodup) (hl : is.length = ns.length)
    (hm : ∀ j ∈ is, ∃ n, nodeAt ns j = some n) {i : Idx} {n : Node} (hi : nodeAt ns i = some n) : i ∈ is := by
  by_contra hni
  have hnd : ((i :: is).map BitVec.toNat).Nodup :=
    (List.nodup_cons.2 ⟨hni, hn⟩).map fun a b h => BitVec.eq_of_toNat_eq h
  have hsub : ((i :: is).map BitVec.toNat) ⊆ List.range ns.length := by
    intro x hx
    obtain ⟨j, hj, rfl⟩ := List.mem_map.1 hx
    rcases List.mem_cons.1 hj with rfl | hj
    · exact List.mem_range.2 (lt_of_nodeAt hi)
    · obtain ⟨m, hm⟩ := hm j hj
      exact List.mem_range.2 (lt_of_nodeAt hm)
  have := (hnd.subperm hsub).length_le
  simp at this; omega

/-- The leaf loop of `derive`, read as one statement: climbing from a leaf adds the path to it (R102). -/
theorem climb_path {ns : List Node} {par i : Idx} {t : CodeTree} {is : List Idx}
    (h : Holds ns par i t is) (hn : is.Nodup) (root : Idx) (hr : ∀ j ∈ is, j ≠ i → j ≠ root)
    {c : Sym} {p : BitStr} (hp : (c, p) ∈ t.paths) :
    ∃ j ∈ is, (∃ n, nodeAt ns j = some n ∧ n.isLeaf = true ∧ n.symbol = c) ∧
      ∀ k acc, climb ns root (k + p.length) j acc = climb ns root k i (p ++ acc) := by
  induction h generalizing p with
  | leaf at_ up nil sym =>
    simp only [CodeTree.paths, List.mem_singleton, Prod.mk.injEq] at hp
    obtain ⟨rfl, rfl⟩ := hp
    exact ⟨_, by simp, ⟨_, at_, nil, sym⟩, by simp⟩
  | @fork par i n l r ls rs at_ up left right ihl ihr =>
    obtain ⟨hni, hn2⟩ := List.nodup_cons.1 hn
    rw [List.nodup_append] at hn2
    have hl := left.mem_root
    have hrr := right.mem_root
    have hne : n.left ≠ n.right := hn2.2.2 _ hl _ hrr
    have hli : ∀ j ∈ ls, j ≠ i := fun j hj e => hni (e ▸ by simp [hj])
    have hri : ∀ j ∈ rs, j ≠ i := fun j hj e => hni (e ▸ by simp [hj])
    rcases CodeTree.mem_paths_fork.1 hp with ⟨q, rfl, hq⟩ | ⟨q, rfl, hq⟩
    · obtain ⟨j, hj, hleaf, hc⟩ := ihl hn2.1
        (fun j hj hjl => hr j (by simp [hj]) (hli j hj)) hq
      refine ⟨j, by simp [hj], hleaf, fun k acc => ?_⟩
      obtain ⟨m, -, hm, hmp, -⟩ := left.root
      have e : k + (false :: q).length = k + 1 + q.length := by simp; omega
      rw [e, hc, climb, if_neg (hr _ (by simp [hl]) (hli _ hl)), hm]
      simp [hmp, at_]
    · obtain ⟨j, hj, hleaf, hc⟩ := ihr hn2.2.1
        (fun j hj hjl => hr j (by simp [hj]) (hri j hj)) hq
      refine ⟨j, by simp [hj], hleaf, fun k acc => ?_⟩
      obtain ⟨m, -, hm, hmp, -⟩ := right.root
      have e : k + (true :: q).length = k + 1 + q.length := by simp; omega
      rw [e, hc, climb, if_neg (hr _ (by simp [hrr]) (hri _ hrr)), hm]
      simp [hmp, at_, hne]

theorem climb_root (ns : List Node) (root : Idx) (k : Nat) (acc : BitStr) :
    climb ns root k root acc = .ok acc := by cases k <;> simp [climb]

theorem derive_absent {ns : List Node} {sx : Table Idx} {root : Idx} {c : Sym}
    (h : symidxAt sx c = NIL) : derive ns sx root c = .ok [] := by simp [derive, h]

/-- `derive` answers the code the tree gives (R102). -/
theorem derive_code {s : State} (hc : Consistent s) {t : CodeTree} (ht : TreeAt s t) {c : Sym}
    {w : BitStr} (hw : (c, w) ∈ t.codes) : derive s.node s.symidx s.root c = .ok w := by
  have hd := ht.depth_le hc.arena
  obtain ⟨is, hh, hn, hl⟩ := ht
  obtain ⟨p, hp, rfl⟩ := CodeTree.mem_codes.1 hw
  obtain ⟨j, hj, ⟨n, hjn, hnl, hnc⟩, hclimb⟩ := climb_path hh hn s.root (fun j _ h => h) hp
  have hjN := ne_NIL_of_nodeAt hjn
  have hsx : symidxAt s.symidx c = j := (hc.symbols c j hjN).2 ⟨n, hjn, hnl, hnc⟩
  have hlen := CodeTree.path_length_le hp
  unfold derive
  rw [hsx, if_neg hjN]
  by_cases hjr : j = s.root
  · rw [if_pos hjr]
    obtain ⟨d, rfl⟩ := (hh.isLeaf_iff (hjr ▸ hjn)).1 hnl
    simp [CodeTree.paths] at hp
    simp [hp]
  · rw [if_neg hjr]
    have e : MAXLEN = (MAXLEN - p.length) + p.length := by omega
    rw [e, hclimb, climb_root]
    have : p ≠ [] := by
      rintro rfl
      cases t with
      | leaf d =>
        cases hh with
        | leaf at_ up nil sym => exact hjr (by simpa using hj)
      | fork l r => rw [CodeTree.mem_paths_fork] at hp; simp at hp
    simp [this]

/-- In a consistent state the present symbols are the leaves of the tree (R15). -/
theorem present_iff {s : State} (hc : Consistent s) {t : CodeTree} (ht : TreeAt s t) (c : Sym) :
    symidxAt s.symidx c ≠ NIL ↔ c ∈ t.leaves := by
  obtain ⟨is, hh, hn, hl⟩ := ht
  constructor
  · intro h
    obtain ⟨n, hn1, hn2, hn3⟩ := (hc.symbols c _ h).1 rfl
    rw [← hn3]
    exact hh.mem_leaves (mem_of_covering hn hl (fun j hj => hh.at_mem hj) hn1) hn1 hn2
  · intro h
    obtain ⟨j, hj, n, hjn, hnl, hns⟩ := hh.leaf_index h
    have hjN := ne_NIL_of_nodeAt hjn
    rw [(hc.symbols c j hjN).2 ⟨n, hjn, hnl, hns⟩]
    exact hjN

theorem absent_of_no_root {s : State} (hc : Consistent s) (h : s.root = NIL) (c : Sym) :
    symidxAt s.symidx c = NIL := by
  by_contra hne
  obtain ⟨n, hn, -⟩ := (hc.symbols c _ hne).1 rfl
  rw [hc.rooted.1 h] at hn
  simp at hn

/-- Distinct leaves have distinct symbols (R28 clause 5). -/
theorem TreeAt.leaves_nodup {s : State} {t : CodeTree} (ht : TreeAt s t) (hc : Consistent s) :
    t.leaves.Nodup := by
  obtain ⟨is, hh, hn, hl⟩ := ht
  refine hh.leaves_nodup hn fun j k m n hm hn hml hnl e => ?_
  rw [← (hc.symbols m.symbol j (ne_NIL_of_nodeAt hm)).2 ⟨m, hm, hml, rfl⟩,
    ← (hc.symbols m.symbol k (ne_NIL_of_nodeAt hn)).2 ⟨n, hn, hnl, e.symm⟩]

/-- The code of a symbol: what `derive` answers, empty where it stops. -/
def codeOf (s : State) (c : Sym) : BitStr :=
  match derive s.node s.symidx s.root c with
  | .ok w => w
  | .error _ => []

/-- In a consistent state `derive` never stops, and answers a code of length 1 .. 255 for a present symbol
and the empty string for an absent one (R103). -/
theorem derive_total {s : State} (hc : Consistent s) (c : Sym) :
    derive s.node s.symidx s.root c = .ok (codeOf s c) ∧ (codeOf s c).length ≤ MAXLEN ∧
      (codeOf s c = [] ↔ symidxAt s.symidx c = NIL) := by
  by_cases h : symidxAt s.symidx c = NIL
  · have := derive_absent (ns := s.node) (root := s.root) h
    simp [codeOf, this, h]
  · have hr : s.root ≠ NIL := fun e => h (absent_of_no_root hc e c)
    obtain ⟨t, ht⟩ := hc.tree hr
    obtain ⟨w, hw⟩ := CodeTree.code_of_mem_leaves ((present_iff hc ht c).1 h)
    have hd := derive_code hc ht hw
    have h1 : codeOf s c = w := by simp [codeOf, hd]
    have h2 := CodeTree.code_length_le hw
    have h3 := ht.depth_le hc.arena
    refine ⟨by rw [h1, hd], ?_, ?_⟩
    · rw [h1]; simp only [MAXLEN] at *; omega
    · simp [h1, CodeTree.code_ne_nil hw, h]

theorem codeOf_eq {s : State} (hc : Consistent s) {t : CodeTree} (ht : TreeAt s t) {c : Sym} {w : BitStr}
    (hw : (c, w) ∈ t.codes) : codeOf s c = w := by simp [codeOf, derive_code hc ht hw]

/-! ### The memoised lookup (R101) -/

/-- Every valid entry of `code` holds the code of its symbol (R28 clause 6). -/
def Memo (s : State) (code : Table BitStr) : Prop := ∀ c w, codeAt code c = some w → codeOf s c = w

theorem Consistent.memo {s : State} (hc : Consistent s) : Memo s s.code := fun c w h => by
  have := (hc.cache c w h).2
  simp [codeOf, this]

/-- What CODE holds after the symbols `ss` have been looked up. -/
def filled (s : State) (code : Table BitStr) (ss : List Sym) (c : Sym) : Option BitStr :=
  (codeAt code c).or (if c ∈ ss ∧ codeOf s c ≠ [] ∧ s.frozen = false then some (codeOf s c) else none)

theorem getcode_spec {s : State} (hc : Consistent s) {code : Table BitStr} (hm : Memo s code) (c : Sym) :
    ∃ code', getcode s code c = .ok (codeOf s c, code') ∧ Memo s code' ∧
      (∀ u, codeAt code' u = filled s code [c] u) ∧
      (Table.wf (fun w => w.isEmpty) code = true → Table.wf (fun w => w.isEmpty) code' = true) := by
  unfold getcode filled
  cases h : codeAt code c with
  | some w =>
    refine ⟨code, by simp [hm c w h], hm, fun u => ?_, id⟩
    by_cases hu : u = c
    · subst hu; simp [h]
    · simp [hu]
  | none =>
    rw [(derive_total hc c).1]
    by_cases hw : codeOf s c = [] ∨ s.frozen = true
    · refine ⟨code, by rcases hw with hw | hw <;> simp [hw], hm, fun u => ?_, id⟩
      by_cases hu : u = c
      · subst hu; rcases hw with hw | hw <;> simp [hw, h]
      · simp [hu]
    · simp only [not_or, Bool.not_eq_true] at hw
      refine ⟨setCode code c (codeOf s c), by simp [hw], ?_, fun u => ?_, fun h => ?_⟩
      · intro u w hu
        rw [codeAt_setCode] at hu
        split at hu
        · subst_vars; simpa using hu
        · exact hm u w hu
      · rw [codeAt_setCode]
        by_cases hu : c = u
        · subst hu; simp [hw, h]
        · simp [hu, Ne.symm hu, Ne.symm (Ne.symm hu), fun e : u = c => hu e.symm]
      · exact setCode_wf _ _ _ h (by simp [hw.1])

/-- `for s in ss: getcode(s)` in a consistent state. -/
theorem getcodes_spec {s : State} (hc : Consistent s) (ss : List Sym) {code : Table BitStr}
    (hm : Memo s code) :
    ∃ code', getcodes s ss code = .ok (ss.map fun c => (c, codeOf s c), code') ∧ Memo s code' ∧
      (∀ u, codeAt code' u = filled s code ss u) ∧
      (Table.wf (fun w => w.isEmpty) code = true → Table.wf (fun w => w.isEmpty) code' = true) := by
  induction ss generalizing code with
  | nil => exact ⟨code, rfl, hm, by simp [filled], id⟩
  | cons c ss ih =>
    obtain ⟨code1, h1, hm1, hf1, hw1⟩ := getcode_spec hc hm c
    obtain ⟨code2, h2, hm2, hf2, hw2⟩ := ih hm1
    refine ⟨code2, by simp [getcodes, h1, h2], hm2, fun u => ?_, hw2 ∘ hw1⟩
    rw [hf2, filled, hf1, filled, filled, Option.or_assoc]
    congr 1
    by_cases hu : u = c
    · subst hu
      by_cases hx : codeOf s u ≠ [] ∧ s.frozen = false <;> simp [hx]
    · simp [hu]

theorem nodup_allSyms : allSyms.Nodup := by
  refine List.Nodup.map_on ?_ List.nodup_range
  intro a ha b hb e
  have := congrArg BitVec.toNat e
  simp only [List.mem_range, BitVec.toNat_ofNat] at *
  omega

theorem mem_allSyms (c : Sym) : c ∈ allSyms := by
  simp only [allSyms, List.mem_map, List.mem_range]
  exact ⟨c.toNat, c.isLt, by simp⟩

end Sys2Proof.Machine
end

