-- ==== Sys2Proof/Laws/Build.lean ====
section
/-! SUPPORT. What BUILD makes (41_tree_builder.md R90 to R96). -/

namespace Sys2Proof.Machine

/-! ### The queue order (R92) -/

theorem Queued.before_iff (a b : Queued) : a.before b = true ↔
    a.weight.toNat < b.weight.toNat ∨ (a.weight.toNat = b.weight.toNat ∧ a.idx.toNat < b.idx.toNat) := by
  simp only [Queued.before, Bool.or_eq_true, Bool.and_eq_true, decide_eq_true_eq, BitVec.lt_def]
  constructor
  · rintro (h | ⟨h1, h2⟩)
    · exact .inl h
    · exact .inr ⟨congrArg _ h1, h2⟩
  · rintro (h | ⟨h1, h2⟩)
    · exact .inl h
    · exact .inr ⟨BitVec.eq_of_toNat_eq h1, h2⟩

theorem Queued.before_trans {a b c : Queued} (h1 : a.before b = true) (h2 : b.before c = true) :
    a.before c = true := by
  rw [Queued.before_iff] at *; omega

theorem Queued.not_before_of_before {a b : Queued} (h : a.before b = true) : ¬ b.before a = true := by
  rw [Queued.before_iff] at *; omega

theorem Queued.before_of_not {a b : Queued} (h : ¬ b.before a = true) (hne : a.idx ≠ b.idx) :
    a.before b = true := by
  have : a.idx.toNat ≠ b.idx.toNat := fun e => hne (BitVec.eq_of_toNat_eq e)
  rw [Queued.before_iff] at *; omega

theorem extractMin_none {pq : List Queued} : extractMin pq = none ↔ pq = [] := by
  cases pq with
  | nil => simp [extractMin]
  | cons e pq =>
    simp only [extractMin]
    cases extractMin pq with
    | none => simp
    | some r => simp only; split <;> simp

/-- `extract_min` removes one element, and none of the others comes before it (R92). -/
theorem extractMin_some {pq rest : List Queued} {m : Queued} (h : extractMin pq = some (m, rest)) :
    pq.Perm (m :: rest) ∧ ∀ e ∈ rest, ¬ e.before m = true := by
  induction pq generalizing m rest with
  | nil => simp [extractMin] at h
  | cons e pq ih =>
    simp only [extractMin] at h
    cases h1 : extractMin pq with
    | none =>
      simp only [h1, Option.some.injEq, Prod.mk.injEq] at h
      obtain ⟨rfl, rfl⟩ := h
      rw [extractMin_none.1 h1]
      simp
    | some r =>
      obtain ⟨m', rest'⟩ := r
      obtain ⟨hp, hl⟩ := ih h1
      simp only [h1] at h
      split at h
      · rename_i hb
        simp only [Option.some.injEq, Prod.mk.injEq] at h
        obtain ⟨rfl, rfl⟩ := h
        refine ⟨List.Perm.refl _, fun x hx hxe => ?_⟩
        rcases List.mem_cons.1 (hp.mem_iff.1 hx) with rfl | hx
        · exact Queued.not_before_of_before hb hxe
        · exact hl x hx (Queued.before_trans hxe hb)
      · rename_i hb
        simp only [Option.some.injEq, Prod.mk.injEq] at h
        obtain ⟨rfl, rfl⟩ := h
        refine ⟨(hp.cons e).trans (List.Perm.swap ..), fun x hx => ?_⟩
        rcases List.mem_cons.1 hx with rfl | hx
        · exact hb
        · exact hl x hx

/-! ### The leaf loop (R91) -/

theorem presentCount_eq (freq : Table Freq) : presentCount freq = (presentSyms freq).length := rfl

/-- The leaf entry of a symbol (R90). -/
def leafNode (freq : Table Freq) (c : Sym) : Node :=
  { weight := (freqAt freq c).setWidth 40, symbol := c, left := NIL, right := NIL, parent := NIL }

/-- The queue elements of the leaves `cs`, at entries from `a` on. -/
def leafQueue (freq : Table Freq) : Nat → List Sym → List Queued
  | _, [] => []
  | a, c :: cs => ⟨(freqAt freq c).setWidth 40, BitVec.ofNat 9 a⟩ :: leafQueue freq (a + 1) cs

theorem leafQueue_length (freq : Table Freq) (a : Nat) (cs : List Sym) :
    (leafQueue freq a cs).length = cs.length := by
  induction cs generalizing a with
  | nil => rfl
  | cons c cs ih => simp [leafQueue, ih]

theorem mem_leafQueue {freq : Table Freq} {a : Nat} {cs : List Sym} {q : Queued}
    (h : q ∈ leafQueue freq a cs) :
    ∃ j c, cs[j]? = some c ∧ q.idx = BitVec.ofNat 9 (a + j) ∧ q.weight = (freqAt freq c).setWidth 40 := by
  induction cs generalizing a with
  | nil => simp [leafQueue] at h
  | cons c cs ih =>
    simp only [leafQueue, List.mem_cons] at h
    rcases h with rfl | h
    · exact ⟨0, c, rfl, rfl, rfl⟩
    · obtain ⟨j, d, h1, h2, h3⟩ := ih h
      exact ⟨j + 1, d, by simpa using h1, by rw [h2]; congr 1; omega, h3⟩

theorem leafQueue_idx (freq : Table Freq) (a : Nat) (cs : List Sym) :
    (leafQueue freq a cs).map Queued.idx = (List.range' a cs.length).map (BitVec.ofNat 9) := by
  induction cs generalizing a with
  | nil => rfl
  | cons c cs ih => simp [leafQueue, ih, List.range'_succ]

/-- What the leaf loop has written after the symbols `ss`. -/
theorem foldl_addLeaf (freq : Table Freq) (ss : List Sym) (b : Leaves) (hn : ss.Nodup)
    (hroom : b.node.length + (ss.filter fun s => decide (freqAt freq s ≠ 0)).length ≤ NNODE) :
    let cs := ss.filter fun s => decide (freqAt freq s ≠ 0)
    let r := ss.foldl (addLeaf freq) b
    r.node = b.node ++ cs.map (leafNode freq) ∧
      r.pq = (leafQueue freq b.node.length cs).reverse ++ b.pq ∧
      (∀ c, c ∉ cs → symidxAt r.symidx c = symidxAt b.symidx c) ∧
      (∀ j c, cs[j]? = some c → symidxAt r.symidx c = BitVec.ofNat 9 (b.node.length + j)) ∧
      (Table.wf (fun i => decide (i = NIL)) b.symidx = true →
        Table.wf (fun i => decide (i = NIL)) r.symidx = true) := by
  induction ss generalizing b with
  | nil => simp [leafQueue]
  | cons s ss ih =>
    obtain ⟨hs, hn⟩ := List.nodup_cons.1 hn
    by_cases hf : freqAt freq s = 0
    · have e : addLeaf freq b s = b := by simp [addLeaf, hf]
      simp only [hf, ne_eq, not_true_eq_false, decide_false, Bool.false_eq_true, not_false_eq_true,
        List.filter_cons_of_neg, List.foldl_cons, e] at hroom ⊢
      exact ih b hn hroom
    · simp only [ne_eq, hf, not_false_eq_true, decide_true, List.filter_cons_of_pos, List.foldl_cons,
        List.length_cons] at hroom ⊢
      generalize hb' : addLeaf freq b s = b'
      have e : b' = ⟨b.node ++ [leafNode freq s], setSymidx b.symidx s (nextIdx b.node),
          ⟨(freqAt freq s).setWidth 40, nextIdx b.node⟩ :: b.pq⟩ := by
        rw [← hb', addLeaf, if_neg hf]; rfl
      have hlen : b'.node.length = b.node.length + 1 := by rw [e]; simp
      obtain ⟨h1, h2, h3, h4, h5⟩ := ih b' hn (by rw [hlen]; simp only [ne_eq]; omega)
      simp only [ne_eq] at h1 h2 h3 h4 h5
      rw [hlen] at h2 h4
      have hnotin : s ∉ ss.filter fun s => decide ¬freqAt freq s = 0 := fun h => hs (List.mem_of_mem_filter h)
      refine ⟨?_, ?_, ?_, ?_, ?_⟩
      · rw [h1, e]; simp
      · rw [h2, e]; simp [leafQueue, nextIdx]
      · intro c hc
        simp only [List.mem_cons, not_or] at hc
        rw [h3 c hc.2, e]
        simp [Ne.symm hc.1]
      · intro j c hj
        cases j with
        | zero =>
          simp only [List.getElem?_cons_zero, Option.some.injEq] at hj
          subst hj
          rw [h3 s hnotin, e]
          simp [nextIdx]
        | succ j =>
          simp only [List.getElem?_cons_succ] at hj
          rw [h4 j c hj]; congr 1; omega
      · intro hw
        apply h5
        rw [e]; exact setSymidx_wf _ _ _ hw

/-! ### The merge loop (R92, R93) -/

/-- The arena after a merge, entry by entry. -/
theorem nodeAt_mergeNode {ns : List Node} {a b : Queued} (hroom : ns.length < NNODE)
    (ha : a.idx.toNat < ns.length) (hb : b.idx.toNat < ns.length) (hab : a.idx ≠ b.idx) (j : Idx) :
    nodeAt (mergeNode ns a b) j =
      if j = nextIdx ns then some ⟨a.weight + b.weight, 0, a.idx, b.idx, NIL⟩
      else if j = a.idx ∨ j = b.idx then (nodeAt ns j).map fun n => { n with parent := nextIdx ns }
      else nodeAt ns j := by
  have hi := nextIdx_toNat hroom
  unfold mergeNode
  simp only [nodeAt_setParent]
  by_cases hj : j = nextIdx ns
  · subst hj
    have h1 : ¬ b.idx = nextIdx ns := by rintro h; rw [h] at hb; omega
    have h2 : ¬ a.idx = nextIdx ns := by rintro h; rw [h] at ha; omega
    simp [h1, h2, nodeAt_nextIdx hroom]
  · rw [if_neg hj]
    have happ : nodeAt (ns ++ [⟨a.weight + b.weight, 0, a.idx, b.idx, NIL⟩]) j = nodeAt ns j := by
      by_cases hlt : j.toNat < ns.length
      · exact nodeAt_append_left hlt
      · have hne : j.toNat ≠ ns.length := fun e => hj (BitVec.eq_of_toNat_eq (by omega))
        have h1 : nodeAt ns j = none := by
          cases h : nodeAt ns j with
          | none => rfl
          | some n => exact absurd (lt_of_nodeAt h) hlt
        rw [h1]
        cases h : nodeAt (ns ++ [⟨a.weight + b.weight, 0, a.idx, b.idx, NIL⟩]) j with
        | none => rfl
        | some n => have := lt_of_nodeAt h; simp at this; omega
    rw [happ]
    by_cases h1 : a.idx = j
    · subst h1; simp [Ne.symm hab]
    · by_cases h2 : b.idx = j
      · subst h2; simp [h1]
      · simp [h1, h2, Ne.symm h1, Ne.symm h2, fun e : j = a.idx => h1 e.symm, fun e : j = b.idx => h2 e.symm]

@[simp] theorem mergeNode_length (ns : List Node) (a b : Queued) :
    (mergeNode ns a b).length = ns.length + 1 := by simp [mergeNode]

/-- The merge loop's invariant: the queue holds the parentless entries with their weights, each the root of
a tree, the trees covering the arena; every entry from `k0` on was made by a merge. -/
structure Merging (k0 sum : Nat) (ns : List Node) (pq : List Queued) (T : Idx → CodeTree)
    (I : Idx → List Idx) : Prop where
  held : ∀ q ∈ pq, Holds ns NIL q.idx (T q.idx) (I q.idx)
  weight : ∀ q ∈ pq, ∃ n, nodeAt ns q.idx = some n ∧ n.weight = q.weight
  nodup : (pq.flatMap fun q => I q.idx).Nodup
  cover : (pq.flatMap fun q => I q.idx).length = ns.length
  queued : ∀ j n, nodeAt ns j = some n → n.parent = NIL → ∃ q ∈ pq, q.idx = j
  parents : ∀ j n, nodeAt ns j = some n → n.parent = NIL ∨ n.parent.toNat < ns.length
  merged : ∀ i n, k0 ≤ i.toNat → nodeAt ns i = some n → Merged ns i n
  total : (pq.map fun q => q.weight.toNat).sum = sum
  small : sum < 2 ^ 40

/-- An older arena inside a newer one: the same entries, but for parent links. -/
def Extends (ns ms : List Node) : Prop :=
  ∀ j n, nodeAt ns j = some n → ∃ p, nodeAt ms j = some { n with parent := p }

theorem Extends.refl (ns : List Node) : Extends ns ns := fun _ n h => ⟨n.parent, h⟩

theorem Extends.trans {a b c : List Node} (h1 : Extends a b) (h2 : Extends b c) : Extends a c := by
  intro j n h
  obtain ⟨p, hp⟩ := h1 j n h
  obtain ⟨q, hq⟩ := h2 j _ hp
  exact ⟨q, by simpa using hq⟩

theorem Merging.perm {k0 sum : Nat} {ns : List Node} {pq pq' : List Queued} {T : Idx → CodeTree}
    {I : Idx → List Idx} (h : Merging k0 sum ns pq T I) (hp : pq.Perm pq') : Merging k0 sum ns pq' T I where
  held := fun q hq => h.held q (hp.mem_iff.2 hq)
  weight := fun q hq => h.weight q (hp.mem_iff.2 hq)
  nodup := (hp.flatMap_right _).nodup_iff.1 h.nodup
  cover := by rw [← (hp.flatMap_right _).length_eq, h.cover]
  queued := fun j n hn hnp => by
    obtain ⟨q, hq, e⟩ := h.queued j n hn hnp
    exact ⟨q, hp.mem_iff.1 hq, e⟩
  parents := h.parents
  merged := h.merged
  total := by rw [← (hp.map _).sum_eq, h.total]
  small := h.small

theorem mergeNode_extends {ns : List Node} {a b : Queued} (hroom : ns.length < NNODE)
    (ha : a.idx.toNat < ns.length) (hb : b.idx.toNat < ns.length) (hab : a.idx ≠ b.idx) :
    Extends ns (mergeNode ns a b) := by
  intro j n hn
  rw [nodeAt_mergeNode hroom ha hb hab, if_neg]
  · split
    · exact ⟨nextIdx ns, by rw [hn]; rfl⟩
    · exact ⟨n.parent, hn⟩
  · rintro rfl
    have := lt_of_nodeAt hn
    rw [nextIdx_toNat hroom] at this; omega

/-- One merge keeps the invariant. -/
theorem Merging.merge {k0 sum : Nat} {ns : List Node} {a b : Queued} {pq : List Queued}
    {T : Idx → CodeTree} {I : Idx → List Idx} (h : Merging k0 sum ns (a :: b :: pq) T I)
    (hroom : ns.length < NNODE) (hab : a.before b = true)
    (hleast : ∀ e ∈ pq, b.before e = true) :
    Merging k0 sum (mergeNode ns a b) (⟨a.weight + b.weight, nextIdx ns⟩ :: pq)
      (Function.update T (nextIdx ns) (.fork (T a.idx) (T b.idx)))
      (Function.update I (nextIdx ns) (nextIdx ns :: (I a.idx ++ I b.idx))) := by
  have hi := nextIdx_toNat hroom
  have hiN := nextIdx_ne_NIL hroom
  obtain ⟨na, hna, hwa⟩ := h.weight a (by simp)
  obtain ⟨nb, hnb, hwb⟩ := h.weight b (by simp)
  have hla := lt_of_nodeAt hna
  have hlb := lt_of_nodeAt hnb
  have hHa := h.held a (by simp)
  have hHb := h.held b (by simp)
  have hnd := h.nodup
  simp only [List.flatMap_cons, List.nodup_append, List.mem_append] at hnd
  obtain ⟨hndA, ⟨hndB, hndR, hdBR⟩, hdA⟩ := hnd
  have hne : a.idx ≠ b.idx := hdA _ hHa.mem_root _ (.inl hHb.mem_root)
  have hat := nodeAt_mergeNode hroom hla hlb hne
  have hext := mergeNode_extends hroom hla hlb hne
  have hlt : ∀ q ∈ pq, q.idx ≠ nextIdx ns := by
    intro q hq e
    obtain ⟨n, hn, -⟩ := h.weight q (by simp [hq])
    have := lt_of_nodeAt hn
    rw [e, hi] at this; omega
  have hItail : ∀ q ∈ pq, Function.update I (nextIdx ns) (nextIdx ns :: (I a.idx ++ I b.idx)) q.idx = I q.idx :=
    fun q hq => Function.update_of_ne (hlt q hq) _ _
  have hinI : ∀ q ∈ a :: b :: pq, ∀ j ∈ I q.idx, j ≠ nextIdx ns := by
    intro q hq j hj e
    obtain ⟨n, hn⟩ := (h.held q hq).at_mem hj
    have := lt_of_nodeAt hn
    rw [e, hi] at this; omega
  have hflat : (pq.flatMap fun q => Function.update I (nextIdx ns) (nextIdx ns :: (I a.idx ++ I b.idx)) q.idx) =
      pq.flatMap fun q => I q.idx := by
    have key : ∀ l : List Queued, (∀ q ∈ l, q.idx ≠ nextIdx ns) →
        (l.flatMap fun q => Function.update I (nextIdx ns) (nextIdx ns :: (I a.idx ++ I b.idx)) q.idx) =
          l.flatMap fun q => I q.idx := by
      intro l hl
      induction l with
      | nil => rfl
      | cons x l ih =>
        simp only [List.flatMap_cons]
        rw [Function.update_of_ne (hl x (by simp)), ih fun q hq => hl q (by simp [hq])]
    exact key pq hlt
  have hpa : na.parent = NIL := by
    obtain ⟨n, rest, hn, hp, -⟩ := hHa.root
    rw [hna] at hn; obtain rfl := Option.some.inj hn; exact hp
  have hpb : nb.parent = NIL := by
    obtain ⟨n, rest, hn, hp, -⟩ := hHb.root
    rw [hnb] at hn; obtain rfl := Option.some.inj hn; exact hp
  -- what is available when the new entry is made
  have hata : nodeAt (mergeNode ns a b) a.idx = some { na with parent := nextIdx ns } := by
    rw [hat, if_neg (hinI a (by simp) _ hHa.mem_root)]; simp [hna]
  have hatb : nodeAt (mergeNode ns a b) b.idx = some { nb with parent := nextIdx ns } := by
    rw [hat, if_neg (hinI b (by simp) _ hHb.mem_root)]; simp [hnb]
  have hsum := h.total
  simp only [List.map_cons, List.sum_cons] at hsum
  have hsmall := h.small
  have hexact : (a.weight + b.weight).toNat = a.weight.toNat + b.weight.toNat := by
    rw [BitVec.toNat_add]; apply Nat.mod_eq_of_lt; omega
  refine {
    held := ?_
    weight := ?_
    nodup := ?_
    cover := ?_
    queued := ?_
    parents := ?_
    merged := ?_
    total := ?_
    small := h.small }
  · intro q hq
    rcases List.mem_cons.1 hq with rfl | hq
    · simp only [Function.update_self]
      have hnew : nodeAt (mergeNode ns a b) (nextIdx ns) =
          some ⟨a.weight + b.weight, 0, a.idx, b.idx, NIL⟩ := by rw [hat]; simp
      refine .fork hnew rfl ?_ ?_
      · refine hHa.reparent hndA (q := nextIdx ns) (by rw [hata, hna]; rfl) fun j hj hja => ?_
        rw [hat, if_neg (hinI a (by simp) j hj), if_neg]
        rintro (e | e)
        · exact hja e
        · exact hdA j hj _ (.inl hHb.mem_root) e
      · refine hHb.reparent hndB (q := nextIdx ns) (by rw [hatb, hnb]; rfl) fun j hj hjb => ?_
        rw [hat, if_neg (hinI b (by simp) j hj), if_neg]
        rintro (e | e)
        · exact hdA _ hHa.mem_root j (.inl hj) e.symm
        · exact hjb e
    · have hq' : q ∈ a :: b :: pq := by simp [hq]
      rw [Function.update_of_ne (hlt q hq), hItail q hq]
      refine (h.held q hq').congr fun j hj => ?_
      rw [hat, if_neg (hinI q hq' j hj), if_neg]
      have hjR : j ∈ pq.flatMap fun q => I q.idx := List.mem_flatMap.2 ⟨q, hq, hj⟩
      rintro (e | e)
      · exact hdA _ hHa.mem_root j (.inr hjR) e.symm
      · exact hdBR _ hHb.mem_root j hjR e.symm
  · intro q hq
    rcases List.mem_cons.1 hq with rfl | hq
    · exact ⟨⟨a.weight + b.weight, 0, a.idx, b.idx, NIL⟩, (hat _).trans (if_pos rfl), rfl⟩
    · obtain ⟨n, hn, hw⟩ := h.weight q (by simp [hq])
      obtain ⟨p, hp⟩ := hext _ n hn
      exact ⟨_, hp, hw⟩
  · simp only [List.flatMap_cons, Function.update_self, hflat, List.nodup_append, List.nodup_cons,
      List.mem_append, List.cons_append]
    refine ⟨?_, ⟨hndA, hndB, fun x hx y hy => hdA x hx y (.inl hy)⟩, hndR, ?_⟩
    · rintro ((hx | hx) | hx)
      · exact hinI a (by simp) _ hx rfl
      · exact hinI b (by simp) _ hx rfl
      · obtain ⟨q, hq, hx⟩ := List.mem_flatMap.1 hx
        exact hinI q (by simp [hq]) _ hx rfl
    · rintro x (hx | hx) y hy
      · exact hdA x hx y (.inr hy)
      · exact hdBR x hx y hy
  · have := h.cover
    simp only [List.flatMap_cons, List.length_append] at this
    simp only [List.flatMap_cons, Function.update_self, hflat, List.length_append, List.length_cons,
      mergeNode_length, List.cons_append]
    omega
  · intro j n hn hnp
    rw [hat] at hn
    split at hn
    · exact ⟨_, List.mem_cons_self .., by simp_all⟩
    · split at hn
      · cases hj : nodeAt ns j with
        | none => simp [hj] at hn
        | some m =>
          rw [hj] at hn
          obtain rfl := Option.some.inj hn
          exact absurd hnp hiN
      · rename_i h1 h2
        obtain ⟨q, hq, e⟩ := h.queued j n hn hnp
        simp only [not_or] at h2
        rcases List.mem_cons.1 hq with rfl | hq
        · exact absurd e.symm h2.1
        · rcases List.mem_cons.1 hq with rfl | hq
          · exact absurd e.symm h2.2
          · exact ⟨q, by simp [hq], e⟩
  · intro j n hn
    rw [mergeNode_length]
    rw [hat] at hn
    split at hn
    · obtain rfl := Option.some.inj hn; exact .inl rfl
    · split at hn
      · cases hj : nodeAt ns j with
        | none => simp [hj] at hn
        | some m =>
          rw [hj] at hn
          obtain rfl := Option.some.inj hn
          exact .inr (by simp only; omega)
      · exact (h.parents j n hn).imp id (fun h => by omega)
  · intro i n hk hn
    by_cases hin : i = nextIdx ns
    · subst hin
      rw [hat, if_pos rfl] at hn
      obtain rfl := Option.some.inj hn
      refine ⟨rfl, ne_NIL_of_nodeAt hna, ne_NIL_of_nodeAt hnb, _, _, ⟨hata, by simp only; omega, .inr (by simp)⟩,
        ⟨hatb, by simp only; omega, .inr (by simp)⟩, ?_, ?_, ?_, ?_⟩
      · simp only [hwa, hwb]; exact hab
      · simp only [hwa, hwb]
      · simp only [hwa, hwb]; exact hexact
      · rintro j m ⟨hjm, hji, hjp⟩ hjl hjr
        simp only at hjl hjr
        rw [hat, if_neg (by rintro rfl; omega), if_neg (by rintro (e | e) <;> contradiction)] at hjm
        have hnil : m.parent = NIL := by
          rcases hjp with hjp | hjp
          · exact hjp
          · rcases h.parents j m hjm with hp | hp
            · exact hp
            · omega
        obtain ⟨q, hq, rfl⟩ := h.queued j m hjm hnil
        rcases List.mem_cons.1 hq with rfl | hq
        · exact absurd rfl hjl
        · rcases List.mem_cons.1 hq with rfl | hq
          · exact absurd rfl hjr
          · obtain ⟨n, hn, hw⟩ := h.weight q (by simp [hq])
            rw [hjm] at hn
            obtain rfl := Option.some.inj hn
            simp only [hwb, hw]
            exact hleast q hq
    · -- an older merge: what was available to it is as before
      have hold : ∃ n0, nodeAt ns i = some n0 ∧ n.symbol = n0.symbol ∧ n.left = n0.left ∧ n.right = n0.right ∧
          n.weight = n0.weight := by
        rw [hat, if_neg hin] at hn
        split at hn
        · cases hj : nodeAt ns i with
          | none => simp [hj] at hn
          | some m =>
            rw [hj] at hn
            obtain rfl := Option.some.inj hn
            exact ⟨m, rfl, rfl, rfl, rfl, rfl⟩
        · exact ⟨n, hn, rfl, rfl, rfl, rfl⟩
      obtain ⟨n0, hn0, e1, e2, e3, e4⟩ := hold
      have hi0 := lt_of_nodeAt hn0
      obtain ⟨m1, m2, m3, l, r, al, ar, hbef, hw, hwx, hmin⟩ := h.merged i n0 hk hn0
      have hfwd : ∀ j m, Available ns i j m → ∃ m', Available (mergeNode ns a b) i j m' ∧ m'.weight = m.weight := by
        rintro j m ⟨hj, hji, hjp⟩
        rw [Available] at *
        by_cases hjab : j = a.idx ∨ j = b.idx
        · refine ⟨{ m with parent := nextIdx ns }, ⟨?_, hji, .inr ?_⟩, rfl⟩
          · rw [hat, if_neg (by rintro rfl; omega), if_pos hjab, hj]; rfl
          · simp only; omega
        · refine ⟨m, ⟨?_, hji, hjp⟩, rfl⟩
          rw [hat, if_neg (by rintro rfl; omega), if_neg hjab, hj]
      have hbwd : ∀ j m', Available (mergeNode ns a b) i j m' → ∃ m, Available ns i j m ∧ m'.weight = m.weight := by
        rintro j m' ⟨hj, hji, hjp⟩
        rw [hat, if_neg (by rintro rfl; omega)] at hj
        split at hj
        · rename_i hjab
          cases hjm : nodeAt ns j with
          | none => simp [hjm] at hj
          | some m =>
            rw [hjm] at hj
            obtain rfl := Option.some.inj hj
            refine ⟨m, ⟨hjm, hji, .inl ?_⟩, rfl⟩
            rcases hjab with rfl | rfl
            · rw [hna] at hjm; obtain rfl := Option.some.inj hjm; exact hpa
            · rw [hnb] at hjm; obtain rfl := Option.some.inj hjm; exact hpb
        · exact ⟨m', ⟨hj, hji, hjp⟩, rfl⟩
      obtain ⟨l', al', hl'⟩ := hfwd _ _ al
      obtain ⟨r', ar', hr'⟩ := hfwd _ _ ar
      refine ⟨e1.trans m1, e2 ▸ m2, e3 ▸ m3, l', r', e2 ▸ al', e3 ▸ ar', ?_, ?_, ?_, ?_⟩
      · rw [hl', hr', e2, e3]; exact hbef
      · rw [hl', hr', e4]; exact hw
      · rw [hl', hr', e4]; exact hwx
      · intro j m' hj hjl hjr
        obtain ⟨m, hm, hmw⟩ := hbwd j m' hj
        rw [hmw, hr', e3]
        exact hmin j m hm (e2 ▸ hjl) (e3 ▸ hjr)
  · simp only [List.map_cons, List.sum_cons, hexact]; omega

/-- What the merge loop leaves. -/
structure Built (k0 sum : Nat) (ns : List Node) (pq : List Queued) (ms : List Node) (root : Idx) : Prop where
  held : ∃ t is, Holds ms NIL root t is ∧ is.Nodup ∧ is.length = ms.length
  length : ms.length + 1 = ns.length + pq.length
  last : 2 ≤ pq.length → root.toNat + 1 = ms.length
  only : ∀ q, pq = [q] → root = q.idx ∧ ms = ns
  ext : Extends ns ms
  merged : ∀ i n, k0 ≤ i.toNat → nodeAt ms i = some n → Merged ms i n
  weight : ∃ n, nodeAt ms root = some n ∧ n.weight.toNat = sum

/-- The merge loop, in one statement. -/
theorem mergeAll_spec (k : Nat) {k0 sum : Nat} {ns : List Node} {pq : List Queued} {T : Idx → CodeTree}
    {I : Idx → List Idx} (h : Merging k0 sum ns pq T I) (hk : pq.length ≤ k) (hne : pq ≠ [])
    (hroom : ns.length + pq.length ≤ NNODE + 1) :
    ∃ ms root, mergeAll k ns pq = (ms, root) ∧ Built k0 sum ns pq ms root := by
  induction k generalizing ns pq T I with
  | zero => simp at hk; exact absurd hk hne
  | succ k ih =>
    unfold mergeAll
    cases h1 : extractMin pq with
    | none => exact absurd (extractMin_none.1 h1) hne
    | some e =>
      obtain ⟨a, pq1⟩ := e
      obtain ⟨p1, l1⟩ := extractMin_some h1
      cases h2 : extractMin pq1 with
      | none =>
        obtain rfl := extractMin_none.1 h2
        have hpq : pq = [a] := List.perm_singleton.1 p1
        subst hpq
        refine ⟨ns, a.idx, rfl, ?_⟩
        obtain ⟨n, hn, hw⟩ := h.weight a (by simp)
        refine {
          held := ⟨T a.idx, I a.idx, h.held a (by simp), by simpa using h.nodup, by simpa using h.cover⟩
          length := by simp
          last := fun h => by simp at h
          only := fun q hq => ⟨by rw [List.singleton_inj.1 hq], rfl⟩
          ext := Extends.refl ns
          merged := h.merged
          weight := ⟨n, hn, by rw [hw]; simpa using h.total⟩ }
      | some e =>
        obtain ⟨b, pq2⟩ := e
        obtain ⟨p2, l2⟩ := extractMin_some h2
        have p3 : pq.Perm (a :: b :: pq2) := p1.trans (p2.cons a)
        have hm := h.perm p3
        have hlen := p3.length_eq
        simp only [List.length_cons] at hlen
        have hlt : ns.length < NNODE := by omega
        -- distinct queue elements have distinct indices
        have hnd := hm.nodup
        simp only [List.flatMap_cons, List.nodup_append, List.mem_append] at hnd
        obtain ⟨-, ⟨-, -, hdBR⟩, hdA⟩ := hnd
        have hHa := hm.held a (by simp)
        have hHb := hm.held b (by simp)
        have hne1 : a.idx ≠ b.idx := hdA _ hHa.mem_root _ (.inl hHb.mem_root)
        have hab : a.before b = true :=
          Queued.before_of_not (l1 b (p2.mem_iff.2 (by simp))) hne1
        have hleast : ∀ e ∈ pq2, b.before e = true := by
          intro e he
          refine Queued.before_of_not (l2 e he) ?_
          exact hdBR _ hHb.mem_root _ (List.mem_flatMap.2 ⟨e, he, (hm.held e (by simp [he])).mem_root⟩)
        have hm' := hm.merge hlt hab hleast
        obtain ⟨ms, root, e, hb⟩ := ih hm' (by simp only [List.length_cons]; omega) (by simp)
          (by simp only [List.length_cons, mergeNode_length]; omega)
        refine ⟨ms, root, by simpa [h2] using e, ?_⟩
        obtain ⟨na, hna, -⟩ := hm.weight a (by simp)
        obtain ⟨nb, hnb, -⟩ := hm.weight b (by simp)
        have hblen := hb.length
        simp only [List.length_cons, mergeNode_length] at hblen
        refine {
          held := hb.held
          length := by omega
          last := fun _ => ?_
          only := fun q hq => by rw [hq] at hlen; simp at hlen
          ext := (mergeNode_extends hlt (lt_of_nodeAt hna) (lt_of_nodeAt hnb) hne1).trans hb.ext
          merged := hb.merged
          weight := hb.weight }
        by_cases hpq2 : pq2 = []
        · subst hpq2
          obtain ⟨h3, -⟩ := hb.only _ rfl
          rw [h3]; simp only [nextIdx_toNat hlt]
          simp only [List.length_nil] at hblen; omega
        · have : 0 < pq2.length := List.length_pos_of_ne_nil hpq2
          exact hb.last (by simp only [List.length_cons]; omega)


/-! ### The whole of BUILD (R90) -/

theorem presentSyms_nodup (freq : Table Freq) : (presentSyms freq).Nodup := nodup_allSyms.filter _

theorem mem_presentSyms {freq : Table Freq} {c : Sym} : c ∈ presentSyms freq ↔ freqAt freq c ≠ 0 := by
  simp [presentSyms, mem_allSyms]

theorem presentSyms_length (freq : Table Freq) : (presentSyms freq).length ≤ 256 := by
  have h1 : (presentSyms freq).length ≤ allSyms.length := List.length_filter_le ..
  have h2 : allSyms.length = 256 := by simp [allSyms]
  omega

theorem leafQueue_weight_sum (freq : Table Freq) (a : Nat) (cs : List Sym) :
    ((leafQueue freq a cs).map fun q => q.weight.toNat).sum ≤ cs.length * (2 ^ 32 - 1) := by
  induction cs generalizing a with
  | nil => simp [leafQueue]
  | cons c cs ih =>
    have := ih (a + 1)
    have h : ((freqAt freq c).setWidth 40).toNat ≤ 2 ^ 32 - 1 := by
      have := (freqAt freq c).isLt
      simp only [BitVec.toNat_setWidth]; omega
    simp only [leafQueue, List.map_cons, List.sum_cons, List.length_cons]
    omega

theorem nodeAt_eq_some (ns : List Node) (i : Idx) (n : Node) :
    nodeAt ns i = some n ↔ i ≠ NIL ∧ ns[i.toNat]? = some n := by
  unfold nodeAt; split <;> simp_all

/-- The leaf loop leaves the merge loop's invariant. -/
theorem merging_leaves (freq : Table Freq) (cs : List Sym) (hl : cs.length ≤ 256) :
    ∃ sum, Merging cs.length sum (cs.map (leafNode freq)) ((leafQueue freq 0 cs).reverse)
      (fun i => .leaf (cs[i.toNat]?.getD 0)) (fun i => [i]) := by
  have hnode : ∀ j c, cs[j]? = some c → nodeAt (cs.map (leafNode freq)) (BitVec.ofNat 9 j) =
      some (leafNode freq c) ∧ (BitVec.ofNat 9 j).toNat = j := by
    intro j c hj
    have hlt : j < cs.length := by
      by_contra h; rw [List.getElem?_eq_none (by omega)] at hj; cases hj
    have e : (BitVec.ofNat 9 j).toNat = j := by simp; omega
    refine ⟨?_, e⟩
    rw [nodeAt, if_neg (ofNat_ne_NIL (by simp only [NNODE]; omega)), e]
    simp [hj]
  have hinv : ∀ i n, nodeAt (cs.map (leafNode freq)) i = some n →
      ∃ c, cs[i.toNat]? = some c ∧ n = leafNode freq c := by
    intro i n h
    have h' := ((nodeAt_eq_some _ _ _).1 h).2
    rw [List.getElem?_map] at h'
    cases hc : cs[i.toNat]? with
    | none => simp [hc] at h'
    | some c => exact ⟨c, rfl, by simpa [hc] using h'.symm⟩
  have hI : (((leafQueue freq 0 cs).reverse).flatMap fun q => [q.idx]) =
      ((List.range' 0 cs.length).map (BitVec.ofNat 9)).reverse := by
    rw [← leafQueue_idx freq, ← List.map_reverse, List.map_eq_flatMap]
  refine ⟨_, ?_, ?_, ?_, ?_, ?_, ?_, ?_, rfl, ?_⟩
  · intro q hq
    obtain ⟨j, c, hj, hi, hw⟩ := mem_leafQueue (List.mem_reverse.1 hq)
    rw [Nat.zero_add] at hi
    obtain ⟨h1, h2⟩ := hnode j c hj
    rw [hi]
    exact .leaf h1 rfl rfl (by simp [h2, hj, leafNode])
  · intro q hq
    obtain ⟨j, c, hj, hi, hw⟩ := mem_leafQueue (List.mem_reverse.1 hq)
    rw [Nat.zero_add] at hi
    obtain ⟨h1, h2⟩ := hnode j c hj
    exact ⟨_, by rw [hi]; exact h1, hw.symm⟩
  · rw [hI, List.nodup_reverse]
    refine List.Nodup.map_on ?_ (List.nodup_range')
    intro x hx y hy e
    have := congrArg BitVec.toNat e
    simp at this hx hy; omega
  · rw [hI]; simp
  · intro j n hn _
    obtain ⟨c, hc, rfl⟩ := hinv j n hn
    have : j ∈ ((List.range' 0 cs.length).map (BitVec.ofNat 9)).reverse := by
      rw [List.mem_reverse, List.mem_map]
      have hlt := lt_of_nodeAt hn
      rw [List.length_map] at hlt
      exact ⟨j.toNat, by simp; omega, by simp⟩
    rw [← leafQueue_idx freq, ← List.map_reverse, List.mem_map] at this
    exact this
  · intro j n hn
    obtain ⟨c, hc, rfl⟩ := hinv j n hn
    exact .inl rfl
  · intro i n hk hn
    have hlt := lt_of_nodeAt hn
    rw [List.length_map] at hlt; omega
  · have := leafQueue_weight_sum freq 0 cs
    rw [List.map_reverse, List.sum_reverse]
    have h2 : cs.length * (2 ^ 32 - 1) ≤ 256 * (2 ^ 32 - 1) := Nat.mul_le_mul_right _ hl
    omega

/-- What BUILD writes, in a consistent state of phase EMPTY (R91 to R95). -/
structure BuiltFrom (s t : State) : Prop where
  same : t = (((s.withNode t.node).withSymidx t.symidx).withRoot t.root).withPhase .built
  size : t.node.length = buildSize s.freq
  leaf : ∀ j c, (presentSyms s.freq)[j]? = some c → symidxAt t.symidx c = BitVec.ofNat 9 j ∧
    ∃ n, nodeAt t.node (BitVec.ofNat 9 j) = some n ∧ n.isLeaf = true ∧ n.symbol = c ∧
      n.weight = (freqAt s.freq c).setWidth 40
  absent : ∀ c, freqAt s.freq c = 0 → symidxAt t.symidx c = NIL
  merged : ∀ i n, presentCount s.freq ≤ i.toNat → nodeAt t.node i = some n → Merged t.node i n
  noRoot : presentCount s.freq = 0 → t.root = NIL
  someRoot : presentCount s.freq ≠ 0 → t.root.toNat + 1 = t.node.length
  consistent : Consistent t
  wf : Table.wf (fun i => decide (i = NIL)) t.symidx = true

theorem buildTree_spec {s : State} (hc : Consistent s) (he : s.phase = .empty) :
    ∃ t, buildTree s = .done {} t ∧ BuiltFrom s t := by
  obtain ⟨hn, hr, hsx, hcode, hfz, htot, hpp⟩ := hc.fresh he
  have hk := presentSyms_length s.freq
  have hsz : buildSize s.freq = 2 * (presentSyms s.freq).length - 1 := rfl
  generalize hcs : presentSyms s.freq = cs at hk hsz
  have hfil : (allSyms.filter fun c => decide (freqAt s.freq c ≠ 0)) = cs := hcs
  obtain ⟨a1, a2, a3, a4, a5⟩ := foldl_addLeaf s.freq allSyms ⟨s.node, s.symidx, []⟩ nodup_allSyms
    (by rw [hfil, hn]; simp [NNODE]; omega)
  rw [hfil] at a1 a2 a3 a4
  simp only [hn, hsx, List.nil_append, List.append_nil, List.length_nil, Nat.zero_add] at a1 a2 a3 a4 a5
  have a5 := a5 rfl
  generalize hb : List.foldl (addLeaf s.freq) ⟨[], [], []⟩ allSyms = b at a1 a2 a3 a4 a5
  have hb' : addLeaves s.freq ⟨s.node, s.symidx, []⟩ = b := by rw [hn, hsx]; exact hb
  obtain ⟨sum, hmg⟩ := merging_leaves s.freq cs hk
  have hpl : b.pq.length = cs.length := by rw [a2]; simp [leafQueue_length]
  have hnl : b.node.length = cs.length := by rw [a1]; simp
  rw [← a1, ← a2] at hmg
  have hsyms : ∀ c, c ∉ cs → symidxAt b.symidx c = NIL := fun c h => by rw [a3 c h]; rfl
  have hmemcs : ∀ c, c ∈ cs ↔ freqAt s.freq c ≠ 0 := fun c => by rw [← hcs, mem_presentSyms]
  unfold buildTree
  rw [if_neg (by rw [hn, hsz]; simp [NNODE]; omega)]
  simp only [hb']
  refine ⟨_, rfl, ?_⟩
  by_cases hpq : b.pq = []
  · -- no symbol
    have hcs0 : cs = [] := by rw [hpq] at hpl; simpa using hpl.symm
    have hbn : b.node = [] := by rw [a1, hcs0]; rfl
    have e : mergeAll b.pq.length b.node b.pq = ([], NIL) := by rw [hpq, hbn]; rfl
    rw [e]
    have hz : ∀ c, symidxAt b.symidx c = NIL := fun c => hsyms c (by rw [hcs0]; simp)
    refine ⟨rfl, by simp [hsz, hcs0], fun j c h => by rw [hcs, hcs0] at h; simp at h, fun c _ => hz c,
      fun i n _ h => by simp at h, fun _ => rfl, fun h => absurd (by rw [presentCount_eq, hcs, hcs0]; rfl) h,
      ?_, a5⟩
    refine ⟨by simp, by simp, by simp, fun h => absurd rfl h, fun c i hi => ?_, fun c w h => ?_, fun h => ?_,
      by simp, by simp, by simp⟩
    · simp only [withPhase_symidx, withRoot_symidx, withSymidx_symidx, hz]
      constructor
      · intro h; exact absurd h.symm hi
      · rintro ⟨n, h, -⟩; simp at h
    · simp [hcode] at h
    · simp [hfz] at h
  · have hlt : 0 < cs.length := by rw [← hpl]; exact List.length_pos_of_ne_nil hpq
    obtain ⟨ms, root, e, hB⟩ := mergeAll_spec b.pq.length hmg (Nat.le_refl _) hpq
      (by rw [hpl, hnl]; simp [NNODE]; omega)
    rw [e]
    have hlen := hB.length
    rw [hnl, hpl] at hlen
    have hleaf : ∀ j c, cs[j]? = some c → (BitVec.ofNat 9 j).toNat = j ∧
        ∃ n, nodeAt ms (BitVec.ofNat 9 j) = some n ∧ n.isLeaf = true ∧ n.symbol = c ∧
          n.weight = (freqAt s.freq c).setWidth 40 := by
      intro j c hj
      have hjl : j < cs.length := by
        by_contra h; rw [List.getElem?_eq_none (by omega)] at hj; cases hj
      have ej : (BitVec.ofNat 9 j).toNat = j := by simp; omega
      have : nodeAt b.node (BitVec.ofNat 9 j) = some (leafNode s.freq c) := by
        rw [nodeAt_eq_some, a1]
        exact ⟨ofNat_ne_NIL (by simp only [NNODE]; omega), by rw [ej]; simp [hj]⟩
      obtain ⟨p, hp⟩ := hB.ext _ _ this
      exact ⟨ej, _, hp, rfl, rfl, rfl⟩
    have hlow : ∀ i n, nodeAt ms i = some n → i.toNat < cs.length → ∃ c, cs[i.toNat]? = some c ∧
        n.isLeaf = true ∧ n.symbol = c ∧ n.weight = (freqAt s.freq c).setWidth 40 := by
      intro i n hi hlt
      obtain ⟨-, m, hm, h1, h2, h3⟩ := hleaf i.toNat _ (List.getElem?_eq_getElem hlt)
      rw [BitVec.ofNat_toNat, BitVec.setWidth_eq] at hm
      rw [hi] at hm
      obtain rfl := Option.some.inj hm
      exact ⟨_, List.getElem?_eq_getElem hlt, h1, h2, h3⟩
    have hhigh : ∀ i n, nodeAt ms i = some n → cs.length ≤ i.toNat → n.isLeaf = false ∧ Merged ms i n := by
      intro i n hi hge
      have hm := hB.merged i n hge hi
      exact ⟨by simp [Node.isLeaf, hm.2.1], hm⟩
    obtain ⟨t, is, hH, hnd, hcov⟩ := hB.held
    obtain ⟨nr, hnr, -⟩ := hB.weight
    have hrN := ne_NIL_of_nodeAt hnr
    have hidx : ∀ n ∈ ms, ∃ i, nodeAt ms i = some n := by
      intro n hn
      obtain ⟨i, hi, rfl⟩ := List.getElem_of_mem hn
      have ei : (BitVec.ofNat 9 i).toNat = i := by simp; omega
      exact ⟨BitVec.ofNat 9 i, (nodeAt_eq_some _ _ _).2 ⟨ofNat_ne_NIL (by simp only [NNODE]; omega),
        by rw [ei]; exact List.getElem?_eq_getElem hi⟩⟩
    refine ⟨rfl, by simp only [withPhase_node, withRoot_node, withSymidx_node,
      withNode_node]; omega, ?_, ?_, ?_, ?_, ?_, ?_, a5⟩
    · intro j c hj
      rw [hcs] at hj
      exact ⟨a4 j c hj, (hleaf j c hj).2⟩
    · intro c h
      exact hsyms c (fun hm => (hmemcs c).1 hm h)
    · intro i n hk' hn'
      rw [presentCount_eq, hcs] at hk'
      exact hB.merged i n hk' hn'
    · intro h; rw [presentCount_eq, hcs] at h; omega
    · intro _
      simp only [withPhase_root, withRoot_root, withPhase_node, withRoot_node,
        withSymidx_node, withNode_node]
      by_cases h2 : 2 ≤ b.pq.length
      · exact hB.last h2
      · obtain ⟨q, hq⟩ := List.length_eq_one_iff.1 (by omega : b.pq.length = 1)
        obtain ⟨h3, h4⟩ := hB.only q hq
        have := lt_of_nodeAt hnr
        omega
    · refine ⟨by simp [NNODE]; omega, by simp, ?_, fun _ => ⟨t, is, hH, hnd, hcov⟩, ?_, fun c w h => ?_,
        fun h => ?_, fun _ => ?_, by simp, ?_⟩
      · simp only [withPhase_root, withRoot_root, withPhase_node, withRoot_node,
          withSymidx_node, withNode_node]
        constructor
        · intro h; exact absurd h hrN
        · rintro rfl; simp at hnr
      · intro c i hi
        simp only [withPhase_symidx, withRoot_symidx, withSymidx_symidx,
          withPhase_node, withRoot_node, withSymidx_node, withNode_node]
        constructor
        · rintro rfl
          have hmem : c ∈ cs := by
            by_contra h; exact hi (hsyms c h)
          obtain ⟨j, hj, hjc⟩ := List.getElem_of_mem hmem
          have hj' : cs[j]? = some c := by rw [List.getElem?_eq_getElem hj, hjc]
          rw [a4 j c hj']
          obtain ⟨-, n, h1, h2, h3, -⟩ := hleaf j c hj'
          exact ⟨n, h1, h2, h3⟩
        · rintro ⟨n, h1, h2, h3⟩
          by_cases hlt' : i.toNat < cs.length
          · obtain ⟨d, hd, -, hds, -⟩ := hlow i n h1 hlt'
            have : d = c := by rw [← hds, h3]
            subst this
            rw [a4 _ _ hd]; simp
          · obtain ⟨h4, -⟩ := hhigh i n h1 (by omega)
            rw [h4] at h2; cases h2
      · simp [hcode] at h
      · simp [hfz] at h
      · intro n hn'
        obtain ⟨i, hi⟩ := hidx n hn'
        rw [BuiltWeight]
        by_cases hlt' : i.toNat < cs.length
        · obtain ⟨d, hd, h1, h2, h3⟩ := hlow i n hi hlt'
          rw [if_pos h1]
          refine ⟨by rw [h2]; exact h3, ?_⟩
          rw [h2]
          exact (hmemcs d).1 (List.mem_of_getElem? hd)
        · obtain ⟨h4, h5⟩ := hhigh i n hi (by omega)
          rw [if_neg (by simp [h4])]
          obtain ⟨-, -, -, l, r, hl, hr', -, hw, -⟩ := h5
          exact ⟨l, r, hl.1, hr'.1, hw⟩
      · intro n hn' hnl'
        obtain ⟨i, hi⟩ := hidx n hn'
        by_cases hlt' : i.toNat < cs.length
        · obtain ⟨d, hd, h1, -⟩ := hlow i n hi hlt'
          rw [h1] at hnl'; cases hnl'
        · exact (hhigh i n hi (by omega)).2.1

end Sys2Proof.Machine
end

