-- ==== Sys2Proof/Laws/Encoding.lean ====
section
/-! SUPPORT. The command word's fields against the word assembled from them. -/

namespace Sys2Proof

@[simp] theorem opcField_assemble (o : Opc) (r : BitVec 20) (s : Sym) (n : Freq) :
    opcField (assemble o r s n) = o := by
  ext i hi
  simp only [opcField, assemble, BitVec.getElem_extractLsb', BitVec.getLsbD_append]
  have h1 : ¬ 60 + i < 40 := by omega
  have h2 : ¬ 60 + i - 40 < 20 := by omega
  have h3 : 60 + i - 40 - 20 = i := by omega
  simp [h1, h2, h3, BitVec.getLsbD_eq_getElem hi]

@[simp] theorem rsvField_assemble (o : Opc) (r : BitVec 20) (s : Sym) (n : Freq) :
    rsvField (assemble o r s n) = r := by
  ext i hi
  simp only [rsvField, assemble, BitVec.getElem_extractLsb', BitVec.getLsbD_append]
  have h1 : ¬ 40 + i < 40 := by omega
  have h2 : 40 + i - 40 < 20 := by omega
  have h3 : 40 + i - 40 = i := by omega
  simp [hi, BitVec.getLsbD_eq_getElem hi]

@[simp] theorem symField_assemble (o : Opc) (r : BitVec 20) (s : Sym) (n : Freq) :
    symField (assemble o r s n) = s := by
  ext i hi
  simp only [symField, assemble, BitVec.getElem_extractLsb', BitVec.getLsbD_append]
  have h1 : 32 + i < 40 := by omega
  have h2 : ¬ 32 + i < 32 := by omega
  have h3 : 32 + i - 32 = i := by omega
  simp [h1, BitVec.getLsbD_eq_getElem hi]

@[simp] theorem immField_assemble (o : Opc) (r : BitVec 20) (s : Sym) (n : Freq) :
    immField (assemble o r s n) = n := by
  ext i hi
  simp only [immField, assemble, BitVec.getElem_extractLsb', BitVec.getLsbD_append]
  have h1 : 0 + i < 40 := by omega
  have h2 : 0 + i < 32 := by omega
  simp [hi, BitVec.getLsbD_eq_getElem hi]
  omega

/-- A word is its four fields (30_encoding.md R60). -/
theorem assemble_fields (w : CmdWord) :
    assemble (opcField w) (rsvField w) (symField w) (immField w) = w := by
  apply BitVec.eq_of_getLsbD_eq
  intro i hi
  simp only [opcField, rsvField, symField, immField, assemble, BitVec.getLsbD_append,
    BitVec.getLsbD_extractLsb']
  by_cases h1 : i < 40
  · by_cases h2 : i < 32
    · simp [h1, h2]
    · have h3 : 32 + (i - 32) = i := by omega
      have h4 : i - 32 < 8 := by omega
      simp [h1, h2, h3, h4]
  · by_cases h2 : i - 40 < 20
    · have h3 : 40 + (i - 40) = i := by omega
      simp [h1, h2, h3]
    · have h3 : 60 + (i - 40 - 20) = i := by omega
      have h4 : i - 40 - 20 < 4 := by omega
      simp [h1, h2, h3, h4]

/-- Two words with the same fields are one word. -/
theorem word_ext {v w : CmdWord} (h1 : opcField v = opcField w) (h2 : rsvField v = rsvField w)
    (h3 : symField v = symField w) (h4 : immField v = immField w) : v = w := by
  rw [← assemble_fields v, h1, h2, h3, h4, assemble_fields]

end Sys2Proof
end

