-- ==== Sys2Proof/Laws/Parse.lean ====
section
/-! SUPPORT. What RDH's `parse` reads and makes (44_deserializer.md R120 to R124). -/

namespace Sys2Proof.Machine

/-- `n` consecutive indices from `a`. -/
def idxs (a n : Nat) : List Idx := (List.range' a n).map (BitVec.ofNat 9)

@[simp] theorem idxs_length (a n : Nat) : (idxs a n).length = n := by simp [idxs]

theorem idxs_succ (a n : Nat) : idxs a (n + 1) = BitVec.ofNat 9 a :: idxs (a + 1) n := by
  simp [idxs, List.range'_succ]

theorem idxs_append (a m n : Nat) : idxs a m ++ idxs (a + m) n = idxs a (m + n) := by
  simp [idxs, ← List.map_append]

theorem mem_idxs {a n : Nat} {j : Idx} (hb : a + n ≤ NNODE) (h : j ∈ idxs a n) :
    a ≤ j.toNat ∧ j.toNat < a + n := by
  obtain ⟨x, hx, rfl⟩ := List.mem_map.1 h
  simp only [List.mem_range'_1, NNODE] at hx hb
  have : (BitVec.ofNat 9 x).toNat = x := by simp; omega
  rw [this]; exact hx

theorem idxs_nodup {a n : Nat} (hb : a + n ≤ NNODE) : (idxs a n).Nodup := by
  refine List.Nodup.map_on ?_ List.nodup_range'
  intro x hx y hy e
  simp only [List.mem_range'_1, NNODE] at hx hy hb
  have := congrArg BitVec.toNat e
  simp only [BitVec.toNat_ofNat] at this
  omega

/-- What a successful `parse` leaves: the tree its bits describe, in consecutive entries from NALLOC on, the
older entries untouched, the symbol index of each of its leaves set, weights 0 (R120, R122). -/
structure Made (par : Idx) (p : Parsing) (i : Idx) (q : Parsing) (t : CodeTree) : Prop where
  src : p.src = t.header ++ q.src
  root : i = nextIdx p.node
  length : q.node.length = p.node.length + t.size
  room : p.node.length + t.size ≤ NNODE
  old : ∀ j : Idx, j.toNat < p.node.length → nodeAt q.node j = nodeAt p.node j
  held : Holds q.node par i t (idxs p.node.length t.size)
  nodup : t.leaves.Nodup
  absent : ∀ c ∈ t.leaves, symidxAt p.symidx c = NIL
  keep : ∀ c, c ∉ t.leaves → symidxAt q.symidx c = symidxAt p.symidx c
  present : ∀ c ∈ t.leaves, p.node.length ≤ (symidxAt q.symidx c).toNat ∧
    ∃ n, nodeAt q.node (symidxAt q.symidx c) = some n ∧ n.isLeaf = true ∧ n.symbol = c
  fields : ∀ (j : Idx) (n : Node), p.node.length ≤ j.toNat → nodeAt q.node j = some n →
    n.weight = 0 ∧ (n.isLeaf = false → n.symbol = 0)
  tables : Table.wf (fun i => decide (i = NIL)) p.symidx = true →
    Table.wf (fun i => decide (i = NIL)) q.symidx = true

theorem parseLeaf_made {par i : Idx} {p q : Parsing} (hroom : p.node.length < NNODE)
    (h : parseLeaf par p = .made i q) :
    ∃ c, Made par { p with src := true :: p.src } i q (.leaf c) := by
  unfold parseLeaf at h
  rw [readField_eq] at h
  by_cases hl : WSYM ≤ p.src.length
  · simp only [if_pos hl] at h
    split at h
    · simp at h
    · rename_i hx
      simp only [ne_eq, not_not] at hx
      simp only [Parsed.made.injEq] at h
      obtain ⟨rfl, rfl⟩ := h
      refine ⟨BitVec.ofNat 8 (shiftIn 0 (p.src.take WSYM)), ?_⟩
      generalize hc : BitVec.ofNat 8 (shiftIn 0 (p.src.take WSYM)) = c at *
      have hmsb : msb c = p.src.take WSYM := by
        rw [← hc]; exact msb_shiftIn _ (by simpa using hl)
      have hne := nextIdx_ne_NIL hroom
      have hat := nodeAt_nextIdx hroom ⟨0, c, NIL, NIL, par⟩ []
      refine {
        src := by simp [CodeTree.header, hmsb]
        root := rfl
        length := by simp [CodeTree.size]
        room := by simpa [CodeTree.size] using hroom
        old := fun j hj => nodeAt_append_left hj
        held := ?_
        nodup := by simp [CodeTree.leaves]
        absent := by simpa [CodeTree.leaves] using hx
        keep := fun d hd => ?_
        present := fun d hd => ?_
        fields := fun j n hj hn => ?_
        tables := fun hw => setSymidx_wf _ _ _ hw }
      · simp only [CodeTree.size, idxs, List.range'_one, List.map_cons, List.map_nil]
        exact .leaf hat rfl (by simp [Node.isLeaf]) rfl
      · simp only [CodeTree.leaves, List.mem_singleton] at hd
        simp [Ne.symm hd]
      · simp only [CodeTree.leaves, List.mem_singleton] at hd
        subst hd
        simp only [symidxAt_setSymidx, if_true]
        exact ⟨by rw [nextIdx_toNat hroom], _, hat, by simp [Node.isLeaf], rfl⟩
      · have hlt := lt_of_nodeAt hn
        simp only [List.length_append, List.length_cons, List.length_nil] at hlt hj
        have : j = nextIdx p.node := BitVec.eq_of_toNat_eq (by rw [nextIdx_toNat hroom]; omega)
        subst this
        obtain rfl := Option.some.inj (hat.symm.trans hn)
        simp [Node.isLeaf]
  · simp [if_neg hl] at h

/-- Soundness of `parse`. -/
theorem parse_made (k : Nat) {par i : Idx} {p q : Parsing} (h : parse k par p = .made i q) :
    ∃ t, Made par p i q t := by
  induction k generalizing par i p q with
  | zero =>
    unfold parse at h
    cases hs : p.src with
    | nil => simp [hs] at h
    | cons b rest => simp [hs] at h
  | succ k ih =>
    unfold parse at h
    cases hs : p.src with
    | nil => simp [hs] at h
    | cons b rest =>
      simp only [hs, srcGet_cons] at h
      by_cases hroom : NNODE ≤ p.node.length
      · simp [hroom] at h
      · simp only [hroom, if_false] at h
        simp only [not_le] at hroom
        cases b with
        | true =>
          simp only [if_true] at h
          obtain ⟨c, hm⟩ := parseLeaf_made (p := { p with src := rest }) hroom h
          refine ⟨.leaf c, ?_⟩
          obtain ⟨ps, pn, px⟩ := p
          simp only at hs; subst hs
          exact hm
        | false =>
          simp only [Bool.false_eq_true, if_false] at h
          generalize hx : (⟨0, 0, NIL, NIL, par⟩ : Node) = x at h
          cases h1 : parse k (nextIdx p.node) { p with src := rest, node := p.node ++ [x] } with
          | raised f r => simp [h1] at h
          | made l q1 =>
            simp only [h1] at h
            cases h2 : parse k (nextIdx p.node) { q1 with node := setLeft q1.node (nextIdx p.node) l } with
            | raised f r => simp [h2] at h
            | made r q2 =>
              simp only [h2, Parsed.made.injEq] at h
              obtain ⟨rfl, rfl⟩ := h
              obtain ⟨tl, ml⟩ := ih h1
              obtain ⟨tr, mr⟩ := ih h2
              obtain ⟨lsrc, lroot, llen, lroom, lold, lheld, lnodup, labs, lkeep, lpres, lfields, ltab⟩ := ml
              obtain ⟨rsrc, rroot, rlen, rroom, rold, rheld, rnodup, rabs, rkeep, rpres, rfields, rtab⟩ := mr
              simp only [List.length_append, List.length_cons, List.length_nil, Nat.zero_add,
                setLeft_length] at llen lroom lold lheld lpres lfields rlen rroom rold rheld rpres rfields
              simp only at lsrc rsrc labs lkeep rkeep rabs
              have hi : (nextIdx p.node).toNat = p.node.length := nextIdx_toNat hroom
              have hiN : nextIdx p.node ≠ NIL := nextIdx_ne_NIL hroom
              have hsx : nodeAt (p.node ++ [x]) (nextIdx p.node) = some x := nodeAt_nextIdx hroom x []
              have hi1 : nodeAt q1.node (nextIdx p.node) = some x := by rw [lold _ (by omega), hsx]
              have hi2 : nodeAt q2.node (nextIdx p.node) = some { x with left := l } := by
                rw [rold _ (by omega), nodeAt_setLeft]; simp [hi1]
              have hfin : nodeAt (setRight q2.node (nextIdx p.node) r) (nextIdx p.node) =
                  some { x with left := l, right := r } := by
                rw [nodeAt_setRight]; simp [hi2]
              -- entries other than the new internal node
              have hother2 : ∀ j : Idx, j.toNat ≠ p.node.length →
                  nodeAt (setRight q2.node (nextIdx p.node) r) j = nodeAt q2.node j := by
                intro j hj
                rw [nodeAt_setRight, if_neg]
                rintro rfl; exact hj hi
              have hother1 : ∀ j : Idx, j.toNat ≠ p.node.length → j.toNat < q1.node.length →
                  nodeAt (setRight q2.node (nextIdx p.node) r) j = nodeAt q1.node j := by
                intro j hj hlt
                rw [hother2 j hj, rold _ hlt, nodeAt_setLeft, if_neg]
                rintro rfl; exact hj hi
              have hlidx := fun j (hj : j ∈ idxs (p.node.length + 1) tl.size) => mem_idxs lroom hj
              have hridx := fun j (hj : j ∈ idxs q1.node.length tr.size) => mem_idxs rroom hj
              have hheldl : Holds (setRight q2.node (nextIdx p.node) r) (nextIdx p.node) l tl
                  (idxs (p.node.length + 1) tl.size) :=
                lheld.congr fun j hj => by
                  have := hlidx j hj
                  exact hother1 j (by omega) (by omega)
              have hheldr : Holds (setRight q2.node (nextIdx p.node) r) (nextIdx p.node) r tr
                  (idxs q1.node.length tr.size) :=
                rheld.congr fun j hj => by
                  have := hridx j hj
                  exact hother2 j (by omega)
              have hlne := lheld.root_ne
              have hdisj : ∀ c ∈ tl.leaves, c ∉ tr.leaves := by
                intro c hc hcr
                obtain ⟨-, n, hn, -⟩ := lpres c hc
                exact ne_NIL_of_nodeAt hn (rabs c hcr)
              refine ⟨.fork tl tr, ?_⟩
              refine {
                src := by rw [hs]; simp [CodeTree.header, lsrc, rsrc]
                root := rfl
                length := by simp only [setRight_length, CodeTree.size]; omega
                room := by simp only [CodeTree.size]; omega
                old := fun j hj => ?_
                held := ?_
                nodup := ?_
                absent := fun c hc => ?_
                keep := fun c hc => ?_
                present := fun c hc => ?_
                fields := fun j n hj hn => ?_
                tables := fun hw => rtab (ltab hw) }
              · rw [hother1 j (by omega) (by omega), lold j (by omega), nodeAt_append_left hj]
              · have e : idxs p.node.length (CodeTree.fork tl tr).size =
                    nextIdx p.node :: (idxs (p.node.length + 1) tl.size ++ idxs q1.node.length tr.size) := by
                  have : (CodeTree.fork tl tr).size = (tl.size + tr.size) + 1 := by
                    simp only [CodeTree.size]; omega
                  rw [this, idxs_succ, llen, idxs_append]; rfl
                rw [e]
                exact .fork hfin (by rw [← hx]) hheldl hheldr
              · simp only [CodeTree.leaves, List.nodup_append]
                exact ⟨lnodup, rnodup, fun c hc d hd e => hdisj c hc (e ▸ hd)⟩
              · simp only [CodeTree.leaves, List.mem_append] at hc
                rcases hc with hc | hc
                · exact labs c hc
                · have hcl : c ∉ tl.leaves := fun h => hdisj c h hc
                  rw [← lkeep c hcl]; exact rabs c hc
              · simp only [CodeTree.leaves, List.mem_append, not_or] at hc
                rw [rkeep c hc.2, lkeep c hc.1]
              · simp only [CodeTree.leaves, List.mem_append] at hc
                simp only
                by_cases hcr : c ∈ tr.leaves
                · obtain ⟨h1, n, hn, h2, h3⟩ := rpres c hcr
                  refine ⟨by omega, n, ?_, h2, h3⟩
                  rw [hother2 _ (by omega)]; exact hn
                · have hcl := hc.resolve_right hcr
                  obtain ⟨h1, n, hn, h2, h3⟩ := lpres c hcl
                  rw [rkeep c hcr]
                  have := lt_of_nodeAt hn
                  refine ⟨by omega, n, ?_, h2, h3⟩
                  rw [hother1 _ (by omega) (by omega)]; exact hn
              · by_cases hji : j.toNat = p.node.length
                · have : j = nextIdx p.node := BitVec.eq_of_toNat_eq (by omega)
                  subst this
                  obtain rfl := Option.some.inj (hfin.symm.trans hn)
                  rw [← hx]; simp
                · have hj1 : p.node.length + 1 ≤ j.toNat := by omega
                  by_cases hj2 : j.toNat < q1.node.length
                  · rw [hother1 j hji hj2] at hn
                    exact lfields j n hj1 hn
                  · rw [hother2 j hji] at hn
                    exact rfields j n (by omega) hn

/-- How `parse` can fail, and what it has consumed by then. -/
structure Failed (f : FaultKind) (p q : Parsing) : Prop where
  kind : f = .malformedHeader ∨ (f = .truncatedStream ∧ q.src = [])
  src : ∃ w, p.src = w ++ q.src
  tables : Table.wf (fun i => decide (i = NIL)) p.symidx = true →
    Table.wf (fun i => decide (i = NIL)) q.symidx = true

theorem parseLeaf_raised {par : Idx} {p q : Parsing} {f : FaultKind} (h : parseLeaf par p = .raised f q) :
    Failed f p q := by
  unfold parseLeaf at h
  rw [readField_eq] at h
  by_cases hl : WSYM ≤ p.src.length
  · simp only [if_pos hl] at h
    split at h
    · simp only [Parsed.raised.injEq] at h
      obtain ⟨rfl, rfl⟩ := h
      exact ⟨.inl rfl, ⟨p.src.take WSYM, by simp⟩, id⟩
    · simp at h
  · simp only [if_neg hl, Parsed.raised.injEq] at h
    obtain ⟨rfl, rfl⟩ := h
    exact ⟨.inr ⟨rfl, rfl⟩, ⟨p.src, by simp⟩, id⟩

theorem parse_raised (k : Nat) {par : Idx} {p q : Parsing} {f : FaultKind}
    (h : parse k par p = .raised f q) : Failed f p q := by
  induction k generalizing par p q with
  | zero =>
    unfold parse at h
    cases hs : p.src with
    | nil =>
      simp only [hs, srcGet_nil, Parsed.raised.injEq] at h
      obtain ⟨rfl, rfl⟩ := h
      exact ⟨.inr ⟨rfl, hs⟩, ⟨[], rfl⟩, id⟩
    | cons b rest =>
      simp only [hs, srcGet_cons, Parsed.raised.injEq] at h
      obtain ⟨rfl, rfl⟩ := h
      exact ⟨.inl rfl, ⟨[b], by simp [hs]⟩, id⟩
  | succ k ih =>
    unfold parse at h
    cases hs : p.src with
    | nil =>
      simp only [hs, srcGet_nil, Parsed.raised.injEq] at h
      obtain ⟨rfl, rfl⟩ := h
      exact ⟨.inr ⟨rfl, hs⟩, ⟨[], rfl⟩, id⟩
    | cons b rest =>
      simp only [hs, srcGet_cons] at h
      split at h
      · simp only [Parsed.raised.injEq] at h
        obtain ⟨rfl, rfl⟩ := h
        exact ⟨.inl rfl, ⟨[b], by simp [hs]⟩, id⟩
      · cases b with
        | true =>
          obtain ⟨h1, ⟨w, h2⟩, h3⟩ := parseLeaf_raised (by simpa using h)
          exact ⟨h1, ⟨true :: w, by rw [hs]; simp at h2; simp [h2]⟩, h3⟩
        | false =>
          simp only [Bool.false_eq_true, if_false] at h
          generalize hx : (⟨0, 0, NIL, NIL, par⟩ : Node) = x at h
          cases h1 : parse k (nextIdx p.node) { p with src := rest, node := p.node ++ [x] } with
          | raised g r =>
            simp only [h1, Parsed.raised.injEq] at h
            obtain ⟨rfl, rfl⟩ := h
            obtain ⟨e1, ⟨w, e2⟩, e3⟩ := ih h1
            exact ⟨e1, ⟨false :: w, by rw [hs]; simp at e2; simp [e2]⟩, e3⟩
          | made l q1 =>
            simp only [h1] at h
            obtain ⟨t, m⟩ := parse_made k h1
            cases h2 : parse k (nextIdx p.node) { q1 with node := setLeft q1.node (nextIdx p.node) l } with
            | made r q2 => simp [h2] at h
            | raised g r =>
              simp only [h2, Parsed.raised.injEq] at h
              obtain ⟨rfl, rfl⟩ := h
              obtain ⟨e1, ⟨w, e2⟩, e3⟩ := ih h2
              have := m.src
              simp only at this e2
              exact ⟨e1, ⟨false :: (t.header ++ w), by rw [hs, this, e2]; simp⟩, fun hw => e3 (m.tables hw)⟩

/-- On a source that starts with a tree field, `parse` does not run out of bits: it makes a tree, and has
then consumed exactly that field, or raises MalformedHeader. -/
theorem parse_on_header (t : CodeTree) (k : Nat) (par : Idx) (p : Parsing) (rest : BitStr)
    (hs : p.src = t.header ++ rest) :
    (∃ i q, parse k par p = .made i q ∧ q.src = rest) ∨ ∃ q, parse k par p = .raised .malformedHeader q := by
  cases hp : parse k par p with
  | made i q =>
    obtain ⟨u, m⟩ := parse_made k hp
    have := m.src
    rw [hs] at this
    exact .inl ⟨i, q, rfl, (CodeTree.header_append_inj this).2.symm⟩
  | raised f q =>
    refine .inr ⟨q, ?_⟩
    suffices f = .malformedHeader by rw [this]
    induction t generalizing k par p rest f q with
    | leaf c =>
      cases k with
      | zero => simp [parse, hs, CodeTree.header] at hp; exact hp.1.symm
      | succ k =>
        unfold parse at hp
        rw [hs] at hp
        simp only [CodeTree.header, List.cons_append, srcGet_cons, if_true] at hp
        split at hp
        · simp only [Parsed.raised.injEq] at hp; exact hp.1.symm
        · unfold parseLeaf at hp
          simp only [readField_msb] at hp
          split at hp
          · simp only [Parsed.raised.injEq] at hp; exact hp.1.symm
          · simp at hp
    | fork l r ihl ihr =>
      cases k with
      | zero => simp [parse, hs, CodeTree.header] at hp; exact hp.1.symm
      | succ k =>
        unfold parse at hp
        rw [hs] at hp
        simp only [CodeTree.header, List.cons_append, srcGet_cons, Bool.false_eq_true, if_false,
          List.append_assoc] at hp
        split at hp
        · simp only [Parsed.raised.injEq] at hp; exact hp.1.symm
        · generalize hx : (⟨0, 0, NIL, NIL, par⟩ : Node) = x at hp
          cases h1 : parse k (nextIdx p.node)
              { p with src := l.header ++ (r.header ++ rest), node := p.node ++ [x] } with
          | raised g q' =>
            simp only [h1, Parsed.raised.injEq] at hp
            obtain ⟨rfl, rfl⟩ := hp
            exact ihl k _ _ _ rfl g q' h1
          | made i q1 =>
            simp only [h1] at hp
            obtain ⟨u, m⟩ := parse_made k h1
            have e : q1.src = r.header ++ rest := (CodeTree.header_append_inj m.src).2.symm
            cases h2 : parse k (nextIdx p.node) { q1 with node := setLeft q1.node (nextIdx p.node) i } with
            | made j q2 => simp [h2] at hp
            | raised g q' =>
              simp only [h2, Parsed.raised.injEq] at hp
              obtain ⟨rfl, rfl⟩ := hp
              exact ihr k _ { q1 with node := setLeft q1.node (nextIdx p.node) i } _ e g q' h2

/-- Completeness of `parse`: a tree field of distinct absent symbols, with room in the arena. -/
theorem parse_header (t : CodeTree) (k : Nat) (par : Idx) (p : Parsing) (rest : BitStr)
    (hs : p.src = t.header ++ rest) (hroom : p.node.length + t.size ≤ NNODE)
    (hk : NNODE ≤ k + p.node.length) (hn : t.leaves.Nodup)
    (ha : ∀ c ∈ t.leaves, symidxAt p.symidx c = NIL) : ∃ i q, parse k par p = .made i q := by
  induction t generalizing k par p rest with
  | leaf c =>
    simp only [CodeTree.size] at hroom
    obtain ⟨k, rfl⟩ : ∃ m, k = m + 1 := ⟨k - 1, by omega⟩
    unfold parse
    have : ¬ NNODE ≤ p.node.length := by omega
    have hx := ha c (by simp [CodeTree.leaves])
    rw [hs]
    simp only [CodeTree.header, List.cons_append, srcGet_cons, if_true, this, if_false]
    unfold parseLeaf
    simp [readField_msb, hx]
  | fork l r ihl ihr =>
    have hl0 := l.size_pos
    have hr0 := r.size_pos
    simp only [CodeTree.size] at hroom
    obtain ⟨k, rfl⟩ : ∃ m, k = m + 1 := ⟨k - 1, by omega⟩
    have hfull : ¬ NNODE ≤ p.node.length := by omega
    simp only [CodeTree.leaves, List.nodup_append, List.mem_append] at hn ha
    unfold parse
    rw [hs]
    simp only [CodeTree.header, List.cons_append, srcGet_cons, Bool.false_eq_true, if_false,
      List.append_assoc, hfull]
    generalize hx : (⟨0, 0, NIL, NIL, par⟩ : Node) = x
    obtain ⟨i, q1, h1⟩ := ihl k (nextIdx p.node)
      { p with src := l.header ++ (r.header ++ rest), node := p.node ++ [x] } (r.header ++ rest) rfl
      (by simp only [List.length_append, List.length_cons, List.length_nil]; omega)
      (by simp only [List.length_append, List.length_cons, List.length_nil]; omega)
      hn.1 (fun c hc => ha c (.inl hc))
    obtain ⟨u, m⟩ := parse_made k h1
    obtain ⟨rfl, e⟩ := CodeTree.header_append_inj m.src
    have hlen := m.length
    simp only [List.length_append, List.length_cons, List.length_nil] at hlen
    obtain ⟨j, q2, h2⟩ := ihr k (nextIdx p.node) { q1 with node := setLeft q1.node (nextIdx p.node) i } rest
      e.symm (by simp only [setLeft_length]; omega) (by simp only [setLeft_length]; omega) hn.2.1
      (fun c hc => by
        rw [m.keep c fun hcl => hn.2.2 c hcl c hc rfl]
        exact ha c (.inr hc))
    simp [h1, h2]

/-- More bits at the end of the source change nothing for a `parse` that did not run out of them. -/
theorem parse_append (k : Nat) (par : Idx) (p : Parsing) (v : BitStr) :
    (∀ q, parse k par p = .raised .malformedHeader q →
      parse k par { p with src := p.src ++ v } = .raised .malformedHeader { q with src := q.src ++ v }) ∧
    (∀ i q, parse k par p = .made i q →
      parse k par { p with src := p.src ++ v } = .made i { q with src := q.src ++ v }) := by
  induction k generalizing par p with
  | zero =>
    obtain ⟨ps, pn, px⟩ := p
    cases ps with
    | nil => simp [parse]
    | cons b rest => simp [parse]
  | succ k ih =>
    obtain ⟨ps, pn, px⟩ := p
    cases ps with
    | nil => simp [parse]
    | cons b rest =>
      unfold parse
      simp only [List.cons_append, srcGet_cons]
      by_cases hfull : NNODE ≤ pn.length
      · simp only [hfull, if_true, Parsed.raised.injEq, true_and]
        exact ⟨by rintro q rfl; rfl, by simp⟩
      · simp only [hfull, if_false]
        cases b with
        | true =>
          simp only [if_true]
          unfold parseLeaf
          simp only [readField_eq]
          by_cases hl : WSYM ≤ rest.length
          · have hl2 : WSYM ≤ (rest ++ v).length := by simp; omega
            simp only [hl, hl2, if_true, List.take_append_of_le_length hl, List.drop_append_of_le_length hl]
            split
            · simp only [Parsed.raised.injEq, true_and]
              exact ⟨by rintro q rfl; rfl, by simp⟩
            · simp only [Parsed.made.injEq]
              exact ⟨by simp, by rintro i q ⟨rfl, rfl⟩; exact ⟨rfl, rfl⟩⟩
          · simp [hl]
        | false =>
          simp only [Bool.false_eq_true, if_false]
          generalize hx : (⟨0, 0, NIL, NIL, par⟩ : Node) = x
          have h := ih (nextIdx pn) ⟨rest, pn ++ [x], px⟩
          cases h1 : parse k (nextIdx pn) ⟨rest, pn ++ [x], px⟩ with
          | raised f q =>
            refine ⟨fun r hr => ?_, fun i r hr => by simp at hr⟩
            simp only [Parsed.raised.injEq] at hr
            obtain ⟨rfl, rfl⟩ := hr
            simp only [h.1 q h1]
          | made l q =>
            simp only [h.2 l q h1]
            have h' := ih (nextIdx pn) { q with node := setLeft q.node (nextIdx pn) l }
            cases h2 : parse k (nextIdx pn) { q with node := setLeft q.node (nextIdx pn) l } with
            | raised f r =>
              refine ⟨fun r' hr => ?_, fun i r' hr => by simp at hr⟩
              simp only [Parsed.raised.injEq] at hr
              obtain ⟨rfl, rfl⟩ := hr
              have := h'.1 r h2
              simp only at this
              simp only [this]
            | made r q2 =>
              refine ⟨fun r' hr => by simp at hr, fun i r' hr => ?_⟩
              simp only [Parsed.made.injEq] at hr
              obtain ⟨rfl, rfl⟩ := hr
              have := h'.2 r q2 h2
              simp only at this
              simp only [this]

/-- A tree field that the source ends in: TruncatedStream, every bit consumed (R124). -/
theorem parse_truncated (t : CodeTree) (k : Nat) (par : Idx) (p : Parsing) (v : BitStr)
    (hs : p.src ++ v = t.header) (hv : v ≠ []) (hroom : p.node.length + t.size ≤ NNODE)
    (hk : NNODE ≤ k + p.node.length) (hn : t.leaves.Nodup)
    (ha : ∀ c ∈ t.leaves, symidxAt p.symidx c = NIL) :
    ∃ q, parse k par p = .raised .truncatedStream q ∧ q.src = [] := by
  have happ := parse_append k par p v
  obtain ⟨i, q, hq⟩ := parse_header t k par { p with src := p.src ++ v } [] (by simp [hs]) hroom hk hn ha
  cases hp : parse k par p with
  | made j r =>
    obtain ⟨u, m⟩ := parse_made k hp
    have e := m.src
    have : u.header ++ (r.src ++ v) = t.header ++ [] := by rw [← List.append_assoc, ← e, hs]; simp
    have := (CodeTree.header_append_inj this).2
    simp at this
    exact absurd this.2 hv
  | raised f r =>
    have hf := parse_raised k hp
    rcases hf.kind with rfl | ⟨rfl, h⟩
    · rw [happ.1 r hp] at hq; simp at hq
    · exact ⟨r, rfl, h⟩

end Sys2Proof.Machine
end

