-- ==== Sys2Proof/Laws/Payload.lean ====
section
/-! SUPPORT. What DEC and DECM do to the payload: both are one walk down the tree (R140, R145, R147). -/

namespace Sys2Proof

namespace CodeTree

@[simp] theorem sub_nil (t : CodeTree) : t.sub [] = some t := by cases t <;> rfl

theorem sub_append (t : CodeTree) (v w : BitStr) : t.sub (v ++ w) = (t.sub v).bind fun u => u.sub w := by
  induction t generalizing v with
  | leaf c => cases v <;> cases w <;> simp [sub]
  | fork l r ihl ihr =>
    cases v with
    | nil => simp
    | cons b v => cases b <;> simp [sub, ihl, ihr]

/-- A path is a bit string that leads to a leaf. -/
theorem mem_paths_iff_sub {t : CodeTree} {c : Sym} {w : BitStr} :
    (c, w) ∈ t.paths ↔ t.sub w = some (.leaf c) := by
  induction t generalizing w with
  | leaf d => cases w <;> simp [paths, sub, eq_comm]
  | fork l r ihl ihr =>
    rw [mem_paths_fork]
    cases w with
    | nil => simp
    | cons b w => cases b <;> simp [sub, ihl, ihr]

theorem sub_depth {t u : CodeTree} {w : BitStr} (h : t.sub w = some u) : w.length + u.depth ≤ t.depth := by
  induction t generalizing w with
  | leaf c => cases w <;> simp_all [sub]
  | fork l r ihl ihr =>
    cases w with
    | nil => simp at h; simp [← h]
    | cons b w =>
      simp only [sub] at h
      cases b
      · have := ihl (by simpa using h); simp only [List.length_cons, depth]; omega
      · have := ihr (by simpa using h); simp only [List.length_cons, depth]; omega

end CodeTree

namespace Machine

/-- The loop of DEC on a tree: read a bit, move where the node is internal, stop at a leaf (R140). -/
def treeWalk (total : Count) : CodeTree → Nat → Payload → Decoded
  | .leaf c, n, p =>
    match payloadBit total p with
    | .error f => .raised f p
    | .ok (_, q) => .symbol c (n + 1) q
  | .fork l r, n, p =>
    match payloadBit total p with
    | .error f => .raised f p
    | .ok (b, q) =>
      match b, l, r with
      | false, .leaf c, _ => .symbol c (n + 1) q
      | false, .fork l1 l2, _ => treeWalk total (.fork l1 l2) (n + 1) q
      | true, _, .leaf c => .symbol c (n + 1) q
      | true, _, .fork r1 r2 => treeWalk total (.fork r1 r2) (n + 1) q

/-- The walk over the arena is the walk over the tree it holds. -/
theorem walkDown_eq {ns : List Node} {par i : Idx} {t : CodeTree} {is : List Idx} (h : Holds ns par i t is)
    (total : Count) {k : Nat} (hk : t.depth ≤ k) (h0 : 0 < k) (n : Nat) (p : Payload) :
    walkDown ns total k i n p = treeWalk total t n p := by
  induction h generalizing k n p with
  | leaf at_ up nil sym =>
    obtain ⟨k, rfl⟩ : ∃ m, k = m + 1 := ⟨k - 1, by omega⟩
    simp only [walkDown, treeWalk]
    cases payloadBit total p with
    | error f => rfl
    | ok r => simp [at_, moveCursor, nil, sym]
  | @fork par i m l r ls rs at_ up left right ihl ihr =>
    obtain ⟨k, rfl⟩ : ∃ m, k = m + 1 := ⟨k - 1, by omega⟩
    have hnl : m.isLeaf = false := by simp [Node.isLeaf, left.root_ne]
    simp only [CodeTree.depth] at hk
    simp only [walkDown]
    cases hb : payloadBit total p with
    | error f => simp [treeWalk, hb]
    | ok e =>
      obtain ⟨b, q⟩ := e
      simp only [at_, moveCursor, hnl, Bool.false_eq_true, if_false]
      cases b with
      | false =>
        simp only [Bool.false_eq_true, if_false]
        cases left with
        | leaf at2 up2 nil2 sym2 => simp [at2, nil2, sym2, treeWalk, hb]
        | fork at2 up2 l2 r2 =>
          have hd : 0 < k := by simp only [CodeTree.depth] at hk; omega
          have := ihl (k := k) (by omega) hd (n + 1) q
          rw [treeWalk]
          simp [at2, Node.isLeaf, l2.root_ne, this, hb]
      | true =>
        simp only [if_true]
        cases right with
        | leaf at2 up2 nil2 sym2 => simp [at2, nil2, sym2, treeWalk, hb]
        | fork at2 up2 l2 r2 =>
          have hd : 0 < k := by simp only [CodeTree.depth] at hk; omega
          have := ihr (k := k) (by omega) hd (n + 1) q
          rw [treeWalk]
          simp [at2, Node.isLeaf, l2.root_ne, this, hb]

/-! ### The match decoder -/

theorem matchCode_some {sx : Table Idx} {cand : BitStr} {codes : List (Sym × BitStr)} {c : Sym}
    (h : matchCode sx cand codes = some c) : (c, cand) ∈ codes ∧ symidxAt sx c ≠ NIL := by
  induction codes with
  | nil => simp [matchCode] at h
  | cons e codes ih =>
    obtain ⟨s, w⟩ := e
    simp only [matchCode] at h
    split at h
    · simp_all
    · have := ih h; simp_all

theorem matchCode_none {sx : Table Idx} {cand : BitStr} {codes : List (Sym × BitStr)}
    (h : matchCode sx cand codes = none) (c : Sym) (hc : (c, cand) ∈ codes) : symidxAt sx c = NIL := by
  induction codes with
  | nil => simp at hc
  | cons e codes ih =>
    obtain ⟨s, w⟩ := e
    simp only [matchCode] at h
    split at h
    · simp at h
    · rename_i hn
      rcases List.mem_cons.1 hc with hc | hc
      · by_contra hne
        simp only [Prod.mk.injEq] at hc
        exact hn ⟨by rw [← hc.1]; exact hne, hc.2.symm⟩
      · exact ih h hc

/-- DECM's match test in a consistent state: the symbol whose code the candidate is, if there is one. -/
theorem matchCode_codes {s : State} (hc : Consistent s) {t : CodeTree} (ht : TreeAt s t) (cand : BitStr) :
    (∀ c, matchCode s.symidx cand (allSyms.map fun c => (c, codeOf s c)) = some c ↔ (c, cand) ∈ t.codes) := by
  have hmem : ∀ c, (c, cand) ∈ (allSyms.map fun c => (c, codeOf s c)) ↔ codeOf s c = cand := by
    intro c
    simp only [List.mem_map, Prod.mk.injEq]
    exact ⟨fun ⟨d, _, h1, h2⟩ => by rw [← h1]; exact h2, fun h => ⟨c, mem_allSyms c, rfl, h⟩⟩
  have hcode : ∀ c, symidxAt s.symidx c ≠ NIL → codeOf s c = cand → (c, cand) ∈ t.codes := by
    intro c hx hcand
    obtain ⟨w, hw⟩ := CodeTree.code_of_mem_leaves ((present_iff hc ht c).1 hx)
    rw [codeOf_eq hc ht hw] at hcand
    exact hcand ▸ hw
  intro c
  constructor
  · intro h
    obtain ⟨h1, h2⟩ := matchCode_some h
    exact hcode c h2 ((hmem c).1 h1)
  · intro h
    have hx := (present_iff hc ht c).2 (CodeTree.mem_leaves_of_code h)
    cases hmc : matchCode s.symidx cand (allSyms.map fun c => (c, codeOf s c)) with
    | none => exact absurd (matchCode_none hmc c ((hmem c).2 (codeOf_eq hc ht h))) hx
    | some d =>
      obtain ⟨h1, h2⟩ := matchCode_some hmc
      have := CodeTree.code_prefix_eq (hcode d h2 ((hmem d).1 h1)) h List.prefix_rfl
      rw [this.1]

/-- DECM walks the tree as DEC does, when the tree has two or more leaves (R147). -/
theorem matchBits_eq {s : State} (hc : Consistent s) {l r : CodeTree} (ht : TreeAt s (.fork l r))
    (total : Count) {u1 u2 : CodeTree} {cand : BitStr} (hu : (CodeTree.fork l r).sub cand = some (.fork u1 u2))
    {k : Nat} (hk : (CodeTree.fork u1 u2).depth ≤ k) (p : Payload) :
    matchBits s.symidx (allSyms.map fun c => (c, codeOf s c)) total k cand p =
      treeWalk total (.fork u1 u2) cand.length p := by
  generalize hu' : CodeTree.fork u1 u2 = u at hu hk
  induction u generalizing u1 u2 cand k p with
  | leaf c => simp at hu'
  | fork v1 v2 ih1 ih2 =>
    simp only [CodeTree.depth] at hk
    obtain ⟨k, rfl⟩ : ∃ m, k = m + 1 := ⟨k - 1, by omega⟩
    unfold matchBits treeWalk
    cases hb : payloadBit total p with
    | error f => rfl
    | ok e =>
      obtain ⟨b, q⟩ := e
      have hsub : (CodeTree.fork l r).sub (cand ++ [b]) = some (if b then v2 else v1) := by
        rw [CodeTree.sub_append, hu]; cases b <;> simp [CodeTree.sub]
      have hlen : (cand ++ [b]).length = cand.length + 1 := by simp
      have hmatch := matchCode_codes hc ht (cand ++ [b])
      simp only [CodeTree.codes, CodeTree.mem_paths_iff_sub, hsub] at hmatch
      cases b with
      | false =>
        simp only [Bool.false_eq_true, if_false] at hmatch hsub
        cases v1 with
        | leaf c => simp [(hmatch c).2 rfl]
        | fork w1 w2 =>
          have hnone : matchCode s.symidx (cand ++ [false]) (allSyms.map fun c => (c, codeOf s c)) = none := by
            cases h : matchCode s.symidx (cand ++ [false]) (allSyms.map fun c => (c, codeOf s c)) with
            | none => rfl
            | some c => have := (hmatch c).1 h; simp at this
          simp only [hnone]
          rw [ih1 (k := k) q rfl hsub (by omega), hlen]
      | true =>
        simp only [if_true] at hmatch hsub
        cases v2 with
        | leaf c => simp [(hmatch c).2 rfl]
        | fork w1 w2 =>
          have hnone : matchCode s.symidx (cand ++ [true]) (allSyms.map fun c => (c, codeOf s c)) = none := by
            cases h : matchCode s.symidx (cand ++ [true]) (allSyms.map fun c => (c, codeOf s c)) with
            | none => rfl
            | some c => have := (hmatch c).1 h; simp at this
          simp only [hnone]
          rw [ih2 (k := k) q rfl hsub (by omega), hlen]

/-! ### What one walk does to the payload -/

/-- A request for a payload bit that is answered: the first bit of the source, PPOS one further, below
TOTAL. -/
theorem payloadBit_ok {total : Count} {p q : Payload} {b : Bool} (h : payloadBit total p = .ok (b, q)) :
    p.src = b :: q.src ∧ q.ppos = p.ppos + 1 ∧ p.ppos < total := by
  unfold payloadBit at h
  split at h
  · simp at h
  · rename_i hlt
    cases hs : p.src with
    | nil => simp [hs] at h
    | cons a rest =>
      simp only [hs, srcGet_cons, Except.ok.injEq, Prod.mk.injEq] at h
      obtain ⟨rfl, rfl⟩ := h
      exact ⟨rfl, rfl, BitVec.not_le.1 hlt⟩

theorem payloadBit_error {total : Count} {p : Payload} {f : FaultKind} (h : payloadBit total p = .error f) :
    (f = .malformedHeader ∧ total ≤ p.ppos) ∨ (f = .truncatedStream ∧ p.ppos < total ∧ p.src = []) := by
  unfold payloadBit at h
  split at h
  · rename_i hle
    simp only [Except.error.injEq] at h
    exact .inl ⟨h.symm, hle⟩
  · rename_i hlt
    cases hs : p.src with
    | nil =>
      simp only [hs, srcGet_nil, Except.error.injEq] at h
      exact .inr ⟨h.symm, BitVec.not_le.1 hlt, rfl⟩
    | cons a rest => simp [hs] at h

theorem payloadBit_cons {total : Count} {p : Payload} {b : Bool} {rest : BitStr} (hs : p.src = b :: rest)
    (h : p.ppos < total) : payloadBit total p = .ok (b, ⟨p.ppos + 1, rest⟩) := by
  have : ¬ total ≤ p.ppos := BitVec.not_le.2 h
  simp [payloadBit, this, hs]

theorem payloadBit_nil {total : Count} {p : Payload} (hs : p.src = [])
    (h : p.ppos < total) : payloadBit total p = .error .truncatedStream := by
  have : ¬ total ≤ p.ppos := BitVec.not_le.2 h
  simp [payloadBit, this, hs]

theorem payloadBit_exhausted {total : Count} {p : Payload}
    (h : total ≤ p.ppos) : payloadBit total p = .error .malformedHeader := by simp [payloadBit, h]

/-- One more payload bit, as numbers. -/
theorem toNat_succ_of_lt {p t : Count} (h : p < t) : (p + 1).toNat = p.toNat + 1 := by
  have := t.isLt
  bv_omega

/-- A walk on a source that starts with a path resolves that path's symbol (R140). -/
theorem treeWalk_path {total : Count} {l r : CodeTree} {c : Sym} {w rest : BitStr} {n : Nat} {p : Payload}
    (hw : (c, w) ∈ (CodeTree.fork l r).paths) (hs : p.src = w ++ rest)
    (ht : p.ppos.toNat + w.length ≤ total.toNat) :
    treeWalk total (.fork l r) n p =
      .symbol c (n + w.length) ⟨p.ppos + BitVec.ofNat 64 w.length, rest⟩ := by
  generalize hu : CodeTree.fork l r = u at hw
  induction u generalizing l r w n p with
  | leaf d => simp at hu
  | fork v1 v2 ih1 ih2 =>
    rcases CodeTree.mem_paths_fork.1 hw with ⟨q, rfl, hq⟩ | ⟨q, rfl, hq⟩
    · simp only [List.length_cons] at ht
      have hlt : p.ppos < total := by bv_omega
      have hb := payloadBit_cons (b := false) (rest := q ++ rest) hs hlt
      have hsucc := toNat_succ_of_lt hlt
      unfold treeWalk
      rw [hb]
      cases v1 with
      | leaf d =>
        simp only [CodeTree.paths, List.mem_singleton, Prod.mk.injEq] at hq
        simp [hq]
      | fork w1 w2 =>
        simp only
        rw [ih1 (p := ⟨p.ppos + 1, q ++ rest⟩) rfl (by simp only; omega) rfl hq]
        simp only [List.length_cons, Decoded.symbol.injEq, Payload.mk.injEq, true_and, and_true]
        refine ⟨by omega, ?_⟩
        bv_omega
    · simp only [List.length_cons] at ht
      have hlt : p.ppos < total := by bv_omega
      have hb := payloadBit_cons (b := true) (rest := q ++ rest) hs hlt
      have hsucc := toNat_succ_of_lt hlt
      unfold treeWalk
      rw [hb]
      cases v2 with
      | leaf d =>
        simp only [CodeTree.paths, List.mem_singleton, Prod.mk.injEq] at hq
        simp [hq]
      | fork w1 w2 =>
        simp only
        rw [ih2 (p := ⟨p.ppos + 1, q ++ rest⟩) rfl (by simp only; omega) rfl hq]
        simp only [List.length_cons, Decoded.symbol.injEq, Payload.mk.injEq, true_and, and_true]
        refine ⟨by omega, ?_⟩
        bv_omega

/-- A walk never stops; where it faults, and where it resolves a symbol, the bits consumed are the bits
counted. -/
inductive Walked (total : Count) (p : Payload) : Decoded → Prop where
  | symbol {c : Sym} {m : Nat} {q : Payload} {w : BitStr} (src : p.src = w ++ q.src) (pos : w ≠ [])
      (count : q.ppos = p.ppos + BitVec.ofNat 64 w.length) (le : p.ppos.toNat + w.length ≤ total.toNat) :
      Walked total p (.symbol c m q)
  | raised {f : FaultKind} {q : Payload} {w : BitStr} (src : p.src = w ++ q.src)
      (count : q.ppos = p.ppos + BitVec.ofNat 64 w.length)
      (le : w ≠ [] → p.ppos.toNat + w.length ≤ total.toNat)
      (why : (f = .malformedHeader ∧ total ≤ q.ppos) ∨
        (f = .truncatedStream ∧ q.ppos < total ∧ q.src = [])) :
      Walked total p (.raised f q)

theorem Walked.step {total : Count} {p q : Payload} {b : Bool} {d : Decoded}
    (h : payloadBit total p = .ok (b, q)) (hd : Walked total q d) : Walked total p d := by
  obtain ⟨h1, h2, h3⟩ := payloadBit_ok h
  have hsucc := toNat_succ_of_lt h3
  cases hd with
  | @symbol c m r w src pos count le =>
    refine .symbol (w := b :: w) (by rw [h1, src]; rfl) (by simp) ?_ ?_
    · rw [count, h2, List.length_cons]; bv_omega
    · rw [h2] at le; simp only [List.length_cons]; omega
  | @raised f r w src count le why =>
    refine .raised (w := b :: w) (by rw [h1, src]; rfl) ?_ ?_ why
    · rw [count, h2, List.length_cons]; bv_omega
    · intro _
      by_cases hw : w = []
      · subst hw; simp only [List.length_cons, List.length_nil]; bv_omega
      · have := le hw
        rw [h2] at this; simp only [List.length_cons]; omega

theorem Walked.one {total : Count} {p q : Payload} {b : Bool} (h : payloadBit total p = .ok (b, q)) (c : Sym)
    (m : Nat) : Walked total p (.symbol c m q) := by
  obtain ⟨h1, h2, h3⟩ := payloadBit_ok h
  exact .symbol (w := [b]) (by simpa using h1) (by simp) (by rw [h2]; rfl)
    (by simp only [List.length_cons, List.length_nil]; bv_omega)

theorem Walked.fault {total : Count} {p : Payload} {f : FaultKind} (h : payloadBit total p = .error f) :
    Walked total p (.raised f p) :=
  .raised (w := []) (by simp) (by simp) (by simp) (payloadBit_error h)

theorem walked_treeWalk (total : Count) (t : CodeTree) (n : Nat) (p : Payload) :
    Walked total p (treeWalk total t n p) := by
  induction t generalizing n p with
  | leaf c =>
    unfold treeWalk
    cases hb : payloadBit total p with
    | error f => exact Walked.fault hb
    | ok e => obtain ⟨b, q⟩ := e; exact Walked.one hb c _
  | fork l r ihl ihr =>
    unfold treeWalk
    cases hb : payloadBit total p with
    | error f => exact Walked.fault hb
    | ok e =>
      obtain ⟨b, q⟩ := e
      cases b with
      | false =>
        cases l with
        | leaf c => exact Walked.one hb c _
        | fork l1 l2 => exact Walked.step hb (ihl (n + 1) q)
      | true =>
        cases r with
        | leaf c => exact Walked.one hb c _
        | fork r1 r2 => exact Walked.step hb (ihr (n + 1) q)

end Machine

end Sys2Proof
end

