-- ==== Sys2Proof/Laws/Serialize.lean ====
section
/-! SUPPORT. What WRH computes and writes. -/

namespace Sys2Proof.Machine

/-- The preorder walk writes the tree field (R72, R114). -/
theorem emit_spec {ns : List Node} {par i : Idx} {t : CodeTree} {is : List Idx} (h : Holds ns par i t is)
    {k : Nat} (hk : t.depth < k) : emit ns k i = .ok t.header := by
  induction h generalizing k with
  | leaf at_ up nil sym =>
    obtain ⟨k, rfl⟩ : ∃ m, k = m + 1 := ⟨k - 1, by omega⟩
    simp [emit, at_, nil, CodeTree.header, sym]
  | fork at_ up left right ihl ihr =>
    simp only [CodeTree.depth] at hk
    obtain ⟨k, rfl⟩ : ∃ m, k = m + 1 := ⟨k - 1, by omega⟩
    have hl := ihl (k := k) (by omega)
    have hr := ihr (k := k) (by omega)
    have hnl := left.root_ne
    simp [emit, at_, Node.isLeaf, hnl, hl, hr, CodeTree.header]

/-- One term of the sum of R112. -/
def term (s : State) (c : Sym) : Nat := (codeOf s c).length * (freqAt s.freq c).toNat

/-- The weight of a present symbol's leaf is its frequency (R28 clause 8, R94). -/
theorem weight_of_present {s : State} (hc : Consistent s) (hb : s.phase = .built) {c : Sym}
    (h : symidxAt s.symidx c ≠ NIL) :
    ∃ n, nodeAt s.node (symidxAt s.symidx c) = some n ∧ n.weight.toNat = (freqAt s.freq c).toNat ∧
      freqAt s.freq c ≠ 0 := by
  obtain ⟨n, hn, hl, hs⟩ := (hc.symbols c _ h).1 rfl
  have := hc.built hb n (mem_of_nodeAt hn)
  simp only [BuiltWeight, hl, if_true, hs] at this
  refine ⟨n, hn, ?_, this.2⟩
  rw [this.1, BitVec.toNat_setWidth]
  exact Nat.mod_eq_of_lt (by have := (freqAt s.freq c).isLt; omega)

theorem encodedBits_spec {s : State} (hc : Consistent s) (hb : s.phase = .built) {code : Table BitStr}
    (hm : Memo s code) (ss : List Sym)
    (hf : ∀ c ∈ ss, symidxAt s.symidx c ≠ NIL → (codeAt code c).isSome = true) (n : Nat) :
    encodedBits s code ss n = .ok (n + (ss.map (term s)).sum) := by
  induction ss generalizing n with
  | nil => simp [encodedBits]
  | cons c ss ih =>
    have ih' := ih fun d hd => hf d (List.mem_cons_of_mem _ hd)
    unfold encodedBits
    by_cases hx : symidxAt s.symidx c = NIL
    · have : codeOf s c = [] := (derive_total hc c).2.2.2 hx
      rw [if_pos hx, ih']
      simp [term, this]
    · rw [if_neg hx]
      obtain ⟨w, hw⟩ := Option.isSome_iff_exists.1 (hf c (by simp) hx)
      obtain ⟨m, hm1, hm2, -⟩ := weight_of_present hc hb hx
      rw [hw, hm1]
      simp only [ih', hm2, term, List.map_cons, List.sum_cons, hm c w hw]
      congr 1; omega

/-- The sum over the symbols in ascending order is the sum over the leaves (R112). -/
theorem sum_term_eq_payload {s : State} (hc : Consistent s) {t : CodeTree} (ht : TreeAt s t) :
    (allSyms.map (term s)).sum = t.payload s.freq := by
  have hzero : ∀ c, c ∉ t.leaves → term s c = 0 := by
    intro c hcl
    have : symidxAt s.symidx c = NIL := by
      by_contra h; exact hcl ((present_iff hc ht c).1 h)
    simp [term, (derive_total hc c).2.2.2 this]
  have hpay : t.payload s.freq = (t.leaves.map (term s)).sum := by
    rw [← CodeTree.codes_map_fst, List.map_map, CodeTree.payload]
    congr 1
    refine List.map_congr_left fun e he => ?_
    simp only [Function.comp, term]
    rw [codeOf_eq hc ht (c := e.1) (w := e.2) he]
  rw [hpay]
  have hsplit : (allSyms.map (term s)).sum =
      ((allSyms.filter fun c => decide (c ∈ t.leaves)).map (term s)).sum := by
    generalize allSyms = l
    induction l with
    | nil => rfl
    | cons c l ih =>
      by_cases h : c ∈ t.leaves
      · simp [h, ih]
      · simp [h, ih, hzero c h]
  rw [hsplit]
  refine ((List.perm_ext_iff_of_nodup (nodup_allSyms.filter _) (ht.leaves_nodup hc)).2 fun c => ?_).map _
    |>.sum_eq
  simp [mem_allSyms]

/-- The count cannot overflow (R84, R112): it is below 2^48. -/
theorem payload_lt {s : State} (hc : Consistent s) {t : CodeTree} (ht : TreeAt s t) :
    t.payload s.freq < 2 ^ 48 := by
  rw [← sum_term_eq_payload hc ht]
  have hb : ∀ c ∈ allSyms, term s c ≤ 255 * (2 ^ 32 - 1) := by
    intro c _
    have h1 := (derive_total hc c).2.1
    have h2 := (freqAt s.freq c).isLt
    simp only [MAXLEN] at h1
    exact Nat.mul_le_mul h1 (by omega)
  have := List.sum_le_card_nsmul (allSyms.map (term s)) (255 * (2 ^ 32 - 1)) (by
    intro x hx
    obtain ⟨c, hc, rfl⟩ := List.mem_map.1 hx
    exact hb c hc)
  have hl : allSyms.length = 256 := by simp [allSyms]
  simp only [List.length_map, hl, smul_eq_mul] at this
  omega

theorem le_payload {s : State} (hc : Consistent s) (hb : s.phase = .built) {t : CodeTree}
    (ht : TreeAt s t) : 1 ≤ t.payload s.freq := by
  obtain ⟨c, hcl⟩ := List.exists_mem_of_length_pos t.leaves_pos
  obtain ⟨w, hw⟩ := CodeTree.code_of_mem_leaves hcl
  have hx := (present_iff hc ht c).2 hcl
  obtain ⟨n, -, -, hf⟩ := weight_of_present hc hb hx
  have h1 : 1 ≤ w.length * (freqAt s.freq c).toNat := by
    have : w.length ≠ 0 := by simpa using CodeTree.code_ne_nil hw
    have : (freqAt s.freq c).toNat ≠ 0 := fun e => hf (BitVec.eq_of_toNat_eq (by simpa using e))
    exact Nat.one_le_iff_ne_zero.2 (by positivity)
  refine h1.trans (List.single_le_sum (by simp) _ ?_)
  exact List.mem_map.2 ⟨(c, w), hw, rfl⟩

/-- The state WRH leaves, before its response. -/
def afterWrh (s : State) (code : Table BitStr) (t : CodeTree) : State :=
  sinkPutAll ((((s.withCode code).withFrozen true).withTotal (BitVec.ofNat WCOUNT (t.payload s.freq))).withPpos 0)
    (msb (BitVec.ofNat WCOUNT (t.payload s.freq)) ++ t.header)

/-- WRH, in one statement: in a consistent state with a built tree it completes, with every present symbol
cached, and writes the count and the tree (R110 to R114). -/
theorem wrhBody_spec {s : State} (hc : Consistent s) (hb : s.phase = .built) {t : CodeTree}
    (ht : TreeAt s t) :
    ∃ code', wrhBody s = .done { r1 := BitVec.ofNat WCOUNT (t.payload s.freq) } (afterWrh s code' t) ∧
      Memo s code' ∧ (∀ u, codeAt code' u = filled s s.code allSyms u) ∧
      (∀ c, symidxAt s.symidx c ≠ NIL → (codeAt code' c).isSome = true) ∧
      (Table.wf (fun w => w.isEmpty) s.code = true → Table.wf (fun w => w.isEmpty) code' = true) := by
  obtain ⟨code', h1, hm, hf, hw⟩ := getcodes_spec hc allSyms hc.memo
  have hall : ∀ c, symidxAt s.symidx c ≠ NIL → (codeAt code' c).isSome = true := by
    intro c hx
    rw [hf c, filled]
    have hne : codeOf s c ≠ [] := fun e => hx ((derive_total hc c).2.2.1 e)
    cases hfz : s.frozen with
    | false => simp [mem_allSyms, hne]
    | true =>
      obtain ⟨w, hw⟩ := Option.isSome_iff_exists.1 ((hc.freeze hfz).2.2 c hx)
      simp [hw]
  have hd := ht.depth_le hc.arena
  have hs := sum_term_eq_payload hc ht
  have he := encodedBits_spec hc hb hm allSyms (fun c _ => hall c) 0
  obtain ⟨is, hh, -, -⟩ := ht
  have hem := emit_spec hh (k := MAXLEN + 1) (by omega)
  refine ⟨code', ?_, hm, hf, hall, hw⟩
  unfold wrhBody
  simp only [h1, he, hem, Nat.zero_add, hs, afterWrh]

end Sys2Proof.Machine
end

