-- ==== Sys2Proof/Laws/Commands.lean ====
section
/-! SUPPORT. What each command answers in a consistent state, and that it leaves a consistent state. -/

namespace Sys2Proof.Machine

/-! ### The dispatch rule (R80) -/

theorem respond_eq (opc : Opc) (r : Reply) (s : State) :
    respond opc r s = answer ⟨0#4 ++ opc ++ 0#40 ++ r.len ++ r.sym, r.r1, r.cb⟩ s := rfl

theorem faultResponse_eq (code : BitVec 4) (opc : Opc) : faultResponse code opc = ⟨code ++ opc ++ 0#56, 0, 0⟩ := by
  have : packR0 code opc 0 0 = code ++ opc ++ 0#56 := by
    apply BitVec.eq_of_getLsbD_eq
    intro i hi
    simp only [packR0, BitVec.getLsbD_append, BitVec.getLsbD_zero]
    by_cases h1 : i < 8
    · simp [h1, show i < 56 by omega]
    · by_cases h2 : i - 8 < 8
      · simp [h1, h2, show i < 56 by omega]
      · by_cases h3 : i - 8 - 8 < 40
        · simp [h1, h2, h3, show i < 56 by omega]
        · simp only [h1, h2, h3, show ¬ i < 56 by omega, decide_false, Bool.false_eq_true, ite_false]
          simp [show i - 8 - 8 - 40 = i - 56 by omega]
  rw [faultResponse, this]

theorem takeFault_eq {s : State} (h : s.err = 0) (k : FaultKind) (opc : Opc) :
    takeFault k opc s = faulted k.code opc s := by
  rw [takeFault, if_pos h, faultResponse_eq, faulted]

theorem dispatch_refused {s : State} (h : s.err ≠ 0) (opc : Opc) (legal : State → Bool)
    (body : State → Ending) : dispatch opc legal body s = .next (refuse opc s) := by
  rw [dispatch, if_pos h]

theorem dispatch_illegal {s : State} (h : s.err = 0) (opc : Opc) {legal : State → Bool}
    (hl : legal s = false) (body : State → Ending) :
    dispatch opc legal body s = .next (faulted 6 opc s) := by
  rw [dispatch, if_neg (by simp [h]), hl, takeFault_eq h]; rfl

theorem dispatch_legal {s : State} (h : s.err = 0) (opc : Opc) {legal : State → Bool}
    (hl : legal s = true) (body : State → Ending) : dispatch opc legal body s = conclude opc (body s) := by
  rw [dispatch, if_neg (by simp [h]), if_pos hl]

theorem conclude_raised {k : FaultKind} {t : State} (h : t.err = 0) (opc : Opc) :
    conclude opc (.raised k t) = .next (faulted k.code opc t) := by
  rw [conclude, takeFault_eq h]

theorem conclude_done (opc : Opc) (r : Reply) (t : State) : conclude opc (.done r t) = .next (respond opc r t) := rfl

/-- How a command can end, in one statement. -/
theorem dispatch_cases {opc : Opc} {legal : State → Bool} {body : State → Ending} {s t : State}
    (h : dispatch opc legal body s = .next t) :
    (s.err ≠ 0 ∧ t = refuse opc s) ∨
    (s.err = 0 ∧ legal s = false ∧ t = faulted 6 opc s) ∨
    (s.err = 0 ∧ legal s = true ∧ ((∃ r u, body s = .done r u ∧ t = respond opc r u) ∨
      (∃ k u, body s = .raised k u ∧ t = takeFault k opc u))) := by
  by_cases he : s.err = 0
  · cases hl : legal s with
    | false =>
      rw [dispatch_illegal he opc hl] at h
      exact .inr (.inl ⟨he, rfl, by injection h with h; exact h.symm⟩)
    | true =>
      rw [dispatch_legal he opc hl] at h
      refine .inr (.inr ⟨he, rfl, ?_⟩)
      cases hb : body s with
      | done r u => rw [hb] at h; injection h with h; exact .inl ⟨r, u, rfl, h.symm⟩
      | raised k u => rw [hb] at h; injection h with h; exact .inr ⟨k, u, rfl, h.symm⟩
      | stuck f => rw [hb] at h; simp [conclude] at h
  · rw [dispatch_refused he] at h
    exact .inl ⟨he, by injection h with h; exact h.symm⟩

/-! ### Consistent states and the setters -/

/-- What `Consistent` reads. -/
theorem Consistent.congr {s t : State} (h : Consistent s) (h1 : t.freq = s.freq) (h2 : t.node = s.node)
    (h3 : t.symidx = s.symidx) (h4 : t.code = s.code) (h5 : t.root = s.root) (h6 : t.phase = s.phase)
    (h7 : t.frozen = s.frozen) (h8 : t.total = s.total) (h9 : t.ppos = s.ppos) : Consistent t := by
  obtain ⟨a, b, c, d, e, f, g, i, j, k⟩ := h
  constructor
  · rw [h2]; exact a
  · rw [h2, h3, h4, h5, h6, h7, h8, h9]; exact b
  · rw [h2, h5]; exact c
  · unfold TreeAt at d ⊢; rw [h2, h5]; exact d
  · rw [h2, h3]; exact e
  · rw [h2, h3, h4, h5]; exact f
  · rw [h3, h4, h5, h6, h7]; exact g
  · unfold BuiltWeight at i ⊢; rw [h1, h2, h6]; exact i
  · rw [h2, h5, h6]; exact j
  · rw [h2]; exact k

/-- The counters are free outside phase EMPTY. -/
theorem Consistent.counters {s t : State} (h : Consistent s) (hp : s.phase ≠ .empty) (h1 : t.freq = s.freq)
    (h2 : t.node = s.node) (h3 : t.symidx = s.symidx) (h4 : t.code = s.code) (h5 : t.root = s.root)
    (h6 : t.phase = s.phase) (h7 : t.frozen = s.frozen) : Consistent t := by
  obtain ⟨a, b, c, d, e, f, g, i, j, k⟩ := h
  constructor
  · rw [h2]; exact a
  · rw [h6]; exact fun h => absurd h hp
  · rw [h2, h5]; exact c
  · unfold TreeAt at d ⊢; rw [h2, h5]; exact d
  · rw [h2, h3]; exact e
  · rw [h2, h3, h4, h5]; exact f
  · rw [h3, h4, h5, h6, h7]; exact g
  · unfold BuiltWeight at i ⊢; rw [h1, h2, h6]; exact i
  · rw [h2, h5, h6]; exact j
  · rw [h2]; exact k

theorem filled_eq {s : State} (hc : Consistent s) (ss : List Sym) {code : Table BitStr}
    (h : ∀ u, codeAt code u = filled s s.code ss u) : LookedUp s ss code := by
  intro c
  rw [h c, filled]
  congr 1
  rw [derived, (derive_total hc c).1]
  by_cases h1 : c ∈ ss <;> by_cases h2 : codeOf s c = [] <;> by_cases h3 : s.frozen = false <;>
    simp_all

theorem find_none_iff {α : Type} {t : Table α} : (∀ u, Table.find t u = none) ↔ t = [] := by
  constructor
  · intro h
    cases t with
    | nil => rfl
    | cons e t => obtain ⟨k, v⟩ := e; have := h k; simp [Table.find] at this
  · rintro rfl u; rfl

/-- A lookup leaves a consistent state. -/
theorem Consistent.lookedUp {s : State} (hc : Consistent s) {ss : List Sym} {code : Table BitStr}
    (h : LookedUp s ss code) : Consistent (s.withCode code) := by
  have hd : ∀ c w, derived s c = some w →
      symidxAt s.symidx c ≠ NIL ∧ derive s.node s.symidx s.root c = .ok w := by
    intro c w hw
    have ht := derive_total hc c
    rw [derived, ht.1] at hw
    simp only [List.isEmpty_iff, Option.ite_none_left_eq_some, Option.some.injEq] at hw
    refine ⟨fun e => hw.1 (ht.2.2.2 e), ?_⟩
    rw [ht.1, hw.2]
  refine ⟨hc.arena, fun hp => ?_, hc.rooted, hc.tree, hc.symbols, fun c w hw => ?_, fun hf => ?_, hc.built,
    hc.read, hc.internal⟩
  · obtain ⟨h1, h2, h3, h4, h5⟩ := hc.fresh hp
    refine ⟨h1, h2, h3, ?_, h5⟩
    refine find_none_iff.1 fun u => ?_
    have := h u
    have hx : derived s u = none := by
      rw [derived, derive_absent (by rw [h3]; rfl)]; rfl
    rw [hx, h4] at this
    simpa [codeAt, Table.find] using this
  · have := h c
    simp only [withCode_code] at hw
    rw [hw] at this
    cases ho : codeAt s.code c with
    | some v =>
      rw [ho] at this
      simp only [Option.some_or, Option.some.injEq] at this
      subst this
      exact hc.cache c w ho
    | none =>
      rw [ho, Option.none_or] at this
      split at this
      · exact hd c w this.symm
      · simp at this
  · obtain ⟨h1, h2, h3⟩ := hc.freeze hf
    refine ⟨h1, h2, fun c hx => ?_⟩
    obtain ⟨w, hw⟩ := Option.isSome_iff_exists.1 (h3 c hx)
    simp only [withCode_code]
    rw [h c, hw]; rfl

theorem LookedUp.tree {s : State} {t : CodeTree} (code : Table BitStr) (h : TreeAt s t) : TreeAt (s.withCode code) t := h

/-! ### GETC, ENC (R100, R130) -/

theorem putPayload_eq (s : State) (c : BitStr) :
    putPayload s c = (s.withSink (s.sink ++ c)).withPpos (s.ppos + BitVec.ofNat 64 c.length) := by
  induction c generalizing s with
  | nil => cases s; simp [putPayload, State.withSink, State.withPpos]
  | cons b c ih =>
    have e : s.ppos + BitVec.ofNat 64 (b :: c).length = s.ppos + 1 + BitVec.ofNat 64 c.length := by
      rw [BitVec.add_assoc]; congr 1
      apply BitVec.eq_of_toNat_eq; simp; omega
    rw [putPayload, ih, e]
    cases s
    simp [State.withSink, State.withPpos, sinkPut]

theorem getcBody_spec {s : State} (hc : Consistent s) (c : Sym) :
    ∃ code, getcBody c s = .done { len := BitVec.ofNat 8 (codeOf s c).length, cb := pack (codeOf s c) } (s.withCode code) ∧
      LookedUp s [c] code ∧
      (Table.wf (fun w => w.isEmpty) s.code = true → Table.wf (fun w => w.isEmpty) code = true) := by
  obtain ⟨code, h1, -, h3, h4⟩ := getcode_spec hc hc.memo c
  exact ⟨code, by rw [getcBody, h1], filled_eq hc _ h3, h4⟩

theorem encBody_spec {s : State} (hc : Consistent s) (c : Sym) :
    ∃ code, LookedUp s [c] code ∧
      (Table.wf (fun w => w.isEmpty) s.code = true → Table.wf (fun w => w.isEmpty) code = true) ∧
      encBody c s = if codeOf s c = [] then .raised .unknownSymbol (s.withCode code)
        else .done { len := BitVec.ofNat 8 (codeOf s c).length } (putPayload (s.withCode code) (codeOf s c)) := by
  obtain ⟨code, h1, -, h3, h4⟩ := getcode_spec hc hc.memo c
  refine ⟨code, filled_eq hc _ h3, h4, ?_⟩
  rw [encBody, h1]
  simp only [List.isEmpty_iff]

/-- An absent symbol's lookup changes nothing. -/
theorem getcode_absent {s : State} (hc : Consistent s) {c : Sym} (h : symidxAt s.symidx c = NIL) :
    getcode s s.code c = .ok ([], s.code) := by
  unfold getcode
  cases ho : codeAt s.code c with
  | some w => exact absurd h (hc.cache c w ho).1
  | none => simp [derive_absent h]

/-! ### DEC, DECM (R140, R145) -/

theorem decBody_spec {s : State} (hc : Consistent s) {t : CodeTree} (ht : TreeAt s t) :
    decBody s = decoded s (treeWalk s.total t 0 ⟨s.ppos, s.src⟩) := by
  have hd := ht.depth_le hc.arena
  obtain ⟨is, hh, -, -⟩ := ht
  rw [decBody, walkDown_eq hh s.total hd (by simp [MAXLEN])]

theorem decmBody_spec {s : State} (hc : Consistent s) :
    ∃ code, LookedUp s allSyms code ∧
      (Table.wf (fun w => w.isEmpty) s.code = true → Table.wf (fun w => w.isEmpty) code = true) ∧
      decmBody s = decoded (s.withCode code) (matchBits s.symidx (allSyms.map fun c => (c, codeOf s c)) s.total
        MAXLEN [] ⟨s.ppos, s.src⟩) := by
  obtain ⟨code, h1, -, h3, h4⟩ := getcodes_spec hc allSyms hc.memo
  exact ⟨code, filled_eq hc _ h3, h4, by rw [decmBody, h1]⟩

theorem matchBits_fork {s : State} (hc : Consistent s) {l r : CodeTree} (ht : TreeAt s (.fork l r)) (p : Payload) :
    matchBits s.symidx (allSyms.map fun c => (c, codeOf s c)) s.total MAXLEN [] p =
      treeWalk s.total (.fork l r) 0 p := by
  have := matchBits_eq hc ht s.total (cand := []) (by simp) (ht.depth_le hc.arena) p
  simpa using this

/-- The loop of DECM never stops. -/
theorem walked_matchBits (sx : Table Idx) (codes : List (Sym × BitStr)) (total : Count) (k : Nat)
    (cand : BitStr) (p : Payload) :
    (∃ c m q, matchBits sx codes total k cand p = .symbol c m q) ∨
      (∃ f q, matchBits sx codes total k cand p = .raised f q ∧
        (f = .malformedHeader ∨ f = .truncatedStream)) := by
  induction k generalizing cand p with
  | zero => exact .inr ⟨_, _, rfl, .inl rfl⟩
  | succ k ih =>
    unfold matchBits
    cases h : payloadBit total p with
    | error f => exact .inr ⟨f, p, rfl, (payloadBit_error h).imp And.left And.left⟩
    | ok r =>
      obtain ⟨b, q⟩ := r
      simp only
      cases matchCode sx (cand ++ [b]) codes with
      | some c => exact .inl ⟨c, _, q, rfl⟩
      | none => exact ih _ q

/-- What the payload loops move in any case: bits from the source, PPOS by as many, below TOTAL. -/
theorem moved_matchBits (sx : Table Idx) (codes : List (Sym × BitStr)) (total : Count) (k : Nat)
    (cand : BitStr) (p : Payload) {q : Payload}
    (h : (∃ c m, matchBits sx codes total k cand p = .symbol c m q) ∨
      ∃ f, matchBits sx codes total k cand p = .raised f q) :
    ∃ w, p.src = w ++ q.src ∧ q.ppos = p.ppos + BitVec.ofNat 64 w.length ∧
      (w ≠ [] → p.ppos.toNat + w.length ≤ total.toNat) ∧ w.length ≤ k := by
  induction k generalizing cand p with
  | zero =>
    rcases h with ⟨c, m, h⟩ | ⟨f, h⟩
    · simp [matchBits] at h
    · simp only [matchBits, Decoded.raised.injEq] at h
      exact ⟨[], by simp [h.2]⟩
  | succ k ih =>
    unfold matchBits at h
    cases hb : payloadBit total p with
    | error f =>
      rw [hb] at h
      rcases h with ⟨c, m, h⟩ | ⟨f', h⟩
      · simp at h
      · simp only [Decoded.raised.injEq] at h
        exact ⟨[], by simp [h.2]⟩
    | ok r =>
      obtain ⟨b, q'⟩ := r
      rw [hb] at h
      simp only at h
      obtain ⟨h1, h2, h3⟩ := payloadBit_ok hb
      have hn := toNat_succ_of_lt h3
      have hlt : p.ppos.toNat < total.toNat := h3
      cases hm : matchCode sx (cand ++ [b]) codes with
      | some c =>
        rw [hm] at h
        rcases h with ⟨c, m, h⟩ | ⟨f, h⟩
        · simp only [Decoded.symbol.injEq] at h
          obtain ⟨-, -, rfl⟩ := h
          exact ⟨[b], by simpa using h1, by simpa using h2, fun _ => by simp; omega, by simp⟩
        · simp at h
      | none =>
        rw [hm] at h
        obtain ⟨w, e1, e2, e3, e4⟩ := ih (cand ++ [b]) q' h
        refine ⟨b :: w, by rw [h1, e1]; rfl, ?_, fun _ => ?_, by simp; omega⟩
        · rw [e2, h2, BitVec.add_assoc]; congr 1
          apply BitVec.eq_of_toNat_eq; simp; omega
        · by_cases hw : w = []
          · subst hw; simp; omega
          · have := e3 hw
            rw [h2, hn] at this
            simp; omega

/-- The same for the loop of DEC. -/
theorem moved_walkDown (ns : List Node) (total : Count) (k : Nat) (cur : Idx) (n : Nat) (p : Payload)
    {q : Payload} (h : (∃ c m, walkDown ns total k cur n p = .symbol c m q) ∨
      ∃ f, walkDown ns total k cur n p = .raised f q) :
    ∃ w, p.src = w ++ q.src ∧ q.ppos = p.ppos + BitVec.ofNat 64 w.length ∧
      (w ≠ [] → p.ppos.toNat + w.length ≤ total.toNat) ∧ w.length ≤ k := by
  induction k generalizing cur n p with
  | zero => simp [walkDown] at h
  | succ k ih =>
    unfold walkDown at h
    cases hb : payloadBit total p with
    | error f =>
      rw [hb] at h
      rcases h with ⟨c, m, h⟩ | ⟨f', h⟩
      · simp at h
      · simp only [Decoded.raised.injEq] at h
        exact ⟨[], by simp [h.2]⟩
    | ok r =>
      obtain ⟨b, q'⟩ := r
      rw [hb] at h
      simp only at h
      obtain ⟨h1, h2, h3⟩ := payloadBit_ok hb
      have hn := toNat_succ_of_lt h3
      have hlt : p.ppos.toNat < total.toNat := h3
      cases hc : nodeAt ns cur with
      | none => simp [hc] at h
      | some c =>
        rw [hc] at h
        simp only at h
        cases hd : nodeAt ns (moveCursor c cur b) with
        | none => simp [hd] at h
        | some d =>
          rw [hd] at h
          simp only at h
          split at h
          · rcases h with ⟨c, m, h⟩ | ⟨f, h⟩
            · simp only [Decoded.symbol.injEq] at h
              obtain ⟨-, -, rfl⟩ := h
              exact ⟨[b], by simpa using h1, by simpa using h2, fun _ => by simp; omega, by simp⟩
            · simp at h
          · obtain ⟨w, e1, e2, e3, e4⟩ := ih _ _ q' h
            refine ⟨b :: w, by rw [h1, e1]; rfl, ?_, fun _ => ?_, by simp; omega⟩
            · rw [e2, h2, BitVec.add_assoc]; congr 1
              apply BitVec.eq_of_toNat_eq; simp; omega
            · by_cases hw : w = []
              · subst hw; simp; omega
              · have := e3 hw
                rw [h2, hn] at this
                simp; omega

/-! ### RDH (R120) -/

/-- A tree of distinct symbols fits the arena (R12). -/
theorem CodeTree.size_le_of_nodup {t : CodeTree} (h : t.leaves.Nodup) : t.size ≤ NNODE := by
  have h1 : t.leaves.length ≤ allSyms.length :=
    (h.subperm fun c _ => mem_allSyms c).length_le
  have h2 : allSyms.length = 256 := by simp [allSyms]
  have := t.size_eq
  simp only [NNODE]; omega

/-- The state RDH leaves, before its response, where it completes. -/
def afterRdh (s : State) (total : Count) (q : Parsing) : State :=
  ((((s.withTotal total).withPpos 0).withParsing q).withRoot 0).withPhase .read

theorem rdhBody_made {s : State} (hc : Consistent s) (he : s.phase = .empty) {r : Reply} {u : State}
    (h : rdhBody s = .done r u) :
    ∃ (total : Count) (t : CodeTree) (q : Parsing), s.src = msb total ++ (t.header ++ q.src) ∧
      Made NIL ⟨t.header ++ q.src, [], []⟩ 0 q t ∧ r = { r1 := total } ∧ u = afterRdh s total q := by
  obtain ⟨h1, h2, h3, -⟩ := hc.fresh he
  unfold rdhBody at h
  rw [readField_eq] at h
  by_cases hl : WCOUNT ≤ s.src.length
  · rw [if_pos hl] at h
    simp only [h1, h3] at h
    cases hp : parse NNODE NIL ⟨s.src.drop WCOUNT, [], []⟩ with
    | raised k p => rw [hp] at h; simp at h
    | made i q =>
      rw [hp] at h
      simp only [Ending.done.injEq] at h
      obtain ⟨t, hm⟩ := parse_made _ hp
      have hsrc : s.src.drop WCOUNT = t.header ++ q.src := hm.src
      have hi : i = 0 := by have := hm.root; simpa [nextIdx] using this
      subst hi
      refine ⟨BitVec.ofNat WCOUNT (shiftIn 0 (s.src.take WCOUNT)), t, q, ?_, ?_, h.1.symm, h.2.symm⟩
      · rw [msb_shiftIn _ (by simp [hl]), ← hsrc, List.take_append_drop]
      · rw [hsrc] at hm; exact hm
  · rw [if_neg hl] at h; simp at h

/-- Where the source starts with a header of distinct symbols, RDH completes. -/
theorem rdhBody_header {s : State} (hc : Consistent s) (he : s.phase = .empty) {total : Count} {t : CodeTree}
    {rest : BitStr} (hs : s.src = msb total ++ (t.header ++ rest)) (hn : t.leaves.Nodup) :
    ∃ q, q.src = rest ∧ Made NIL ⟨t.header ++ rest, [], []⟩ 0 q t ∧
      rdhBody s = .done { r1 := total } (afterRdh s total q) := by
  obtain ⟨h1, h2, h3, -⟩ := hc.fresh he
  have hsz := CodeTree.size_le_of_nodup hn
  obtain ⟨i, q, hp⟩ := parse_header t NNODE NIL ⟨t.header ++ rest, [], []⟩ rest rfl (by simpa using hsz)
    (by simp) hn (fun c _ => rfl)
  obtain ⟨t', hm⟩ := parse_made _ hp
  obtain ⟨rfl, hq⟩ := CodeTree.header_append_inj (show t.header ++ rest = t'.header ++ q.src from hm.src)
  have hi : i = 0 := by have := hm.root; simpa [nextIdx] using this
  subst hi
  refine ⟨q, hq.symm, hm, ?_⟩
  unfold rdhBody
  rw [hs, readField_msb]
  simp only [h1, h3, hp, BitVec.ofNat_toNat, BitVec.setWidth_eq]
  rfl

/-- What RDH leaves is consistent, and holds the tree. -/
theorem consistent_afterRdh {s : State} (hc : Consistent s) (he : s.phase = .empty) {total : Count}
    {t : CodeTree} {q : Parsing} {src : BitStr} (hm : Made NIL ⟨src, [], []⟩ 0 q t) :
    Consistent (afterRdh s total q) ∧ TreeAt (afterRdh s total q) t := by
  obtain ⟨h1, h2, h3, h4, h5, -⟩ := hc.fresh he
  have hlen : q.node.length = t.size := by have := hm.length; simpa using this
  have hroom : t.size ≤ NNODE := by have := hm.room; simpa using this
  have htree : TreeAt (afterRdh s total q) t :=
    ⟨_, hm.held, idxs_nodup (by simpa using hroom), by rw [idxs_length]; exact hlen.symm⟩
  have hpos := t.size_pos
  have hread : ∀ n ∈ q.node, n.weight = 0 ∧ (n.isLeaf = false → n.symbol = 0) :=
    (forall_mem_iff (by omega) _).2 fun j n hj => hm.fields j n (by simp) hj
  refine ⟨⟨?_, fun h => (by cases h), ?_, fun _ => ⟨t, htree⟩, ?_, fun c w h => ?_, fun h => ?_,
    fun h => (by cases h), fun _ => ⟨show (0 : Idx) ≠ NIL by decide, fun n hn => (hread n hn).1⟩, fun n hn => (hread n hn).2⟩, htree⟩
  · show q.node.length ≤ NNODE; omega
  · constructor
    · intro h; exact absurd h (show ¬ (0 : Idx) = NIL by decide)
    · intro h
      have : q.node = [] := h
      rw [this] at hlen; simp at hlen; omega
  · intro c i hi
    show symidxAt q.symidx c = i ↔ ∃ n, nodeAt q.node i = some n ∧ n.isLeaf = true ∧ n.symbol = c
    constructor
    · rintro rfl
      by_cases hmem : c ∈ t.leaves
      · exact (hm.present c hmem).2
      · exact absurd (hm.keep c hmem) hi
    · rintro ⟨n, hn, hnl, rfl⟩
      have hcov : i ∈ idxs 0 t.size :=
        mem_of_covering (idxs_nodup (by simpa using hroom)) (by rw [idxs_length]; exact hlen.symm)
          (fun j hj => hm.held.at_mem hj) hn
      have hmem := hm.held.mem_leaves hcov hn hnl
      obtain ⟨-, m, hj, hml, hms⟩ := hm.present _ hmem
      -- a second leaf of the same symbol would be a second occurrence in the leaf list
      by_contra hne
      exact hne (hm.held.leaf_index_unique (idxs_nodup (by simpa using hroom)) hm.nodup
        (mem_of_covering (idxs_nodup (by simpa using hroom)) (by rw [idxs_length]; exact hlen.symm)
          (fun j hj => hm.held.at_mem hj) hj) hcov hj hn hml hnl hms)
  · have : codeAt s.code c = some w := h
    rw [h4] at this; simp [codeAt, Table.find] at this
  · have : s.frozen = true := h
    rw [h5] at this; cases this

end Sys2Proof.Machine
end

