-- ==== Sys2Proof/Laws/Answers.lean ====
section
/-! SUPPORT. The field lemmas of the two answers statements speak of, `completed` and `faulted`. -/

namespace Sys2Proof.Machine

variable (s : State) (opc : Opc)

theorem respond_completed (len : Nat) (sym : Sym) (r1 : BitVec 64) (cb : BitVec 256) :
    respond opc ⟨BitVec.ofNat 8 len, sym, r1, cb⟩ s = completed opc s len sym r1 cb := rfl

@[simp] theorem completed_freq (len : Nat) (sym : Sym) (r1 : BitVec 64) (cb : BitVec 256) :
    (completed opc s len sym r1 cb).freq = s.freq := rfl
@[simp] theorem completed_node (len : Nat) (sym : Sym) (r1 : BitVec 64) (cb : BitVec 256) :
    (completed opc s len sym r1 cb).node = s.node := rfl
@[simp] theorem completed_symidx (len : Nat) (sym : Sym) (r1 : BitVec 64) (cb : BitVec 256) :
    (completed opc s len sym r1 cb).symidx = s.symidx := rfl
@[simp] theorem completed_code (len : Nat) (sym : Sym) (r1 : BitVec 64) (cb : BitVec 256) :
    (completed opc s len sym r1 cb).code = s.code := rfl
@[simp] theorem completed_root (len : Nat) (sym : Sym) (r1 : BitVec 64) (cb : BitVec 256) :
    (completed opc s len sym r1 cb).root = s.root := rfl
@[simp] theorem completed_phase (len : Nat) (sym : Sym) (r1 : BitVec 64) (cb : BitVec 256) :
    (completed opc s len sym r1 cb).phase = s.phase := rfl
@[simp] theorem completed_frozen (len : Nat) (sym : Sym) (r1 : BitVec 64) (cb : BitVec 256) :
    (completed opc s len sym r1 cb).frozen = s.frozen := rfl
@[simp] theorem completed_total (len : Nat) (sym : Sym) (r1 : BitVec 64) (cb : BitVec 256) :
    (completed opc s len sym r1 cb).total = s.total := rfl
@[simp] theorem completed_ppos (len : Nat) (sym : Sym) (r1 : BitVec 64) (cb : BitVec 256) :
    (completed opc s len sym r1 cb).ppos = s.ppos := rfl
@[simp] theorem completed_err (len : Nat) (sym : Sym) (r1 : BitVec 64) (cb : BitVec 256) :
    (completed opc s len sym r1 cb).err = s.err := rfl
@[simp] theorem completed_cmds (len : Nat) (sym : Sym) (r1 : BitVec 64) (cb : BitVec 256) :
    (completed opc s len sym r1 cb).cmds = s.cmds := rfl
@[simp] theorem completed_src (len : Nat) (sym : Sym) (r1 : BitVec 64) (cb : BitVec 256) :
    (completed opc s len sym r1 cb).src = s.src := rfl
@[simp] theorem completed_sink (len : Nat) (sym : Sym) (r1 : BitVec 64) (cb : BitVec 256) :
    (completed opc s len sym r1 cb).sink = s.sink := rfl
@[simp] theorem completed_resps (len : Nat) (sym : Sym) (r1 : BitVec 64) (cb : BitVec 256) :
    (completed opc s len sym r1 cb).resps = s.resps ++ [⟨packR0 0 opc (BitVec.ofNat 8 len) sym, r1, cb⟩] := rfl

@[simp] theorem faulted_freq (c : BitVec 4) : (faulted c opc s).freq = s.freq := rfl
@[simp] theorem faulted_node (c : BitVec 4) : (faulted c opc s).node = s.node := rfl
@[simp] theorem faulted_symidx (c : BitVec 4) : (faulted c opc s).symidx = s.symidx := rfl
@[simp] theorem faulted_code (c : BitVec 4) : (faulted c opc s).code = s.code := rfl
@[simp] theorem faulted_root (c : BitVec 4) : (faulted c opc s).root = s.root := rfl
@[simp] theorem faulted_phase (c : BitVec 4) : (faulted c opc s).phase = s.phase := rfl
@[simp] theorem faulted_frozen (c : BitVec 4) : (faulted c opc s).frozen = s.frozen := rfl
@[simp] theorem faulted_total (c : BitVec 4) : (faulted c opc s).total = s.total := rfl
@[simp] theorem faulted_ppos (c : BitVec 4) : (faulted c opc s).ppos = s.ppos := rfl
@[simp] theorem faulted_err (c : BitVec 4) : (faulted c opc s).err = c := rfl
@[simp] theorem faulted_cmds (c : BitVec 4) : (faulted c opc s).cmds = s.cmds := rfl
@[simp] theorem faulted_src (c : BitVec 4) : (faulted c opc s).src = s.src := rfl
@[simp] theorem faulted_sink (c : BitVec 4) : (faulted c opc s).sink = s.sink := rfl
@[simp] theorem faulted_resps (c : BitVec 4) : (faulted c opc s).resps = s.resps ++ [faultResponse c opc] := by
  rw [faultResponse_eq]; rfl

end Sys2Proof.Machine
end

