-- ==== Sys2Proof/Laws/Header.lean ====
section
/-! SUPPORT. Where RDH's `parse` stops short of a tree, and how much it has read by then (44_deserializer.md
R123, R124; 70_reset_and_hazards.md R206). -/

namespace Sys2Proof

/-- The nodes of a tree in the order of R70. -/
def CodeTree.tags : CodeTree → List (Option Sym)
  | .leaf c => [some c]
  | .fork l r => none :: (l.tags ++ r.tags)

namespace Machine

@[simp] theorem tagBits_append (ts us : List (Option Sym)) : tagBits (ts ++ us) = tagBits ts ++ tagBits us := by
  induction ts with
  | nil => rfl
  | cons t ts ih => cases t <;> simp [tagBits, ih]

@[simp] theorem tagSyms_append (ts us : List (Option Sym)) : tagSyms (ts ++ us) = tagSyms ts ++ tagSyms us := by
  induction ts with
  | nil => rfl
  | cons t ts ih => cases t <;> simp [tagSyms, ih]

@[simp] theorem mem_tagSyms {ts : List (Option Sym)} {c : Sym} : c ∈ tagSyms ts ↔ some c ∈ ts := by
  induction ts with
  | nil => simp [tagSyms]
  | cons t ts ih => cases t <;> simp [tagSyms, ih]

theorem tagBits_length (ts : List (Option Sym)) :
    (tagBits ts).length = ts.length + 8 * (tagSyms ts).length := by
  induction ts with
  | nil => rfl
  | cons t ts ih => cases t <;> simp [tagBits, tagSyms, ih] <;> omega

@[simp] theorem tagBits_tags (t : CodeTree) : tagBits t.tags = t.header := by
  induction t with
  | leaf c => simp [CodeTree.tags, tagBits, CodeTree.header]
  | fork l r ihl ihr => simp [CodeTree.tags, tagBits, CodeTree.header, ihl, ihr]

@[simp] theorem tagSyms_tags (t : CodeTree) : tagSyms t.tags = t.leaves := by
  induction t with
  | leaf c => rfl
  | fork l r ihl ihr => simp [CodeTree.tags, tagSyms, CodeTree.leaves, ihl, ihr]

@[simp] theorem tags_length (t : CodeTree) : t.tags.length = t.size := by
  induction t with
  | leaf c => rfl
  | fork l r ihl ihr => simp [CodeTree.tags, CodeTree.size, ihl, ihr]; omega

theorem pending_tags (t : CodeTree) (n : Nat) (ts : List (Option Sym)) :
    pending (n + 1) (t.tags ++ ts) = pending n ts := by
  induction t generalizing n ts with
  | leaf c => rfl
  | fork l r ihl ihr => simp [CodeTree.tags, pending, ihl, ihr]

theorem pending_succ (ts : List (Option Sym)) {n : Nat} (h : pending n ts ≠ 0) : pending (n + 1) ts ≠ 0 := by
  induction ts generalizing n with
  | nil => simp [pending]
  | cons t ts ih =>
    cases n with
    | zero => simp [pending] at h
    | succ n => cases t <;> simp only [pending] at h ⊢ <;> exact ih h

/-- While subtrees are to come, each leaf has ended one and each internal node has opened one more. -/
theorem pending_count (ts : List (Option Sym)) {n : Nat} (h : pending n ts ≠ 0) :
    pending n ts + 2 * (tagSyms ts).length = n + ts.length := by
  induction ts generalizing n with
  | nil => cases n <;> simp [pending, tagSyms]
  | cons t ts ih =>
    cases n with
    | zero => simp [pending] at h
    | succ n =>
      cases t <;> simp only [pending] at h ⊢ <;> have := ih h <;> simp [tagSyms] <;> omega

/-- Nodes read one after another leave their tree unfinished or begin with the nodes of a whole tree. -/
theorem unfinished_or_tree (m : Nat) (ts : List (Option Sym)) (hm : ts.length ≤ m) :
    pending 1 ts ≠ 0 ∨ ∃ t us, ts = CodeTree.tags t ++ us := by
  induction m generalizing ts with
  | zero => obtain rfl : ts = [] := by simpa using hm
            simp [pending]
  | succ m ih =>
    match ts with
    | [] => simp [pending]
    | some c :: ts => exact .inr ⟨.leaf c, ts, rfl⟩
    | none :: ts =>
      simp only [List.length_cons] at hm
      rcases ih ts (by omega) with h | ⟨l, us, rfl⟩
      · exact .inl (pending_succ ts h)
      · simp only [List.length_append] at hm
        rcases ih us (by omega) with h | ⟨r, vs, rfl⟩
        · exact .inl (by rw [pending, pending_tags]; exact h)
        · exact .inr ⟨.fork l r, vs, by simp [CodeTree.tags]⟩

/-- `Stop m seen f r r'`: with `m` entries allocated and the symbols of `seen` on leaves, a node read from `r`
raises `f`, and `r'` is left (R123, R124). -/
inductive Stop (m : Nat) (seen : Sym → Prop) : FaultKind → BitStr → BitStr → Prop where
  | noTag : Stop m seen .truncatedStream [] []
  | noSymbol {v : BitStr} (room : m < NNODE) (short : v.length < WSYM) : Stop m seen .truncatedStream (true :: v) []
  | full {b : Bool} {rest : BitStr} (full : NNODE ≤ m) : Stop m seen .malformedHeader (b :: rest) rest
  | duplicate {c : Sym} {rest : BitStr} (room : m < NNODE) (has : seen c) :
      Stop m seen .malformedHeader (true :: (msb c ++ rest)) rest

theorem Stop.mono {m : Nat} {P Q : Sym → Prop} {f : FaultKind} {r r' : BitStr} (h : Stop m P f r r')
    (hpq : ∀ c, P c → Q c) : Stop m Q f r r' := by
  cases h with
  | noTag => exact .noTag
  | noSymbol h1 h2 => exact .noSymbol h1 h2
  | full h => exact .full h
  | duplicate h1 h2 => exact .duplicate h1 (hpq _ h2)

/-- What a raised `parse` has met: nodes that leave the tree unfinished, all allocated, and a stop. -/
structure Stopped (p : Parsing) (f : FaultKind) (q : Parsing) (ts : List (Option Sym)) (r : BitStr) : Prop where
  src : p.src = tagBits ts ++ r
  open_ : pending 1 ts ≠ 0
  length : q.node.length = p.node.length + ts.length
  room : p.node.length + ts.length ≤ NNODE
  nodup : (tagSyms ts).Nodup
  absent : ∀ c, some c ∈ ts → symidxAt p.symidx c = NIL
  stop : Stop q.node.length (fun c => symidxAt p.symidx c ≠ NIL ∨ some c ∈ ts) f r q.src

theorem Stopped.here {p q : Parsing} {f : FaultKind} (hn : p.node.length ≤ NNODE) (hq : q.node = p.node)
    (hs : Stop p.node.length (fun c => symidxAt p.symidx c ≠ NIL) f p.src q.src) : Stopped p f q [] p.src where
  src := rfl
  open_ := by simp [pending]
  length := by simp [hq]
  room := hn
  nodup := by simp [tagSyms]
  absent := by simp
  stop := by rw [hq]; exact hs.mono fun _ h => .inl h

/-- A `parse` that raises has stopped at the node it was reading. -/
theorem parse_stops (k : Nat) {par : Idx} {p q : Parsing} {f : FaultKind} (hn : p.node.length ≤ NNODE)
    (hk : NNODE ≤ k + p.node.length) (h : parse k par p = .raised f q) : ∃ ts r, Stopped p f q ts r := by
  induction k generalizing par p q with
  | zero =>
    unfold parse at h
    cases hs : p.src with
    | nil =>
      simp only [hs, srcGet_nil, Parsed.raised.injEq] at h
      obtain ⟨rfl, rfl⟩ := h
      exact ⟨_, _, .here hn rfl (by rw [hs]; exact .noTag)⟩
    | cons b rest =>
      simp only [hs, srcGet_cons, Parsed.raised.injEq] at h
      obtain ⟨rfl, rfl⟩ := h
      exact ⟨_, _, .here hn rfl (by rw [hs]; exact .full (by simpa using hk))⟩
  | succ k ih =>
    unfold parse at h
    cases hs : p.src with
    | nil =>
      simp only [hs, srcGet_nil, Parsed.raised.injEq] at h
      obtain ⟨rfl, rfl⟩ := h
      exact ⟨_, _, .here hn rfl (by rw [hs]; exact .noTag)⟩
    | cons b rest =>
      simp only [hs, srcGet_cons] at h
      split at h
      · rename_i hfull
        simp only [Parsed.raised.injEq] at h
        obtain ⟨rfl, rfl⟩ := h
        exact ⟨_, _, .here hn rfl (by rw [hs]; exact .full hfull)⟩
      · rename_i hfull
        rw [not_le] at hfull
        cases b with
        | true =>
          simp only [if_true] at h
          unfold parseLeaf at h
          rw [readField_eq] at h
          by_cases hl : WSYM ≤ rest.length
          · simp only [if_pos hl] at h
            split at h
            · rename_i hx
              simp only [Parsed.raised.injEq] at h
              obtain ⟨rfl, rfl⟩ := h
              have hm : msb (BitVec.ofNat 8 (shiftIn 0 (rest.take WSYM))) = rest.take WSYM :=
                msb_shiftIn _ (by simpa using hl)
              refine ⟨_, _, .here hn rfl ?_⟩
              have e : p.src = true :: (msb (BitVec.ofNat 8 (shiftIn 0 (rest.take WSYM))) ++ rest.drop WSYM) := by
                rw [hm, List.take_append_drop, hs]
              rw [e]
              exact .duplicate hfull hx
            · simp at h
          · simp only [if_neg hl, Parsed.raised.injEq] at h
            obtain ⟨rfl, rfl⟩ := h
            exact ⟨_, _, .here hn rfl (by rw [hs]; exact .noSymbol hfull (by simpa using hl))⟩
        | false =>
          simp only [Bool.false_eq_true, if_false] at h
          generalize hx : (⟨0, 0, NIL, NIL, par⟩ : Node) = x at h
          cases h1 : parse k (nextIdx p.node) { p with src := rest, node := p.node ++ [x] } with
          | raised g r =>
            simp only [h1, Parsed.raised.injEq] at h
            obtain ⟨rfl, rfl⟩ := h
            obtain ⟨ts, r', h⟩ := ih (by simp; omega) (by simp; omega) h1
            obtain ⟨a1, a2, a3, a4, a5, a6, a7⟩ := h
            simp only [List.length_append, List.length_cons, List.length_nil] at a1 a3 a4 a6
            refine ⟨none :: ts, r', by simp [hs, tagBits, a1], pending_succ ts a2, by simp; omega, by simp; omega,
              by simpa [tagSyms] using a5, by simpa using a6, a7.mono fun c h => by simpa using h⟩
          | made l q1 =>
            simp only [h1] at h
            obtain ⟨t, m⟩ := parse_made k h1
            cases h2 : parse k (nextIdx p.node) { q1 with node := setLeft q1.node (nextIdx p.node) l } with
            | made r q2 => simp [h2] at h
            | raised g r =>
              simp only [h2, Parsed.raised.injEq] at h
              obtain ⟨rfl, rfl⟩ := h
              have mlen := m.length
              have mroom := m.room
              have msrc := m.src
              have mabs := m.absent
              have mkeep := m.keep
              simp only [List.length_append, List.length_cons, List.length_nil] at mlen mroom msrc mabs mkeep
              obtain ⟨ts, r', h⟩ := ih (by simp; omega) (by simp; omega) h2
              obtain ⟨a1, a2, a3, a4, a5, a6, a7⟩ := h
              simp only [setLeft_length] at a1 a3 a4 a6 a7
              have hmem : ∀ c, some c ∈ t.tags ↔ c ∈ t.leaves := fun c => by
                rw [← tagSyms_tags, mem_tagSyms]
              have hin : ∀ c ∈ t.leaves, symidxAt q1.symidx c ≠ NIL := fun c hc => by
                obtain ⟨-, n, hn, -⟩ := m.present c hc
                exact ne_NIL_of_nodeAt hn
              refine ⟨none :: (t.tags ++ ts), r', by simp [hs, tagBits, msrc, a1], by rw [pending, pending_tags]; exact a2,
                by simp; omega, by simp; omega, ?_, ?_, a7.mono fun c h => ?_⟩
              · simp only [tagSyms, tagSyms_append, tagSyms_tags]
                refine List.nodup_append.2 ⟨m.nodup, a5, fun c hc d hd e => ?_⟩
                subst e
                exact hin c hc (a6 c (mem_tagSyms.1 hd))
              · intro c hc
                simp only [List.mem_cons, reduceCtorEq, false_or, List.mem_append, hmem] at hc
                by_cases hcl : c ∈ t.leaves
                · exact mabs c hcl
                · rw [← mkeep c hcl]; exact a6 c (hc.resolve_left hcl)
              · simp only [List.mem_cons, reduceCtorEq, false_or, List.mem_append, hmem]
                by_cases hcl : c ∈ t.leaves
                · exact .inr (.inl hcl)
                · rw [← mkeep c hcl]
                  exact h.imp id .inr

/-- A source that gives nodes which leave the tree unfinished, and then a stop: `parse` raises there, with all
those nodes allocated. -/
theorem parse_unfinished (k : Nat) {par : Idx} {p : Parsing} {f : FaultKind} {ts : List (Option Sym)} {r r' : BitStr}
    (hs : p.src = tagBits ts ++ r) (ho : pending 1 ts ≠ 0) (hroom : p.node.length + ts.length ≤ NNODE)
    (hk : NNODE ≤ k + p.node.length) (hn : (tagSyms ts).Nodup) (ha : ∀ c, some c ∈ ts → symidxAt p.symidx c = NIL)
    (hstop : Stop (p.node.length + ts.length) (fun c => symidxAt p.symidx c ≠ NIL ∨ some c ∈ ts) f r r') :
    ∃ q, parse k par p = .raised f q ∧ q.src = r' ∧ q.node.length = p.node.length + ts.length := by
  induction k generalizing par p ts with
  | zero =>
    obtain rfl : ts = [] := by simpa using (show ts.length = 0 by omega)
    unfold parse
    simp only [tagBits, List.nil_append] at hs
    rw [hs]
    cases hstop with
    | noTag => exact ⟨_, rfl, hs, rfl⟩
    | noSymbol h => simp only [List.length_nil] at h; omega
    | full => exact ⟨_, rfl, rfl, rfl⟩
    | duplicate h => simp only [List.length_nil] at h; omega
  | succ k ih =>
    match ts with
    | some c :: ts => simp [pending] at ho
    | [] =>
      unfold parse
      simp only [tagBits, List.nil_append] at hs
      rw [hs]
      cases hstop with
      | noTag => exact ⟨_, rfl, hs, rfl⟩
      | noSymbol h hv =>
        simp only [srcGet_cons, not_le.2 (show p.node.length < NNODE from h), if_false, if_true]
        unfold parseLeaf
        rw [readField_short _ _ _ hv]
        exact ⟨_, rfl, rfl, rfl⟩
      | full h =>
        simp only [srcGet_cons, if_pos (show NNODE ≤ p.node.length from h)]
        exact ⟨_, rfl, rfl, rfl⟩
      | @duplicate c rest h hc =>
        have hc : symidxAt p.symidx c ≠ NIL := by simpa using hc
        simp only [srcGet_cons, not_le.2 (show p.node.length < NNODE from h), if_false, if_true]
        unfold parseLeaf
        simp only [readField_msb, BitVec.ofNat_toNat, BitVec.setWidth_eq, if_pos hc]
        exact ⟨_, rfl, rfl, rfl⟩
    | none :: ts =>
      simp only [List.length_cons] at hroom hstop
      simp only [tagSyms] at hn
      simp only [List.mem_cons, reduceCtorEq, false_or] at ha hstop
      unfold parse
      rw [hs]
      simp only [tagBits, List.cons_append, srcGet_cons, not_le.2 (show p.node.length < NNODE by omega), if_false,
        Bool.false_eq_true]
      generalize hx : (⟨0, 0, NIL, NIL, par⟩ : Node) = x
      rcases unfinished_or_tree _ ts le_rfl with h1 | ⟨t, us, rfl⟩
      · obtain ⟨q, e, e1, e2⟩ := ih (par := nextIdx p.node)
          (p := { p with src := tagBits ts ++ r, node := p.node ++ [x] }) rfl h1 (by simp; omega) (by simp; omega) hn ha
          (by simpa [Nat.add_assoc, Nat.add_comm 1] using hstop)
        exact ⟨q, by rw [e], e1, by rw [e2]; simp; omega⟩
      · simp only [tagBits_append, tagBits_tags, List.append_assoc, tagSyms_append, tagSyms_tags, List.nodup_append,
          List.length_append, tags_length, List.mem_append] at hs hroom hn ha hstop ⊢
        have hmem : ∀ c, some c ∈ t.tags ↔ c ∈ t.leaves := fun c => by rw [← tagSyms_tags, mem_tagSyms]
        simp only [hmem] at ha hstop
        obtain ⟨i, q1, h1⟩ := parse_header t k (nextIdx p.node)
          { p with src := t.header ++ (tagBits us ++ r), node := p.node ++ [x] } (tagBits us ++ r) rfl
          (by simp; omega) (by simp; omega) hn.1 (fun c hc => ha c (.inl hc))
        obtain ⟨u, m⟩ := parse_made k h1
        obtain ⟨rfl, e⟩ := CodeTree.header_append_inj m.src
        have mlen := m.length
        have mkeep := m.keep
        simp only [List.length_append, List.length_cons, List.length_nil] at mlen mkeep
        have hdis : ∀ c, some c ∈ us → c ∉ t.leaves := fun c hc hl => hn.2.2 c hl c (mem_tagSyms.2 hc) rfl
        obtain ⟨q, e3, e1, e2⟩ := ih (par := nextIdx p.node)
          (p := { q1 with node := setLeft q1.node (nextIdx p.node) i }) e.symm
          (by rwa [pending, pending_tags] at ho) (by simp; omega) (by simp; omega) hn.2.1
          (fun c hc => by rw [mkeep c (hdis c hc)]; exact ha c (.inr hc))
          (by
            have el : (setLeft q1.node (nextIdx p.node) i).length + us.length =
                p.node.length + (t.size + us.length + 1) := by simp; omega
            rw [el]
            refine hstop.mono fun c hc => ?_
            by_cases hcl : c ∈ t.leaves
            · obtain ⟨-, n, hn, -⟩ := m.present c hcl
              exact .inl (ne_NIL_of_nodeAt hn)
            · simp only [mkeep c hcl]
              tauto)
        refine ⟨q, by simp only [h1, e3], e1, by rw [e2]; simp; omega⟩

/-- How many bits are before a stop, and how many the stop takes. -/
theorem Stopped.consumed {p q : Parsing} {f : FaultKind} {ts : List (Option Sym)} {r : BitStr}
    (h : Stopped p f q ts r) (hp : p.node = []) : p.src.length ≤ q.src.length + 2560 := by
  have h1 := pending_count ts h.open_
  have h2 := h.room
  have h3 := h.length
  have h4 := h.open_
  rw [h.src, List.length_append, tagBits_length]
  simp only [hp, List.length_nil, NNODE] at h2 h3
  have hst := h.stop
  generalize q.src = r' at hst ⊢
  cases hst <;> simp_all [NNODE, WSYM] <;> omega

end Machine

end Sys2Proof
end

