-- ==== Sys2Proof/Laws/Invariant.lean ====
section
/-! SUPPORT. What each command keeps: the invariants of a consistent state, and in every state the canonical
form of the arrays (10_state.md R28). -/

namespace Sys2Proof.Machine

/-! ### Consistency, command by command -/

/-- The pseudocode ends, and where it completes it leaves a consistent state. -/
def Sound (s : State) (e : Ending) : Prop :=
  (∃ r u, e = .done r u ∧ u.err = s.err ∧ Consistent u) ∨ (∃ k u, e = .raised k u ∧ u.err = s.err)

/-- The codes `raise` puts in ERR are legal, but for the one no command raises. -/
theorem legalErr_code {k : FaultKind} (h : k ≠ .usageError) : legalErr k.code = true := by
  cases k <;> first | rfl | exact absurd rfl h

theorem empty_consistent {s : State} (h1 : s.phase = .empty) (h2 : s.node = []) (h3 : s.root = NIL)
    (h4 : s.symidx = []) (h5 : s.code = []) (h6 : s.frozen = false) (h7 : s.total = 0) (h8 : s.ppos = 0) :
    Consistent s := by
  refine ⟨by rw [h2]; simp, fun _ => ⟨h2, h3, h4, h5, h6, h7, h8⟩, by simp [h2, h3], fun h => absurd h3 h,
    fun c i hi => ?_, fun c w h => ?_, fun h => ?_, fun h => ?_, fun h => ?_, by simp [h2]⟩
  · rw [h4, h2]
    constructor
    · intro h; exact absurd h.symm hi
    · rintro ⟨n, h, -⟩; simp at h
  · rw [h5] at h; simp [codeAt, Table.find] at h
  · rw [h6] at h; cases h
  · rw [h1] at h; cases h
  · rw [h1] at h; cases h

theorem sound_ldf {s : State} (hc : Consistent s) (he : s.phase = .empty) (f : Table Freq) :
    Consistent (s.withFreq f) := by
  obtain ⟨h1, h2, h3, h4, h5, h6, h7⟩ := hc.fresh he
  exact empty_consistent he h1 h2 h3 h4 h5 h6 h7

theorem sound_build {s : State} (hc : Consistent s) (he : s.phase = .empty) : Sound s (buildTree s) := by
  obtain ⟨t, h, hb⟩ := buildTree_spec hc he
  exact .inl ⟨_, _, h, by rw [hb.same]; rfl, hb.consistent⟩

theorem sound_getc {s : State} (hc : Consistent s) (c : Sym) : Sound s (getcBody c s) := by
  obtain ⟨code, h, hl, -⟩ := getcBody_spec hc c
  exact .inl ⟨_, _, h, rfl, hc.lookedUp hl⟩

theorem tree_of_legal {s : State} (hc : Consistent s) (h : s.root ≠ NIL) : s.phase ≠ .empty ∧ ∃ t, TreeAt s t :=
  ⟨fun e => h (hc.fresh e).2.1, hc.tree h⟩

theorem consistent_afterWrh {s : State} (hc : Consistent s) (hb : s.phase = .built) {t : CodeTree}
    (ht : TreeAt s t) {code : Table BitStr} (hl : LookedUp s allSyms code)
    (hall : ∀ c, symidxAt s.symidx c ≠ NIL → (codeAt code c).isSome = true) :
    Consistent (afterWrh s code t) := by
  have h1 := hc.lookedUp hl
  have hr : s.root ≠ NIL := by obtain ⟨is, hh, -⟩ := ht; exact hh.root_ne
  have h2 : Consistent ((s.withCode code).withFrozen true) :=
    ⟨h1.arena, fun h => by rw [show (s.withCode code).withFrozen true = _ from rfl] at h; exact absurd (hb.symm.trans h) (by decide),
      h1.rooted, h1.tree, h1.symbols, h1.cache, fun _ => ⟨hb, hr, hall⟩, h1.built, h1.read, h1.internal⟩
  exact h2.counters (by show s.phase ≠ .empty; rw [hb]; decide) rfl rfl rfl rfl rfl rfl rfl

theorem sound_wrh {s : State} (hc : Consistent s) (hb : s.phase = .built) (hr : s.root ≠ NIL) :
    Sound s (wrhBody s) := by
  obtain ⟨t, ht⟩ := hc.tree hr
  obtain ⟨code, h, -, hf, hall, -⟩ := wrhBody_spec hc hb ht
  exact .inl ⟨_, _, h, rfl, consistent_afterWrh hc hb ht (filled_eq hc _ hf) hall⟩

/-- RDH never stops, in any state. -/
theorem rdhBody_ends (s : State) :
    (∃ r u, rdhBody s = .done r u ∧ u.err = s.err) ∨
      (∃ k u, rdhBody s = .raised k u ∧ u.err = s.err ∧ (k = .malformedHeader ∨ k = .truncatedStream)) := by
  unfold rdhBody
  rw [readField_eq]
  by_cases hl : WCOUNT ≤ s.src.length
  · rw [if_pos hl]
    simp only
    cases hp : parse NNODE NIL ⟨s.src.drop WCOUNT, s.node, s.symidx⟩ with
    | raised k p =>
      exact .inr ⟨k, _, rfl, rfl, (parse_raised _ hp).kind.imp id And.left⟩
    | made i q => exact .inl ⟨_, _, rfl, rfl⟩
  · rw [if_neg hl]
    exact .inr ⟨_, _, rfl, rfl, .inr rfl⟩

theorem sound_rdh {s : State} (hc : Consistent s) (he : s.phase = .empty) : Sound s (rdhBody s) := by
  rcases rdhBody_ends s with ⟨r, u, h, hu⟩ | ⟨k, u, h, hu, -⟩
  · obtain ⟨total, t, q, -, hm, -, rfl⟩ := rdhBody_made hc he h
    exact .inl ⟨r, _, h, hu, (consistent_afterRdh hc he hm).1⟩
  · exact .inr ⟨k, u, h, hu⟩

theorem sound_enc {s : State} (hc : Consistent s) (c : Sym) : Sound s (encBody c s) := by
  obtain ⟨code, hl, -, h⟩ := encBody_spec hc c
  by_cases hw : codeOf s c = []
  · rw [if_pos hw] at h; exact .inr ⟨_, _, h, rfl⟩
  · rw [if_neg hw, putPayload_eq] at h
    refine .inl ⟨_, _, h, rfl, (hc.lookedUp hl).counters ?_ rfl rfl rfl rfl rfl rfl rfl⟩
    intro he
    exact hw ((derive_total hc c).2.2.2 (absent_of_no_root hc (hc.fresh he).2.1 c))

theorem sound_decoded {s : State} (hc : Consistent s) (hp : s.phase ≠ .empty) {d : Decoded}
    (hd : ∀ f, d ≠ .stuck f) : Sound s (decoded s d) := by
  cases d with
  | symbol c m q => exact .inl ⟨_, _, rfl, rfl, hc.counters hp rfl rfl rfl rfl rfl rfl rfl⟩
  | raised k q => exact .inr ⟨_, _, rfl, rfl⟩
  | stuck f => exact absurd rfl (hd f)

theorem sound_dec {s : State} (hc : Consistent s) (hr : s.root ≠ NIL) : Sound s (decBody s) := by
  obtain ⟨hp, t, ht⟩ := tree_of_legal hc hr
  rw [decBody_spec hc ht]
  refine sound_decoded hc hp fun f h => ?_
  have := walked_treeWalk s.total t 0 ⟨s.ppos, s.src⟩
  rw [h] at this; cases this

theorem sound_decm {s : State} (hc : Consistent s) (hr : s.root ≠ NIL) : Sound s (decmBody s) := by
  obtain ⟨hp, t, ht⟩ := tree_of_legal hc hr
  obtain ⟨code, hl, -, h⟩ := decmBody_spec hc
  rw [h]
  refine sound_decoded (hc.lookedUp hl) hp fun f hf => ?_
  rcases walked_matchBits s.symidx (allSyms.map fun c => (c, codeOf s c)) s.total MAXLEN [] ⟨s.ppos, s.src⟩ with
    ⟨c, m, q, h1⟩ | ⟨k, q, h1, -⟩ <;> rw [h1] at hf <;> cases hf

/-- A dispatched command whose pseudocode is sound answers, and leaves a consistent state unless it leaves
a fault. -/
theorem sound_dispatch {s : State} (opc : Opc) {legal : State → Bool} {body : State → Ending}
    (hb : s.err = 0 → legal s = true → Sound s (body s)) :
    ∃ t, dispatch opc legal body s = .next t ∧ (t.err = 0 → Consistent t) := by
  by_cases he : s.err = 0
  · cases hl : legal s with
    | false =>
      exact ⟨_, dispatch_illegal he opc hl body, fun h => absurd h (by simp [faulted])⟩
    | true =>
      rw [dispatch_legal he opc hl]
      rcases hb he hl with ⟨r, u, h, -, hc⟩ | ⟨k, u, h, hu⟩
      · refine ⟨respond opc r u, by rw [h]; rfl, fun _ => hc.congr rfl rfl rfl rfl rfl rfl rfl rfl rfl⟩
      · refine ⟨_, by rw [h, conclude_raised (hu.trans he)], fun h => ?_⟩
        cases k <;> exact absurd h (by simp [faulted, FaultKind.code])
  · exact ⟨_, dispatch_refused he opc legal body, fun h => absurd h he⟩

theorem rootv_iff {s : State} : s.rootv = true ↔ s.root ≠ NIL := by simp [State.rootv]

/-- Every command answers from a state that is consistent unless it holds a fault, and leaves one. -/
theorem exec_sound (i : Instr) {s : State} (hc : s.err = 0 → Consistent s) :
    ∃ t, exec i s = .next t ∧ (t.err = 0 → Consistent t) := by
  cases i with
  | clr => exact ⟨_, rfl, fun _ => empty_consistent rfl rfl rfl rfl rfl rfl rfl rfl⟩
  | ldf c n =>
    refine sound_dispatch (body := fun s => .done {} (s.withFreq (setFreq s.freq c n))) (Instr.ldf c n).opcode
      fun he hl => .inl ⟨_, _, rfl, rfl, sound_ldf (hc he) ?_ _⟩
    simpa [legalInEmpty] using hl
  | build => exact sound_dispatch _ fun he hl => sound_build (hc he) (by simpa [legalInEmpty] using hl)
  | getc c => exact sound_dispatch _ fun he _ => sound_getc (hc he) c
  | wrh =>
    refine sound_dispatch _ fun he hl => ?_
    simp only [legalInBuilt, Bool.and_eq_true, decide_eq_true_eq, rootv_iff] at hl
    exact sound_wrh (hc he) hl.1 hl.2
  | rdh => exact sound_dispatch _ fun he hl => sound_rdh (hc he) (by simpa [legalInEmpty] using hl)
  | enc c => exact sound_dispatch _ fun he _ => sound_enc (hc he) c
  | dec =>
    refine sound_dispatch _ fun he hl => ?_
    simp only [legalWithTree, Bool.and_eq_true, rootv_iff] at hl
    exact sound_dec (hc he) hl.2
  | decm =>
    refine sound_dispatch _ fun he hl => ?_
    simp only [legalWithTree, Bool.and_eq_true, rootv_iff] at hl
    exact sound_decm (hc he) hl.2
  | rdr r =>
    simp only [exec, execRdr]
    cases hostRegister r s with
    | some v => exact ⟨_, rfl, fun h => (hc h).congr rfl rfl rfl rfl rfl rfl rfl rfl rfl⟩
    | none =>
      refine ⟨_, rfl, fun h => ?_⟩
      unfold illegalCommand at h
      split at h
      · exact absurd h (by assumption)
      · rename_i he
        rw [takeFault_eq (by simpa using he)] at h
        exact absurd h (by simp [faulted, FaultKind.code])

/-! ### The arrays' canonical form, in every state -/

theorem tablesWf_iff (s : State) : s.tablesWf = true ↔
    Table.wf (fun n => decide (n = 0)) s.freq = true ∧ Table.wf (fun i => decide (i = NIL)) s.symidx = true ∧
      Table.wf (fun c => c.isEmpty) s.code = true := by
  simp [State.tablesWf, and_assoc]

theorem getcode_wf {s : State} {code code' : Table BitStr} {c : Sym} {w : BitStr}
    (h : getcode s code c = .ok (w, code')) (hw : Table.wf (fun c => c.isEmpty) code = true) :
    Table.wf (fun c => c.isEmpty) code' = true := by
  unfold getcode at h
  split at h
  · simp only [Except.ok.injEq, Prod.mk.injEq] at h; rw [← h.2]; exact hw
  · split at h
    · simp at h
    · simp only [Except.ok.injEq, Prod.mk.injEq] at h
      rw [← h.2]
      split
      · rename_i hx
        refine setCode_wf _ _ _ hw ?_
        simp only [Bool.and_eq_true, Bool.not_eq_true', ne_eq] at hx
        exact hx.1
      · exact hw

theorem getcodes_wf {s : State} (ss : List Sym) {code code' : Table BitStr} {cs : List (Sym × BitStr)}
    (h : getcodes s ss code = .ok (cs, code')) (hw : Table.wf (fun c => c.isEmpty) code = true) :
    Table.wf (fun c => c.isEmpty) code' = true := by
  induction ss generalizing code code' cs with
  | nil => simp only [getcodes, Except.ok.injEq, Prod.mk.injEq] at h; rw [← h.2]; exact hw
  | cons c ss ih =>
    unfold getcodes at h
    cases h1 : getcode s code c with
    | error f => simp [h1] at h
    | ok r =>
      obtain ⟨w, code1⟩ := r
      rw [h1] at h
      simp only at h
      cases h2 : getcodes s ss code1 with
      | error f => simp [h2] at h
      | ok r =>
        obtain ⟨ds, code2⟩ := r
        rw [h2] at h
        simp only [Except.ok.injEq, Prod.mk.injEq] at h
        rw [← h.2]
        exact ih h2 (getcode_wf h1 hw)

theorem addLeaves_wf (freq : Table Freq) (b : Leaves)
    (h : Table.wf (fun i => decide (i = NIL)) b.symidx = true) :
    Table.wf (fun i => decide (i = NIL)) (addLeaves freq b).symidx = true := by
  unfold addLeaves
  generalize allSyms = ss
  induction ss generalizing b with
  | nil => exact h
  | cons c ss ih =>
    refine ih _ ?_
    unfold addLeaf
    split
    · exact h
    · exact setSymidx_wf _ _ _ h

/-- The pseudocode keeps the canonical form, wherever it ends. -/
def KeepsWf (s : State) (e : Ending) : Prop :=
  s.tablesWf = true → ∀ u, ((∃ r, e = .done r u) ∨ (∃ k, e = .raised k u)) → u.tablesWf = true

theorem wf_same {s u : State} (h1 : u.freq = s.freq) (h2 : u.symidx = s.symidx) (h3 : u.code = s.code)
    (h : s.tablesWf = true) : u.tablesWf = true := by
  rw [tablesWf_iff] at *; rw [h1, h2, h3]; exact h

theorem wf_code {s u : State} (h1 : u.freq = s.freq) (h2 : u.symidx = s.symidx)
    (h3 : Table.wf (fun c => c.isEmpty) s.code = true → Table.wf (fun c => c.isEmpty) u.code = true)
    (h : s.tablesWf = true) : u.tablesWf = true := by
  rw [tablesWf_iff] at *; rw [h1, h2]; exact ⟨h.1, h.2.1, h3 h.2.2⟩

theorem wf_symidx {s u : State} (h1 : u.freq = s.freq) (h3 : u.code = s.code)
    (h2 : Table.wf (fun i => decide (i = NIL)) s.symidx = true → Table.wf (fun i => decide (i = NIL)) u.symidx = true)
    (h : s.tablesWf = true) : u.tablesWf = true := by
  rw [tablesWf_iff] at *; rw [h1, h3]; exact ⟨h.1, h2 h.2.1, h.2.2⟩

theorem keepsWf_done {s u : State} {r : Reply} (h : s.tablesWf = true → u.tablesWf = true) :
    KeepsWf s (.done r u) := by
  rintro hs v (⟨r', e⟩ | ⟨k, e⟩) <;> cases e
  exact h hs

theorem keepsWf_raised {s u : State} {k : FaultKind} (h : s.tablesWf = true → u.tablesWf = true) :
    KeepsWf s (.raised k u) := by
  rintro hs v (⟨r', e⟩ | ⟨k', e⟩) <;> cases e
  exact h hs

theorem keepsWf_stuck {s : State} {f : Fault} : KeepsWf s (.stuck f) := by
  rintro hs v (⟨r', e⟩ | ⟨k, e⟩) <;> cases e

theorem keepsWf_build (s : State) : KeepsWf s (buildTree s) := by
  unfold buildTree
  split
  · exact keepsWf_stuck
  · exact keepsWf_done (wf_symidx rfl rfl (addLeaves_wf s.freq ⟨s.node, s.symidx, []⟩))

theorem keepsWf_getc (s : State) (c : Sym) : KeepsWf s (getcBody c s) := by
  unfold getcBody
  cases h : getcode s s.code c with
  | error f => exact keepsWf_stuck
  | ok r => exact keepsWf_done (wf_code rfl rfl (getcode_wf h))

theorem keepsWf_enc (s : State) (c : Sym) : KeepsWf s (encBody c s) := by
  unfold encBody
  cases h : getcode s s.code c with
  | error f => exact keepsWf_stuck
  | ok r =>
    obtain ⟨w, code⟩ := r
    simp only [putPayload_eq]
    split
    · exact keepsWf_raised (wf_code rfl rfl (getcode_wf h))
    · exact keepsWf_done (wf_code rfl rfl (getcode_wf h))

theorem keepsWf_wrh (s : State) : KeepsWf s (wrhBody s) := by
  unfold wrhBody
  cases h : getcodes s allSyms s.code with
  | error f => exact keepsWf_stuck
  | ok r =>
    obtain ⟨cs, code⟩ := r
    simp only
    cases encodedBits s code allSyms 0 with
    | error f => exact keepsWf_stuck
    | ok t =>
      simp only
      cases emit s.node (MAXLEN + 1) s.root with
      | error f => exact keepsWf_stuck
      | ok tree => exact keepsWf_done (wf_code rfl rfl (getcodes_wf _ h))

theorem keepsWf_rdh (s : State) : KeepsWf s (rdhBody s) := by
  unfold rdhBody
  rw [readField_eq]
  by_cases hl : WCOUNT ≤ s.src.length
  · rw [if_pos hl]
    simp only
    cases hp : parse NNODE NIL ⟨s.src.drop WCOUNT, s.node, s.symidx⟩ with
    | raised k p => exact keepsWf_raised (wf_symidx rfl rfl (parse_raised _ hp).tables)
    | made i q =>
      obtain ⟨t, hm⟩ := parse_made _ hp
      exact keepsWf_done (wf_symidx rfl rfl hm.tables)
  · rw [if_neg hl]; exact keepsWf_raised (wf_same rfl rfl rfl)

theorem keepsWf_decoded (s : State) (d : Decoded) : KeepsWf s (decoded s d) := by
  cases d with
  | symbol c m p => exact keepsWf_done (wf_same rfl rfl rfl)
  | raised k p => exact keepsWf_raised (wf_same rfl rfl rfl)
  | stuck f => exact keepsWf_stuck

theorem keepsWf_decm (s : State) : KeepsWf s (decmBody s) := by
  unfold decmBody
  cases h : getcodes s allSyms s.code with
  | error f => exact keepsWf_stuck
  | ok r =>
    intro hs u hu
    exact keepsWf_decoded _ _ (wf_code (s := s) (u := s.withCode r.2) rfl rfl (getcodes_wf _ h) hs) u hu

theorem takeFault_wf {k : FaultKind} {opc : Opc} {s : State} (h : s.tablesWf = true) :
    (takeFault k opc s).tablesWf = true := wf_same (by simp) (by simp) (by simp) h

theorem dispatch_wf {opc : Opc} {legal : State → Bool} {body : State → Ending} {s t : State}
    (hb : KeepsWf s (body s)) (h : dispatch opc legal body s = .next t) (hs : s.tablesWf = true) :
    t.tablesWf = true := by
  rcases dispatch_cases h with ⟨-, rfl⟩ | ⟨-, -, rfl⟩ | ⟨-, -, ⟨r, u, e, rfl⟩ | ⟨k, u, e, rfl⟩⟩
  · exact wf_same rfl rfl rfl hs
  · exact wf_same rfl rfl rfl hs
  · exact wf_same rfl rfl rfl (hb hs u (.inl ⟨r, e⟩))
  · exact takeFault_wf (hb hs u (.inr ⟨k, e⟩))

theorem exec_wf (i : Instr) {s t : State} (h : exec i s = .next t) (hs : s.tablesWf = true) :
    t.tablesWf = true := by
  cases i with
  | clr => obtain rfl : _ = t := by injection h
           rfl
  | ldf c n =>
    refine dispatch_wf (body := fun s => .done {} (s.withFreq (setFreq s.freq c n))) (keepsWf_done fun hs => ?_) h hs
    rw [tablesWf_iff] at *
    exact ⟨setFreq_wf _ _ _ hs.1, hs.2⟩
  | build => exact dispatch_wf (keepsWf_build s) h hs
  | getc c => exact dispatch_wf (keepsWf_getc s c) h hs
  | wrh => exact dispatch_wf (keepsWf_wrh s) h hs
  | rdh => exact dispatch_wf (keepsWf_rdh s) h hs
  | enc c => exact dispatch_wf (keepsWf_enc s c) h hs
  | dec => exact dispatch_wf (keepsWf_decoded s _) h hs
  | decm => exact dispatch_wf (keepsWf_decm s) h hs
  | rdr r =>
    simp only [exec, execRdr] at h
    split at h
    · obtain rfl : _ = t := by injection h
      exact wf_same rfl rfl rfl hs
    · obtain rfl : _ = t := by injection h
      unfold illegalCommand
      split
      · exact wf_same rfl rfl rfl hs
      · exact takeFault_wf hs

end Sys2Proof.Machine
end

