-- ==== Sys2Proof/Laws/Inversion.lean ====
section
/-! SUPPORT. How a command can end, said once for all ten, and what its pseudocode leaves alone in every
state. -/

namespace Sys2Proof.Machine

/-- The pseudocode a dispatched command runs; CLR and RDR are not dispatched. -/
def bodyOf (i : Instr) (s : State) : Ending :=
  match i with
  | .clr => .done {} (clearCore s)
  | .ldf c n => .done {} (s.withFreq (setFreq s.freq c n))
  | .build => buildTree s
  | .getc c => getcBody c s
  | .wrh => wrhBody s
  | .rdh => rdhBody s
  | .enc c => encBody c s
  | .dec => decBody s
  | .decm => decmBody s
  | .rdr _ => .done {} s

/-- The legality test of a dispatched command. -/
def legalOf : Instr → State → Bool
  | .clr, _ => true
  | .ldf _ _, s => legalInEmpty s
  | .build, s => legalInEmpty s
  | .getc _, s => legalAlways s
  | .wrh, s => legalInBuilt s
  | .rdh, s => legalInEmpty s
  | .enc _, s => legalAlways s
  | .dec, s => legalWithTree s
  | .decm, s => legalWithTree s
  | .rdr _, _ => true

/-- The commands that go through `dispatch`. -/
def Dispatched (i : Instr) : Prop := i ≠ .clr ∧ ∀ r, i ≠ .rdr r

theorem exec_dispatched {i : Instr} (h : Dispatched i) (s : State) :
    exec i s = dispatch i.opcode (legalOf i) (bodyOf i) s := by
  cases i <;> first | rfl | exact absurd rfl h.1 | exact absurd rfl (h.2 _)

theorem legalOf_iff (i : Instr) (s : State) : legalOf i s = true ↔ ¬ PhaseForbids i s := by
  cases i <;>
    simp [legalOf, PhaseForbids, legalInEmpty, legalAlways, legalInBuilt, legalWithTree, State.rootv]

/-- A dispatched command in a state without a fault, where its phase allows it. -/
theorem exec_runs {i : Instr} (hi : Dispatched i) {s : State} (he : s.err = 0) (hp : ¬ PhaseForbids i s) :
    exec i s = conclude i.opcode (bodyOf i s) := by
  rw [exec_dispatched hi, dispatch_legal he _ ((legalOf_iff i s).2 hp)]

theorem exec_forbidden {i : Instr} (hi : Dispatched i) {s : State} (he : s.err = 0) (hp : PhaseForbids i s) :
    exec i s = .next (faulted 6 i.opcode s) := by
  rw [exec_dispatched hi, dispatch_illegal he]
  rw [← Bool.not_eq_true, legalOf_iff]; simpa using hp

theorem exec_refused {i : Instr} (hi : Dispatched i) {s : State} (he : s.err ≠ 0) :
    exec i s = .next (refuse i.opcode s) := by
  rw [exec_dispatched hi, dispatch_refused he]

theorem illegalCommand_ok {s : State} (h : s.err = 0) (opc : Opc) : illegalCommand opc s = faulted 5 opc s := by
  rw [illegalCommand, if_neg (by simp [h]), takeFault_eq h]; rfl

theorem illegalCommand_refused {s : State} (h : s.err ≠ 0) (opc : Opc) : illegalCommand opc s = refuse opc s := by
  rw [illegalCommand, if_pos h]

/-- The seven ways a command can answer. -/
inductive Answers (i : Instr) (s : State) : State → Prop where
  | cleared (is : i = .clr) : Answers i s (respond 0x1 {} (clearCore s))
  | read {r : Sym} {v : BitVec 64} (is : i = .rdr r) (reg : hostRegister r s = some v) :
      Answers i s (respond 0xA { r1 := v } s)
  | unassigned {r : Sym} (is : i = .rdr r) (reg : hostRegister r s = none) :
      Answers i s (illegalCommand 0xA s)
  | refused (is : Dispatched i) (err : s.err ≠ 0) : Answers i s (refuse i.opcode s)
  | forbidden (is : Dispatched i) (err : s.err = 0) (phase : PhaseForbids i s) :
      Answers i s (faulted 6 i.opcode s)
  | done {r : Reply} {u : State} (is : Dispatched i) (err : s.err = 0) (phase : ¬ PhaseForbids i s)
      (body : bodyOf i s = .done r u) : Answers i s (respond i.opcode r u)
  | raised {k : FaultKind} {u : State} (is : Dispatched i) (err : s.err = 0) (phase : ¬ PhaseForbids i s)
      (body : bodyOf i s = .raised k u) : Answers i s (takeFault k i.opcode u)

theorem answers {i : Instr} {s t : State} (h : exec i s = .next t) : Answers i s t := by
  by_cases hd : Dispatched i
  · rw [exec_dispatched hd] at h
    rcases dispatch_cases h with ⟨he, rfl⟩ | ⟨he, hl, rfl⟩ | ⟨he, hl, ⟨r, u, e, rfl⟩ | ⟨k, u, e, rfl⟩⟩
    · exact .refused hd he
    · refine .forbidden hd he ?_
      by_contra hp
      rw [← legalOf_iff, hl] at hp; cases hp
    · exact .done hd he ((legalOf_iff i s).1 hl) e
    · exact .raised hd he ((legalOf_iff i s).1 hl) e
  · cases i with
    | clr => injection h with h; rw [← h]; exact .cleared rfl
    | rdr r =>
      simp only [exec, execRdr] at h
      cases hr : hostRegister r s with
      | some v => rw [hr] at h; injection h with h; rw [← h]; exact .read rfl hr
      | none => rw [hr] at h; injection h with h; rw [← h]; exact .unassigned rfl hr
    | ldf c n => exact absurd ⟨by simp, by simp⟩ hd
    | build => exact absurd ⟨by simp, by simp⟩ hd
    | getc c => exact absurd ⟨by simp, by simp⟩ hd
    | wrh => exact absurd ⟨by simp, by simp⟩ hd
    | rdh => exact absurd ⟨by simp, by simp⟩ hd
    | enc c => exact absurd ⟨by simp, by simp⟩ hd
    | dec => exact absurd ⟨by simp, by simp⟩ hd
    | decm => exact absurd ⟨by simp, by simp⟩ hd

/-! ### What the pseudocode leaves alone -/

theorem getcode_lookedUp {s : State} {c : Sym} {w : BitStr} {code : Table BitStr}
    (h : getcode s s.code c = .ok (w, code)) : LookedUp s [c] code := by
  intro d
  unfold getcode at h
  cases hc : codeAt s.code c with
  | some v =>
    rw [hc] at h
    simp only [Except.ok.injEq, Prod.mk.injEq] at h
    rw [← h.2]
    by_cases hd : d = c
    · subst hd; rw [hc]; rfl
    · simp [hd]
  | none =>
    rw [hc] at h
    cases hv : derive s.node s.symidx s.root c with
    | error f => simp [hv] at h
    | ok v =>
      simp only [hv, Except.ok.injEq, Prod.mk.injEq] at h
      obtain ⟨rfl, h⟩ := h
      rw [← h]
      by_cases hd : d = c
      · subst hd
        by_cases hw : v = [] <;> by_cases hf : s.frozen = false <;> simp [hw, hf, hc, derived, hv]
      · have hd' : ¬ c = d := fun e => hd e.symm
        simp only [List.mem_singleton, hd, false_and, if_false, Option.or_none]
        split
        · rw [codeAt_setCode, if_neg hd']
        · rfl

theorem derived_withCode (s : State) (code : Table BitStr) (c : Sym) : derived (s.withCode code) c = derived s c := rfl

/-- A lookup in the same tree with another cache. -/
theorem getcode_withCode (s : State) (code : Table BitStr) (c : Sym) :
    getcode (s.withCode code) code c = getcode s code c := rfl

theorem getcodes_lookedUp (s : State) (ss : List Sym) {cs : List (Sym × BitStr)} {code code' : Table BitStr}
    (h : getcodes s ss code = .ok (cs, code')) : LookedUp (s.withCode code) ss code' := by
  induction ss generalizing cs code with
  | nil =>
    simp only [getcodes, Except.ok.injEq, Prod.mk.injEq] at h
    intro d; rw [← h.2]; simp
  | cons c ss ih =>
    unfold getcodes at h
    cases h1 : getcode s code c with
    | error f => simp [h1] at h
    | ok r =>
      obtain ⟨w, code1⟩ := r
      rw [h1] at h
      simp only at h
      cases h2 : getcodes s ss code1 with
      | error f => simp [h2] at h
      | ok r =>
        obtain ⟨ds, code2⟩ := r
        rw [h2] at h
        simp only [Except.ok.injEq, Prod.mk.injEq] at h
        obtain ⟨-, rfl⟩ := h
        have e1 : LookedUp (s.withCode code) [c] code1 := getcode_lookedUp (s := s.withCode code) h1
        have e2 := ih h2
        intro d
        rw [e2 d, withCode_code, e1 d, withCode_code, derived_withCode, Option.or_assoc]
        simp only [withCode_frozen, List.mem_singleton, List.mem_cons, derived_withCode]
        congr 1
        by_cases hd : d = c
        · subst hd
          by_cases hf : s.frozen = false <;> by_cases hm : d ∈ ss <;> simp [hf, hm]
        · simp only [hd, false_and, if_false, Option.none_or, false_or]; rfl

/-- The state a pseudocode leaves: no ERR, no response, no command word is written by it. -/
structure Quiet (s u : State) : Prop where
  err : u.err = s.err
  resps : u.resps = s.resps
  cmds : u.cmds = s.cmds

/-- The pseudocode's effect as R29 lists it, for a body that ends in `u`. -/
theorem bodyOf_quiet {i : Instr} (hi : Dispatched i) {s u : State}
    (h : (∃ r, bodyOf i s = .done r u) ∨ ∃ k, bodyOf i s = .raised k u) : Quiet s u := by
  have hdec : ∀ (s' : State) (d : Decoded), s'.err = s.err → s'.resps = s.resps → s'.cmds = s.cmds →
      ((∃ r, decoded s' d = .done r u) ∨ ∃ k, decoded s' d = .raised k u) → Quiet s u := by
    rintro s' d h1 h2 h3 h
    cases d <;> simp only [decoded, Ending.done.injEq, Ending.raised.injEq, reduceCtorEq, exists_false,
      or_false, false_or, exists_eq_left', exists_eq_left, exists_and_left, exists_and_right] at h
    · obtain ⟨-, rfl⟩ := h; exact ⟨h1, h2, h3⟩
    · obtain ⟨-, rfl⟩ := h; exact ⟨h1, h2, h3⟩
  cases i with
  | clr => exact absurd rfl hi.1
  | rdr r => exact absurd rfl (hi.2 r)
  | ldf c n => rcases h with ⟨r, h⟩ | ⟨k, h⟩ <;> cases h; exact ⟨rfl, rfl, rfl⟩
  | build =>
    simp only [bodyOf, buildTree] at h
    split at h
    · rcases h with ⟨r, h⟩ | ⟨k, h⟩ <;> cases h
    · rcases h with ⟨r, h⟩ | ⟨k, h⟩ <;> cases h
      exact ⟨rfl, rfl, rfl⟩
  | getc c =>
    simp only [bodyOf, getcBody] at h
    split at h
    · rcases h with ⟨r, h⟩ | ⟨k, h⟩ <;> cases h
    · rcases h with ⟨r, h⟩ | ⟨k, h⟩ <;> cases h
      exact ⟨rfl, rfl, rfl⟩
  | wrh =>
    simp only [bodyOf, wrhBody] at h
    repeat' split at h
    all_goals rcases h with ⟨r, h⟩ | ⟨k, h⟩ <;> cases h
    exact ⟨rfl, rfl, rfl⟩
  | rdh =>
    simp only [bodyOf, rdhBody] at h
    repeat' split at h
    all_goals rcases h with ⟨r, h⟩ | ⟨k, h⟩ <;> cases h
    all_goals exact ⟨rfl, rfl, rfl⟩
  | enc c =>
    simp only [bodyOf, encBody] at h
    split at h
    · rcases h with ⟨r, h⟩ | ⟨k, h⟩ <;> cases h
    · split at h
      · rcases h with ⟨r, h⟩ | ⟨k, h⟩ <;> cases h
        exact ⟨rfl, rfl, rfl⟩
      · rw [putPayload_eq] at h
        rcases h with ⟨r, h⟩ | ⟨k, h⟩ <;> cases h
        exact ⟨rfl, rfl, rfl⟩
  | dec => exact hdec s _ rfl rfl rfl h
  | decm =>
    simp only [bodyOf, decmBody] at h
    split at h
    · rcases h with ⟨r, h⟩ | ⟨k, h⟩ <;> cases h
    · rename_i codes code hg
      exact hdec (s.withCode code) _ rfl rfl rfl h

/-- The fault kinds each pseudocode can raise (R160). -/
def raises : Instr → List FaultKind
  | .clr => []
  | .ldf _ _ => []
  | .build => []
  | .getc _ => []
  | .wrh => []
  | .rdh => [.malformedHeader, .truncatedStream]
  | .enc _ => [.unknownSymbol]
  | .dec => [.malformedHeader, .truncatedStream]
  | .decm => [.malformedHeader, .truncatedStream]
  | .rdr _ => []

theorem walkDown_raised {ns : List Node} {total : Count} {k : Nat} {cur : Idx} {n : Nat} {p q : Payload}
    {f : FaultKind} (h : walkDown ns total k cur n p = .raised f q) :
    f = .malformedHeader ∨ f = .truncatedStream := by
  induction k generalizing cur n p with
  | zero => simp [walkDown] at h
  | succ k ih =>
    unfold walkDown at h
    cases hb : payloadBit total p with
    | error g =>
      rw [hb] at h
      simp only [Decoded.raised.injEq] at h
      rw [← h.1]; exact (payloadBit_error hb).imp And.left And.left
    | ok r =>
      obtain ⟨b, q'⟩ := r
      rw [hb] at h
      simp only at h
      repeat' split at h
      all_goals try (simp at h)
      exact ih h

theorem bodyOf_raises {i : Instr} {s u : State} {k : FaultKind} (h : bodyOf i s = .raised k u) :
    k ∈ raises i := by
  cases i with
  | clr => cases h
  | rdr r => cases h
  | ldf c n => cases h
  | build => simp only [bodyOf, buildTree] at h; split at h <;> cases h
  | getc c => simp only [bodyOf, getcBody] at h; split at h <;> cases h
  | wrh => simp only [bodyOf, wrhBody] at h; (repeat' split at h) <;> cases h
  | rdh =>
    rcases rdhBody_ends s with ⟨r, v, e, -⟩ | ⟨k', v, e, -, hk⟩
    · exact absurd (e.symm.trans h) (by simp)
    · have := e.symm.trans h
      simp only [Ending.raised.injEq] at this
      rw [← this.1]; simpa [raises] using hk
  | enc c =>
    simp only [bodyOf, encBody] at h
    split at h
    · cases h
    · split at h <;> cases h
      simp [raises]
  | dec =>
    simp only [bodyOf, decBody] at h
    cases hw : walkDown s.node s.total MAXLEN s.root 0 ⟨s.ppos, s.src⟩ with
    | symbol c m q => rw [hw] at h; cases h
    | stuck f => rw [hw] at h; cases h
    | raised f q =>
      rw [hw] at h
      simp only [decoded, Ending.raised.injEq] at h
      rw [← h.1]; simpa [raises] using walkDown_raised hw
  | decm =>
    simp only [bodyOf, decmBody] at h
    split at h
    · cases h
    · rename_i codes code hg
      rcases walked_matchBits s.symidx codes s.total MAXLEN [] ⟨s.ppos, s.src⟩ with
        ⟨c, m, q, hw⟩ | ⟨f, q, hw, hk⟩
      · rw [hw] at h; cases h
      · rw [hw] at h
        simp only [decoded, Ending.raised.injEq] at h
        rw [← h.1]; simpa [raises] using hk

/-! ### One step -/

theorem decode_cases (w : CmdWord) : (∃ e, decode w = .error e) ∨ ∃ i, decode w = .ok i := by
  cases decode w with
  | error e => exact .inl ⟨e, rfl⟩
  | ok i => exact .inr ⟨i, rfl⟩

theorem step_idle {s : State} (h : s.cmds = []) : step s = .next s := by simp only [step, fetch, h]

theorem step_legal {s : State} {w : CmdWord} {rest : List CmdWord} {i : Instr} (h : s.cmds = w :: rest)
    (hd : decode w = .ok i) : step s = exec i (s.withCmds rest) := by simp only [step, fetch, h, hd]

theorem step_illegal {s : State} {w : CmdWord} {rest : List CmdWord} {e : Reject} (h : s.cmds = w :: rest)
    (hd : decode w = .error e) : step s = .next (illegalCommand (opcField w) (s.withCmds rest)) := by
  simp only [step, fetch, h, hd]

/-- The fields of `R0` (R66). -/
theorem packR0_fields (e : BitVec 4) (o : Opc) (l : BitVec 8) (c : Sym) :
    (packR0 e o l c).extractLsb' 60 4 = e ∧ (packR0 e o l c).extractLsb' 56 4 = o ∧
      (packR0 e o l c).extractLsb' 16 40 = 0#40 ∧ (packR0 e o l c).extractLsb' 0 16 = l ++ c := by
  unfold packR0
  refine ⟨?_, ?_, ?_, ?_⟩
  · ext i hi
    simp only [BitVec.getElem_extractLsb', BitVec.getLsbD_append]
    simp [show ¬ 60 + i < 8 by omega, show ¬ 60 + i - 8 < 8 by omega, show ¬ 60 + i - 8 - 8 < 40 by omega,
      show ¬ 60 + i - 8 - 8 - 40 < 4 by omega, show 60 + i - 8 - 8 - 40 - 4 = i by omega,
      BitVec.getLsbD_eq_getElem hi]
  · ext i hi
    simp only [BitVec.getElem_extractLsb', BitVec.getLsbD_append]
    simp [show ¬ 56 + i < 8 by omega, show ¬ 56 + i - 8 < 8 by omega, show ¬ 56 + i - 8 - 8 < 40 by omega,
      show 56 + i - 8 - 8 - 40 = i by omega, hi]
  · ext i hi
    simp only [BitVec.getElem_extractLsb', BitVec.getLsbD_append]
    simp [show ¬ 16 + i < 8 by omega, show ¬ 16 + i - 8 < 8 by omega, show 16 + i - 8 - 8 = i by omega, hi]
  · apply BitVec.eq_of_getLsbD_eq
    intro i hi
    simp only [BitVec.getLsbD_extractLsb', BitVec.getLsbD_append, Nat.zero_add, hi, decide_true, Bool.true_and]
    by_cases h : i < 8
    · simp [h]
    · simp [h, show i - 8 < 8 by omega]

theorem faultResponse_fields (e : BitVec 4) (o : Opc) :
    (faultResponse e o).r0.extractLsb' 60 4 = e ∧ (faultResponse e o).r0.extractLsb' 56 4 = o ∧
      (faultResponse e o).r0.extractLsb' 16 40 = 0#40 ∧ (faultResponse e o).r0.extractLsb' 0 16 = 0#16 :=
  packR0_fields e o 0 0

end Sys2Proof.Machine
end

