-- ==== Sys2Proof/Laws/Isomorphism.lean ====
section
/-! SUPPORT. Two arenas that hold one tree correspond entry by entry (44_deserializer.md R125), and how
`parse` meets a full arena (R123 a). -/

namespace Sys2Proof.Machine

/-- What corresponding entries have in common, for the pairs `z` of indices. -/
def Paired (z : List (Idx × Idx)) (n m : Node) : Prop :=
  m.isLeaf = n.isLeaf ∧ (n.isLeaf = true → m.symbol = n.symbol) ∧
    ((n.left = NIL ∧ m.left = NIL ∧ n.right = NIL ∧ m.right = NIL) ∨
      ((n.left, m.left) ∈ z ∧ (n.right, m.right) ∈ z))

theorem Paired.mono {z z' : List (Idx × Idx)} {n m : Node} (h : Paired z n m) (hz : ∀ p ∈ z, p ∈ z') :
    Paired z' n m :=
  ⟨h.1, h.2.1, h.2.2.imp id fun h => ⟨hz _ h.1, hz _ h.2⟩⟩

/-- The preorder index lists of one tree in two arenas pair its entries up. -/
theorem Holds.paired {ns ms : List Node} {p q i j : Idx} {t : CodeTree} {is js : List Idx}
    (h : Holds ns p i t is) (g : Holds ms q j t js) :
    (i, j) ∈ is.zip js ∧ ∀ a b, (a, b) ∈ is.zip js → ∃ n m, nodeAt ns a = some n ∧ nodeAt ms b = some m ∧
      Paired (is.zip js) n m ∧
      ((a = i ∧ b = j ∧ n.parent = p ∧ m.parent = q) ∨ (n.parent, m.parent) ∈ is.zip js) := by
  induction h generalizing q j js with
  | @leaf p i n c at_ up nil sym =>
    cases g with
    | @leaf _ _ m _ at' up' nil' sym' =>
      refine ⟨by simp, fun a b hab => ?_⟩
      simp only [List.zip_cons_cons, List.zip_nil_right, List.mem_singleton, Prod.mk.injEq] at hab
      obtain ⟨rfl, rfl⟩ := hab
      have e1 := nil
      have e2 := nil'
      simp only [Node.isLeaf, Bool.and_eq_true, decide_eq_true_eq] at e1 e2
      exact ⟨n, m, at_, at', ⟨nil'.trans nil.symm, fun _ => sym'.trans sym.symm, .inl ⟨e1.1, e2.1, e1.2, e2.2⟩⟩,
        .inl ⟨rfl, rfl, up, up'⟩⟩
  | @fork p i n l r ls rs at_ up left right ihl ihr =>
    cases g with
    | @fork _ _ m _ _ ls' rs' at' up' left' right' =>
      obtain ⟨hl, hL⟩ := ihl left'
      obtain ⟨hr, hR⟩ := ihr right'
      have hlen : ls.length = ls'.length := by rw [left.length_eq, left'.length_eq]
      have hz : (i :: (ls ++ rs)).zip (j :: (ls' ++ rs')) = (i, j) :: (ls.zip ls' ++ rs.zip rs') := by
        rw [List.zip_cons_cons, List.zip_append hlen]
      rw [hz]
      have sl : ∀ x ∈ ls.zip ls', x ∈ (i, j) :: (ls.zip ls' ++ rs.zip rs') := fun x hx => by simp [hx]
      have sr : ∀ x ∈ rs.zip rs', x ∈ (i, j) :: (ls.zip ls' ++ rs.zip rs') := fun x hx => by simp [hx]
      refine ⟨by simp, fun a b hab => ?_⟩
      rcases List.mem_cons.1 hab with hab | hab
      · simp only [Prod.mk.injEq] at hab
        obtain ⟨rfl, rfl⟩ := hab
        have e1 : n.isLeaf = false := by simp [Node.isLeaf, left.root_ne]
        have e2 : m.isLeaf = false := by simp [Node.isLeaf, left'.root_ne]
        refine ⟨n, m, at_, at', ⟨e2.trans e1.symm, fun h => ?_, .inr ⟨sl _ hl, sr _ hr⟩⟩,
          .inl ⟨rfl, rfl, up, up'⟩⟩
        rw [e1] at h; cases h
      · rcases List.mem_append.1 hab with hab | hab
        · obtain ⟨x, y, h1, h2, h3, h4⟩ := hL a b hab
          refine ⟨x, y, h1, h2, h3.mono sl, .inr ?_⟩
          rcases h4 with ⟨-, -, e1, e2⟩ | h4
          · rw [e1, e2]; simp
          · exact sl _ h4
        · obtain ⟨x, y, h1, h2, h3, h4⟩ := hR a b hab
          refine ⟨x, y, h1, h2, h3.mono sr, .inr ?_⟩
          rcases h4 with ⟨-, -, e1, e2⟩ | h4
          · rw [e1, e2]; simp
          · exact sr _ h4

/-- The map the pairs make: NIL where there is no pair. -/
def pairing (z : List (Idx × Idx)) (a : Idx) : Idx := ((z.find? fun p => decide (p.1 = a)).map Prod.snd).getD NIL

theorem mem_zip_iff {is js : List Idx} {a b : Idx} :
    (a, b) ∈ is.zip js ↔ ∃ k : Nat, is[k]? = some a ∧ js[k]? = some b := by
  rw [List.mem_iff_getElem?]
  simp only [List.getElem?_zip_eq_some]

theorem pairing_of_mem {is js : List Idx} (hn : is.Nodup) {a b : Idx} (h : (a, b) ∈ is.zip js) :
    pairing (is.zip js) a = b := by
  unfold pairing
  cases hf : (is.zip js).find? fun p => decide (p.1 = a) with
  | none =>
    have := List.find?_eq_none.1 hf _ h
    simp at this
  | some p =>
    have h1 := List.mem_of_find?_eq_some hf
    have h2 : p.1 = a := by simpa using List.find?_some hf
    obtain ⟨x, y⟩ := p
    subst h2
    obtain ⟨k, k1, k2⟩ := mem_zip_iff.1 h
    obtain ⟨l, l1, l2⟩ := mem_zip_iff.1 h1
    have hk : k < is.length := (List.getElem?_eq_some_iff.1 k1).1
    have : k = l := (List.getElem?_inj hk hn).1 (k1.trans l1.symm)
    subst this
    rw [k2] at l2
    simpa using l2.symm

theorem pairing_of_not_mem {is js : List Idx} {a : Idx} (h : a ∉ is) : pairing (is.zip js) a = NIL := by
  unfold pairing
  cases hf : (is.zip js).find? fun p => decide (p.1 = a) with
  | none => rfl
  | some p =>
    have h1 := List.mem_of_find?_eq_some hf
    have h2 : p.1 = a := by simpa using List.find?_some hf
    obtain ⟨x, y⟩ := p
    subst h2
    exact absurd (List.of_mem_zip h1).1 h

theorem exists_pair {is js : List Idx} (hl : is.length = js.length) {a : Idx} (h : a ∈ is) :
    ∃ b, (a, b) ∈ is.zip js := by
  obtain ⟨k, hk, rfl⟩ := List.getElem_of_mem h
  exact ⟨js[k], mem_zip_iff.2 ⟨k, List.getElem?_eq_getElem hk, List.getElem?_eq_getElem (hl ▸ hk)⟩⟩

theorem exists_pair_right {is js : List Idx} (hl : is.length = js.length) {b : Idx} (h : b ∈ js) :
    ∃ a, (a, b) ∈ is.zip js := by
  obtain ⟨k, hk, rfl⟩ := List.getElem_of_mem h
  exact ⟨is[k]'(hl ▸ hk), mem_zip_iff.2 ⟨k, List.getElem?_eq_getElem (hl ▸ hk), List.getElem?_eq_getElem hk⟩⟩

theorem pair_unique_left {is js : List Idx} (hn : js.Nodup) {a a' b : Idx} (h : (a, b) ∈ is.zip js)
    (h' : (a', b) ∈ is.zip js) : a = a' := by
  obtain ⟨k, k1, k2⟩ := mem_zip_iff.1 h
  obtain ⟨l, l1, l2⟩ := mem_zip_iff.1 h'
  have hk : k < js.length := (List.getElem?_eq_some_iff.1 k2).1
  have : k = l := (List.getElem?_inj hk hn).1 (k2.trans l2.symm)
  subst this
  rw [k1] at l1
  simpa using l1

end Sys2Proof.Machine
end

