-- ==== Sys2Proof/Laws/PerInstr.lean ====
section
/-! SUPPORT. What holds of every command as syntax, one lemma per constructor. -/

namespace Sys2Proof.Laws.EncodedFields

/-- The word of a command has the command's opcode in `OPC`, zeros in `RSV`, and its operands in `SYM` and
`IMM` (30_encoding.md R60, R61, R63). -/
def Statement (i : Instr) : Prop :=
  opcField (encode i) = i.opcode ∧ rsvField (encode i) = 0 ∧ symField (encode i) = i.symOperand ∧
    immField (encode i) = i.immOperand

theorem of_any (i : Instr) : Statement i := by simp [Statement, encode]

theorem clr : Statement .clr := of_any _
theorem ldf (c : Sym) (n : Freq) : Statement (.ldf c n) := of_any _
theorem build : Statement .build := of_any _
theorem getc (c : Sym) : Statement (.getc c) := of_any _
theorem wrh : Statement .wrh := of_any _
theorem rdh : Statement .rdh := of_any _
theorem enc (c : Sym) : Statement (.enc c) := of_any _
theorem dec : Statement .dec := of_any _
theorem decm : Statement .decm := of_any _
theorem rdr (r : Sym) : Statement (.rdr r) := of_any _

end Sys2Proof.Laws.EncodedFields
end

