-- ==== Sys2Proof/Laws/Weights.lean ====
section
/-! SUPPORT. The weights of a built tree as exact sums (41_tree_builder.md R94), and what BUILD makes
present. -/

namespace Sys2Proof.Machine

/-- Below every entry of a held tree stands a held tree. -/
theorem Holds.at_entry {ns : List Node} {par i : Idx} {t : CodeTree} {is : List Idx} (h : Holds ns par i t is)
    (hn : is.Nodup) {j : Idx} (hj : j ∈ is) : ∃ p u js, Holds ns p j u js ∧ js.Nodup := by
  induction h with
  | leaf at_ up nil sym =>
    rw [List.mem_singleton.1 hj]
    exact ⟨_, _, _, .leaf at_ up nil sym, by simp⟩
  | fork at_ up left right ihl ihr =>
    have hn2 := (List.nodup_cons.1 hn).2
    rw [List.nodup_append] at hn2
    rcases List.mem_cons.1 hj with rfl | hj
    · exact ⟨_, _, _, .fork at_ up left right, hn⟩
    · rcases List.mem_append.1 hj with hj | hj
      · exact ihl hn2.1 hj
      · exact ihr hn2.2.1 hj

theorem freq_sum_le (freq : Table Freq) {cs : List Sym} (h : cs.Nodup) :
    (cs.map fun c => (freqAt freq c).toNat).sum ≤ 256 * (2 ^ 32 - 1) := by
  have h1 : (cs.map fun c => (freqAt freq c).toNat).sum ≤ cs.length * (2 ^ 32 - 1) := by
    clear h
    induction cs with
    | nil => simp
    | cons c cs ih =>
      have := (freqAt freq c).isLt
      simp only [List.map_cons, List.sum_cons, List.length_cons]; omega
  have h2 : cs.length ≤ allSyms.length := (h.subperm fun c _ => mem_allSyms c).length_le
  have h3 : allSyms.length = 256 := by simp [allSyms]
  calc _ ≤ cs.length * (2 ^ 32 - 1) := h1
    _ ≤ _ := Nat.mul_le_mul_right _ (by omega)

/-- A held tree of a consistent state has distinct leaf symbols. -/
theorem Holds.symbols_nodup {s : State} (hc : Consistent s) {par i : Idx} {t : CodeTree} {is : List Idx}
    (h : Holds s.node par i t is) (hn : is.Nodup) : t.leaves.Nodup := by
  refine h.leaves_nodup hn fun j k m n hm hn hml hnl e => ?_
  rw [← (hc.symbols m.symbol j (ne_NIL_of_nodeAt hm)).2 ⟨m, hm, hml, rfl⟩,
    ← (hc.symbols m.symbol k (ne_NIL_of_nodeAt hn)).2 ⟨n, hn, hnl, e.symm⟩]

/-- The weight of an entry is the exact sum of the frequencies below it, and not 0 (R94). -/
theorem Holds.weight_sum {s : State} (hc : Consistent s) (hb : s.phase = .built) {par i : Idx} {t : CodeTree}
    {is : List Idx} (h : Holds s.node par i t is) (hn : is.Nodup) {n : Node} (hi : nodeAt s.node i = some n) :
    n.weight.toNat = (t.leaves.map fun c => (freqAt s.freq c).toNat).sum ∧ 0 < n.weight.toNat := by
  induction h generalizing n with
  | leaf at_ up nil sym =>
    rw [hi] at at_
    obtain rfl := Option.some.inj at_
    have := hc.built hb n (mem_of_nodeAt hi)
    rw [BuiltWeight, if_pos nil] at this
    have h1 := (freqAt s.freq n.symbol).isLt
    have h2 : (freqAt s.freq n.symbol).toNat ≠ 0 := fun e => this.2 (BitVec.eq_of_toNat_eq (by simpa using e))
    rw [this.1, BitVec.toNat_setWidth, ← sym]
    simp only [CodeTree.leaves, List.map_cons, List.map_nil, List.sum_cons, List.sum_nil]
    omega
  | @fork par i x l r ls rs at_ up left right ihl ihr =>
    have hd := (Holds.fork at_ up left right).symbols_nodup hc hn
    rw [hi] at at_
    obtain rfl := Option.some.inj at_
    have hn2 := (List.nodup_cons.1 hn).2
    rw [List.nodup_append] at hn2
    have := hc.built hb n (mem_of_nodeAt hi)
    rw [BuiltWeight, if_neg (by simp [Node.isLeaf, left.root_ne])] at this
    obtain ⟨a, b, ha, hb', hw⟩ := this
    obtain ⟨ea, pa⟩ := ihl hn2.1 ha
    obtain ⟨eb, pb⟩ := ihr hn2.2.1 hb'
    have hs := freq_sum_le s.freq hd
    simp only [CodeTree.leaves, List.map_append, List.sum_append] at hs ⊢
    rw [hw, BitVec.toNat_add, Nat.mod_eq_of_lt (by omega)]
    omega

/-- After BUILD exactly the symbols of nonzero frequency are present (R15, R91). -/
theorem BuiltFrom.present_iff {s t : State} (h : BuiltFrom s t) (c : Sym) :
    symidxAt t.symidx c ≠ NIL ↔ freqAt s.freq c ≠ 0 := by
  constructor
  · intro hx hf; exact hx (h.absent c hf)
  · intro hf
    have hm : c ∈ presentSyms s.freq := mem_presentSyms.2 hf
    obtain ⟨j, hj, e⟩ := List.getElem_of_mem hm
    obtain ⟨e1, n, hn, -⟩ := h.leaf j c (by rw [List.getElem?_eq_getElem hj, e])
    rw [e1]; exact ne_NIL_of_nodeAt hn

/-- Sums over the symbols with a nonzero frequency are sums over all symbols. -/
theorem sum_presentSyms (freq : Table Freq) (ss : List Sym) :
    ((ss.filter fun c => decide (freqAt freq c ≠ 0)).map fun c => (freqAt freq c).toNat).sum =
      (ss.map fun c => (freqAt freq c).toNat).sum := by
  induction ss with
  | nil => rfl
  | cons c ss ih =>
    by_cases h : freqAt freq c = 0
    · simp only [h, ne_eq, not_true_eq_false, decide_false, Bool.false_eq_true, not_false_eq_true,
        List.filter_cons_of_neg, List.map_cons, List.sum_cons]
      simp only [ne_eq] at ih
      rw [ih]; simp
    · simp only [ne_eq, h, not_false_eq_true, decide_true, List.filter_cons_of_pos, List.map_cons, List.sum_cons]
      simp only [ne_eq] at ih
      rw [ih]

/-- The leaves of the tree are the present symbols. -/
theorem TreeAt.leaves_perm {s : State} (hc : Consistent s) {t : CodeTree} (ht : TreeAt s t) :
    t.leaves.Perm (allSyms.filter fun c => decide (symidxAt s.symidx c ≠ NIL)) := by
  refine (List.perm_ext_iff_of_nodup (ht.leaves_nodup hc) (nodup_allSyms.filter _)).2 fun c => ?_
  rw [List.mem_filter, ← Sys2Proof.Machine.present_iff hc ht]
  simp [mem_allSyms]

theorem TreeAt.leafCount_eq {s : State} (hc : Consistent s) {t : CodeTree} (ht : TreeAt s t) :
    leafCount s = t.leaves.length := (ht.leaves_perm hc).length_eq.symm

end Sys2Proof.Machine
end

