-- ==== Sys2Proof/Laws/Writes.lean ====
section
/-! SUPPORT. What a command's pseudocode leaves alone, whichever way it ends (10_state.md R29), and the two
steps from there to the state a command leaves: ERR and the response. -/

namespace Sys2Proof.Machine

/-- The pseudocode ended, completed or raised, in the state `u`. -/
def Ending.In (e : Ending) (u : State) : Prop := (∃ r, e = .done r u) ∨ ∃ k, e = .raised k u

@[simp] theorem in_done {r : Reply} {u v : State} : (Ending.done r v).In u ↔ u = v := by
  simp [Ending.In, eq_comm]
@[simp] theorem in_raised {k : FaultKind} {u v : State} : (Ending.raised k v).In u ↔ u = v := by
  simp [Ending.In, eq_comm]
@[simp] theorem in_stuck {f : Fault} {u : State} : ¬ (Ending.stuck f).In u := by
  simp [Ending.In]

theorem ldf_writes {c : Sym} {n : Freq} {s u : State} (h : (bodyOf (.ldf c n) s).In u) :
    u = s.withFreq (setFreq s.freq c n) := by
  simpa [bodyOf] using h

theorem build_writes {s u : State} (h : (buildTree s).In u) :
    u = (((s.withNode u.node).withSymidx u.symidx).withRoot u.root).withPhase .built := by
  unfold buildTree at h
  split at h
  · simp at h
  · rw [in_done] at h; subst h; rfl

theorem getc_writes {c : Sym} {s u : State} (h : (getcBody c s).In u) :
    u = s.withCode u.code ∧ LookedUp s [c] u.code := by
  unfold getcBody at h
  split at h
  · simp at h
  · rename_i w code hg
    rw [in_done] at h; subst h
    exact ⟨rfl, getcode_lookedUp hg⟩

theorem wrh_writes {s u : State} (h : (wrhBody s).In u) :
    ∃ bits, u = ((((s.withCode u.code).withFrozen true).withTotal u.total).withPpos 0).withSink
      (s.sink ++ bits) ∧ LookedUp s allSyms u.code := by
  unfold wrhBody at h
  split at h
  · simp at h
  · rename_i cs code hg
    repeat' split at h
    all_goals first | (rw [in_done] at h; subst h; exact ⟨_, rfl, getcodes_lookedUp s allSyms hg⟩) | (simp at h)

theorem rdh_writes {s u : State} (h : (rdhBody s).In u) :
    (∃ v, s.src = v ++ u.src) ∧ ((u.total = s.total ∧ u.ppos = s.ppos) ∨ u.ppos = 0) ∧
    u = ((((((s.withTotal u.total).withPpos u.ppos).withSrc u.src).withNode u.node).withSymidx u.symidx).withRoot
      u.root).withPhase u.phase := by
  unfold rdhBody at h
  rw [readField_eq] at h
  by_cases hl : WCOUNT ≤ s.src.length
  · rw [if_pos hl] at h
    simp only at h
    generalize hp : parse NNODE NIL ⟨s.src.drop WCOUNT, s.node, s.symidx⟩ = p at h
    have split : ∀ w x : BitStr, s.src.drop WCOUNT = w ++ x → s.src = (s.src.take WCOUNT ++ w) ++ x := by
      intro w x hx
      rw [List.append_assoc, ← hx, List.take_append_drop]
    cases p with
    | raised k q =>
      simp only [in_raised] at h
      obtain ⟨w, hw⟩ := (parse_raised _ hp).src
      have hsrc := split w q.src hw
      rw [h]
      exact ⟨⟨_, hsrc⟩, .inr rfl, rfl⟩
    | made i q =>
      simp only [in_done] at h
      obtain ⟨t, hm⟩ := parse_made _ hp
      have hdrop : s.src.drop WCOUNT = t.header ++ q.src := hm.src
      have hsrc := split t.header q.src hdrop
      rw [h]
      exact ⟨⟨_, hsrc⟩, .inr rfl, rfl⟩
  · rw [if_neg hl] at h
    simp only [in_raised] at h
    have hu : u = s.withSrc [] := h
    rw [hu]
    refine ⟨⟨s.src, (List.append_nil _).symm⟩, .inl ⟨rfl, rfl⟩, ?_⟩
    cases s
    rfl

theorem enc_writes {c : Sym} {s u : State} (h : (encBody c s).In u) :
    ∃ w, u = ((s.withCode u.code).withSink (s.sink ++ w)).withPpos u.ppos ∧ LookedUp s [c] u.code := by
  unfold encBody at h
  split at h
  · simp at h
  · rename_i w code hg
    split at h
    · rw [in_raised] at h; subst h
      exact ⟨[], by cases s; simp [State.withCode, State.withSink, State.withPpos], getcode_lookedUp hg⟩
    · rw [putPayload_eq, in_done] at h; subst h
      exact ⟨w, rfl, getcode_lookedUp hg⟩

/-- What a decode consumes: `w`, counted by PPOS, never past TOTAL, at most 255 bits. -/
structure Consumed (s u : State) (w : BitStr) : Prop where
  src : s.src = w ++ u.src
  ppos : u.ppos = s.ppos + BitVec.ofNat 64 w.length
  within : w ≠ [] → s.ppos.toNat + w.length ≤ s.total.toNat
  bound : w.length ≤ 255

theorem decoded_in {s u : State} {d : Decoded} (h : (decoded s d).In u) :
    ∃ q, u = s.withPayload q ∧ ((∃ c m, d = .symbol c m q) ∨ ∃ f, d = .raised f q) := by
  cases d with
  | symbol c m q => exact ⟨q, in_done.1 h, .inl ⟨c, m, rfl⟩⟩
  | raised f q => exact ⟨q, in_raised.1 h, .inr ⟨f, rfl⟩⟩
  | stuck f => exact absurd h in_stuck

theorem dec_writes {s u : State} (h : (decBody s).In u) :
    u = (s.withPpos u.ppos).withSrc u.src ∧ ∃ w, Consumed s u w := by
  obtain ⟨q, rfl, hq⟩ := decoded_in h
  obtain ⟨w, e1, e2, e3, e4⟩ := moved_walkDown _ _ _ _ _ _ hq
  exact ⟨rfl, w, e1, e2, e3, e4⟩

theorem decm_writes {s u : State} (h : (decmBody s).In u) :
    u = ((s.withCode u.code).withPpos u.ppos).withSrc u.src ∧ LookedUp s allSyms u.code ∧
      ∃ w, Consumed s u w := by
  unfold decmBody at h
  split at h
  · simp at h
  · rename_i codes code hg
    obtain ⟨q, rfl, hq⟩ := decoded_in h
    obtain ⟨w, e1, e2, e3, e4⟩ := moved_matchBits _ _ _ _ _ _ hq
    exact ⟨rfl, getcodes_lookedUp s allSyms hg, w, e1, e2, e3, e4⟩

/-- From the state the pseudocode ends in to the state the command leaves: ERR and the response only. -/
structure Ended (u t : State) : Prop where
  same : t = (u.withErr t.err).withResps t.resps
  one : ∃ r, t.resps = u.resps ++ [r]
  sticky : u.err ≠ 0 → t.err = u.err

theorem ended_respond (opc : Opc) (r : Reply) (u : State) : Ended u (respond opc r u) :=
  ⟨rfl, ⟨_, rfl⟩, fun _ => rfl⟩
theorem ended_refuse (opc : Opc) (u : State) : Ended u (refuse opc u) := ⟨rfl, ⟨_, rfl⟩, fun _ => rfl⟩
theorem ended_faulted (c : BitVec 4) (opc : Opc) {u : State} (h : u.err = 0) : Ended u (faulted c opc u) :=
  ⟨rfl, ⟨_, rfl⟩, fun h' => absurd h h'⟩

/-- How a command can end, told by the state it leaves: CLR, RDR, turned away (by the fault state or by the
phase table), or run to the end of its pseudocode in a state `u`. -/
theorem ended_cases {i : Instr} {s t : State} (h : exec i s = .next t) (hw : i.wellFormed = true) :
    (i = .clr ∧ t = respond 0x1 {} (clearCore s)) ∨
    (∃ r, i = .rdr r ∧ Ended s t ∧ t.err = s.err) ∨
    (Dispatched i ∧ Ended s t ∧ (t.err = s.err ∨ (s.err = 0 ∧ PhaseForbids i s))) ∨
    (Dispatched i ∧ s.err = 0 ∧ ∃ u, Ended u t ∧ u.err = s.err ∧ (bodyOf i s).In u ∧
      (t.err = s.err ∨ raises i ≠ [])) := by
  cases answers h with
  | cleared is => exact .inl ⟨is, rfl⟩
  | @read r v is reg => exact .inr (.inl ⟨r, is, ended_respond .., rfl⟩)
  | @unassigned r is reg =>
    subst is
    exfalso
    simp only [Instr.wellFormed, decide_eq_true_eq, BitVec.le_def, maxReg] at hw
    have h' : r.toNat ≤ 4 := hw
    have : r.toNat = 0 ∨ r.toNat = 1 ∨ r.toNat = 2 ∨ r.toNat = 3 ∨ r.toNat = 4 := by omega
    unfold hostRegister at reg
    rcases this with e | e | e | e | e <;> rw [e] at reg <;> simp at reg
  | refused is err => exact .inr (.inr (.inl ⟨is, ended_refuse .., .inl rfl⟩))
  | forbidden is err phase => exact .inr (.inr (.inl ⟨is, ended_faulted _ _ err, .inr ⟨err, phase⟩⟩))
  | @done r u is err phase body =>
    have hb : (bodyOf i s).In u := .inl ⟨_, body⟩
    exact .inr (.inr (.inr ⟨is, err, u, ended_respond .., (bodyOf_quiet is hb).err, hb,
      .inl (bodyOf_quiet is hb).err⟩))
  | @raised k u is err phase body =>
    have hb : (bodyOf i s).In u := .inr ⟨_, body⟩
    have hu := (bodyOf_quiet is hb).err
    refine .inr (.inr (.inr ⟨is, err, u, ?_, hu, hb, .inr (List.ne_nil_of_mem (bodyOf_raises body))⟩))
    rw [takeFault_eq (hu.trans err)]
    exact ended_faulted _ _ (hu.trans err)

theorem Ended.fields {u t : State} (h : Ended u t) :
    t.freq = u.freq ∧ t.node = u.node ∧ t.symidx = u.symidx ∧ t.code = u.code ∧ t.root = u.root ∧
    t.phase = u.phase ∧ t.frozen = u.frozen ∧ t.total = u.total ∧ t.ppos = u.ppos ∧ t.src = u.src ∧
    t.sink = u.sink ∧ t.cmds = u.cmds := by
  have := h.same
  refine ⟨?_, ?_, ?_, ?_, ?_, ?_, ?_, ?_, ?_, ?_, ?_, ?_⟩ <;> (conv_lhs => rw [this]) <;> rfl



/-- The fields a command's row of 30_encoding.md R67 names are the only ones its reply can have. -/
def Replies (i : Instr) (r : Reply) : Prop :=
  match i with
  | .clr => r = {}
  | .ldf _ _ => r = {}
  | .build => r = {}
  | .getc _ => r = { len := r.len, cb := r.cb }
  | .wrh => r = { r1 := r.r1 }
  | .rdh => r = { r1 := r.r1 }
  | .enc _ => r = { len := r.len }
  | .dec => r = { len := r.len, sym := r.sym }
  | .decm => r = { len := r.len, sym := r.sym }
  | .rdr _ => r = { r1 := r.r1 }

theorem decoded_reply {s u : State} {d : Decoded} {r : Reply} (h : decoded s d = .done r u) :
    r = { len := r.len, sym := r.sym } := by
  cases d <;> simp only [decoded, Ending.done.injEq, reduceCtorEq] at h
  rw [← h.1]

theorem bodyOf_reply {i : Instr} {s u : State} {r : Reply} (h : bodyOf i s = .done r u) : Replies i r := by
  cases i with
  | clr => cases h; rfl
  | rdr n => cases h; rfl
  | ldf c n => cases h; rfl
  | build =>
    simp only [bodyOf, buildTree] at h
    split at h
    · cases h
    · exact (Ending.done.inj h).1.symm
  | getc c =>
    simp only [bodyOf, getcBody] at h
    split at h
    · cases h
    · obtain ⟨rfl, -⟩ := Ending.done.inj h; rfl
  | wrh =>
    simp only [bodyOf, wrhBody] at h
    repeat' split at h
    all_goals first | cases h; done | (obtain ⟨rfl, -⟩ := Ending.done.inj h; rfl)
  | rdh =>
    simp only [bodyOf, rdhBody] at h
    generalize readField WCOUNT 0 s.src = x at h
    obtain ⟨o, src⟩ := x
    cases o with
    | none => cases h
    | some t =>
      simp only at h
      generalize parse NNODE NIL ⟨src, s.node, s.symidx⟩ = p at h
      cases p with
      | raised k q => cases h
      | made i q => obtain ⟨rfl, -⟩ := Ending.done.inj h; rfl
  | enc c =>
    simp only [bodyOf, encBody] at h
    repeat' split at h
    all_goals first | cases h; done | (obtain ⟨rfl, -⟩ := Ending.done.inj h; rfl)
  | dec => exact decoded_reply h
  | decm =>
    simp only [bodyOf, decmBody] at h
    split at h
    · cases h
    · exact decoded_reply h

end Sys2Proof.Machine
end

