-- ==== Sys2Proof/Laws/Runs.lean ====
section
/-! SUPPORT. Each command run from a consistent state, as one equation or one inversion: what proofs about
the commands cite. -/

namespace Sys2Proof.Machine

theorem build_next {s : State} (he : s.err = 0) (hp : s.phase = .empty) (hc : Consistent s) :
    ∃ t, exec .build s = .next (completed 0x3 t) ∧ BuiltFrom s t := by
  obtain ⟨t, h, hb⟩ := buildTree_spec hc hp
  refine ⟨t, ?_, hb⟩
  rw [exec_runs ⟨by simp, by simp⟩ he (by simp [PhaseForbids, hp])]
  show conclude _ (buildTree s) = _
  rw [h]; rfl

theorem root_built {s t : State} (hb : BuiltFrom s t) : presentCount s.freq ≠ 0 ↔ t.root ≠ NIL := by
  constructor
  · intro h e
    have := hb.someRoot h
    rw [e] at this
    have h2 := hb.consistent.arena
    simp [NNODE] at *
    omega
  · intro h e; exact h (hb.noRoot e)

theorem tree_of_present {s : State} (hc : Consistent s) {c : Sym} (h : symidxAt s.symidx c ≠ NIL) : ∃ t, TreeAt s t :=
  hc.tree fun e => h (absent_of_no_root hc e c)

theorem derive_iff {s : State} (hc : Consistent s) {t : CodeTree} (ht : TreeAt s t) (c : Sym) (w : BitStr) :
    (symidxAt s.symidx c ≠ NIL ∧ derive s.node s.symidx s.root c = .ok w) ↔ (c, w) ∈ t.codes := by
  constructor
  · rintro ⟨h, hd⟩
    obtain ⟨v, hv⟩ := CodeTree.code_of_mem_leaves ((Sys2Proof.Machine.present_iff hc ht c).1 h)
    have := derive_code hc ht hv
    rw [hd] at this
    injection this with this
    rw [this]; exact hv
  · intro h
    exact ⟨(Sys2Proof.Machine.present_iff hc ht c).2 (CodeTree.mem_leaves_of_code h), derive_code hc ht h⟩

theorem wrh_next {s : State} {t : CodeTree} (he : s.err = 0) (hb : s.phase = .built) (hc : Consistent s) (ht : TreeAt s t) :
    ∃ code, LookedUp s allSyms code ∧
      (∀ c, symidxAt s.symidx c ≠ NIL → (codeAt code c).isSome = true) ∧
      exec .wrh s = .next (completed 0x5 (afterWrh s code t) (r1 := BitVec.ofNat 64 (t.payload s.freq))) := by
  obtain ⟨code, h, -, hf, hall, -⟩ := wrhBody_spec hc hb ht
  refine ⟨code, filled_eq hc _ hf, hall, ?_⟩
  have hr : s.root ≠ NIL := by obtain ⟨is, hh, -⟩ := ht; exact hh.root_ne
  rw [exec_runs ⟨by simp, by simp⟩ he (by simp [PhaseForbids, hb, hr])]
  simp only [bodyOf, h]; rfl

theorem getcode_frozen {s : State} (hf : s.frozen = true) {code code' : Table BitStr} {c : Sym} {w : BitStr}
    (h : getcode s code c = .ok (w, code')) : code' = code := by
  unfold getcode at h
  split at h
  · simp at h; exact h.2.symm
  · split at h
    · simp at h
    · simp [hf] at h; exact h.2.symm

theorem getcodes_frozen {s : State} (hf : s.frozen = true) (ss : List Sym) {code code' : Table BitStr} {cs}
    (h : getcodes s ss code = .ok (cs, code')) : code' = code := by
  induction ss generalizing code code' cs with
  | nil => simp [getcodes] at h; exact h.2.symm
  | cons c ss ih =>
    unfold getcodes at h
    cases h1 : getcode s code c with
    | error f => simp [h1] at h
    | ok r =>
      obtain ⟨w, code1⟩ := r
      rw [h1] at h; simp only at h
      cases h2 : getcodes s ss code1 with
      | error f => simp [h2] at h
      | ok r =>
        obtain ⟨ds, code2⟩ := r
        rw [h2] at h
        simp only [Except.ok.injEq, Prod.mk.injEq] at h
        rw [← h.2, ih h2, getcode_frozen hf h1]

theorem rdh_runs {s : State} (he : s.err = 0) (hp : s.phase = .empty) : exec .rdh s = conclude 0x6 (rdhBody s) :=
  exec_runs ⟨by simp, by simp⟩ he (by simp [PhaseForbids, hp])

theorem rdh_raised {s : State} {total : Count} {v : BitStr} {k : FaultKind} {q : Parsing} (he : s.err = 0) (hp : s.phase = .empty) (hc : Consistent s)
    (hs : s.src = msb total ++ v) (h : parse NNODE NIL ⟨v, [], []⟩ = .raised k q) :
    exec .rdh s = .next (faulted k.code 0x6 (((s.withTotal total).withPpos 0).withParsing q)) := by
  obtain ⟨h1, h2, h3, -⟩ := hc.fresh hp
  rw [rdh_runs he hp]
  have : rdhBody s = .raised k (((s.withTotal total).withPpos 0).withParsing q) := by
    unfold rdhBody
    rw [hs, readField_msb]
    simp only [h1, h3, h, BitVec.ofNat_toNat, BitVec.setWidth_eq]
  rw [this, conclude_raised (by exact he)]

/-- RDH on a source that gives nodes which leave the tree unfinished, and then a stop (R123, R124). -/
theorem rdh_stop {s : State} {total : Count} {ts : List (Option Sym)} {f : FaultKind} {r r' : BitStr} (he : s.err = 0)
    (hp : s.phase = .empty) (hc : Consistent s) (hs : s.src = msb total ++ (tagBits ts ++ r)) (ht : Unfinished ts)
    (h : Stop ts.length (fun c => some c ∈ ts) f r r') :
    ∃ q, exec .rdh s = .next (faulted f.code 0x6 (((s.withTotal total).withPpos 0).withParsing q)) ∧ q.src = r' ∧
      q.node.length = ts.length := by
  obtain ⟨q, h1, h2, h3⟩ := parse_unfinished NNODE (par := NIL) (p := ⟨tagBits ts ++ r, [], []⟩) rfl ht.2.1
    (by simpa using ht.1) (by simp) ht.2.2 (fun c _ => rfl)
    ((by simpa using h : Stop (0 + ts.length) (fun c => some c ∈ ts) f r r').mono fun _ => .inr)
  exact ⟨q, rdh_raised he hp hc hs h1, h2, by simpa using h3⟩

/-- The pseudocode of RDH raises at a stop, or in the count. -/
theorem rdhBody_stops {s u : State} {k : FaultKind} (hp : s.phase = .empty) (hc : Consistent s)
    (h : rdhBody s = .raised k u) :
    (s.src.length < 64 ∧ k = .truncatedStream ∧ u.src = []) ∨ ∃ (total : Count) (ts : List (Option Sym)) (r : BitStr)
      (q : Parsing), s.src = msb total ++ (tagBits ts ++ r) ∧ Unfinished ts ∧
      Stop ts.length (fun c => some c ∈ ts) k r u.src ∧ u.src = q.src ∧
      Stopped ⟨tagBits ts ++ r, [], []⟩ k q ts r := by
  obtain ⟨h1, -, h3, -⟩ := hc.fresh hp
  unfold rdhBody at h
  rw [readField_eq, h1, h3] at h
  by_cases hl : WCOUNT ≤ s.src.length
  · rw [if_pos hl] at h
    cases hpp : parse NNODE NIL ⟨s.src.drop WCOUNT, [], []⟩ with
    | made i q => simp [hpp] at h
    | raised f q =>
      simp only [hpp, Ending.raised.injEq] at h
      obtain ⟨rfl, rfl⟩ := h
      obtain ⟨ts, r, hst⟩ := parse_stops NNODE (by simp) (by simp) hpp
      obtain ⟨a1, a2, a3, a4, a5, a6, a7⟩ := id hst
      simp only [List.length_nil, Nat.zero_add] at a1 a3 a4
      refine .inr ⟨BitVec.ofNat 64 (shiftIn 0 (s.src.take 64)), ts, r, q, ?_, ⟨a4, a2, a5⟩, ?_, rfl, a1 ▸ hst⟩
      · rw [msb_shiftIn _ (by simpa [WCOUNT] using hl), ← a1]
        exact (List.take_append_drop 64 s.src).symm
      · rw [a3] at a7
        exact a7.mono fun c h => h.resolve_left fun hx => hx rfl
  · rw [if_neg hl, Ending.raised.injEq] at h
    obtain ⟨rfl, rfl⟩ := h
    exact .inl ⟨by simpa [WCOUNT] using hl, rfl, rfl⟩

/-- The source bits of one RDH (R206). -/
theorem rdhBody_work {s u : State} (hp : s.phase = .empty) (hc : Consistent s) (h : (rdhBody s).In u) :
    s.src.length ≤ u.src.length + 2624 := by
  rcases h with ⟨r, h⟩ | ⟨k, h⟩
  · obtain ⟨total, t, q, hs, hm, -, rfl⟩ := rdhBody_made hc hp h
    have h1 := CodeTree.size_le_of_nodup hm.nodup
    have h2 := t.header_length
    have h3 := t.size_eq
    have h4 : (afterRdh s total q).src = q.src := rfl
    simp only [NNODE] at h1
    rw [hs, h4, List.length_append, List.length_append, msb_length]
    omega
  · rcases rdhBody_stops hp hc h with ⟨h1, -, h2⟩ | ⟨total, ts, r, q, hs, -, -, hq, hst⟩
    · omega
    · have := hst.consumed rfl
      rw [hs, hq, List.length_append, msb_length]
      simp only at this
      omega

theorem legal_tree {s : State} {t : CodeTree} (hc : Consistent s) (ht : TreeAt s t) : s.root ≠ NIL ∧ s.phase ≠ .empty := by
  have hr : s.root ≠ NIL := by obtain ⟨is, hh, -⟩ := ht; exact hh.root_ne
  exact ⟨hr, (tree_of_legal hc hr).1⟩

theorem dec_runs {s : State} {t : CodeTree} (he : s.err = 0) (hc : Consistent s) (ht : TreeAt s t) :
    exec .dec s = conclude 0x8 (decoded s (treeWalk s.total t 0 ⟨s.ppos, s.src⟩)) := by
  obtain ⟨h1, h2⟩ := legal_tree hc ht
  rw [exec_runs ⟨by simp, by simp⟩ he (by rintro (h | h); exact h2 h; exact h1 h)]
  show conclude _ (decBody s) = _
  rw [decBody_spec hc ht]; rfl

theorem decm_runs {s : State} {t : CodeTree} (he : s.err = 0) (hc : Consistent s) (ht : TreeAt s t) :
    ∃ code, LookedUp s allSyms code ∧ exec .decm s = conclude 0x9 (decoded (s.withCode code) (matchBits s.symidx (allSyms.map fun c => (c, codeOf s c)) s.total
        MAXLEN [] ⟨s.ppos, s.src⟩)) := by
  obtain ⟨h1, h2⟩ := legal_tree hc ht
  obtain ⟨code, hl, -, h⟩ := decmBody_spec hc
  refine ⟨code, hl, ?_⟩
  rw [exec_runs ⟨by simp, by simp⟩ he (by rintro (h | h); exact h2 h; exact h1 h)]
  show conclude _ (decmBody s) = _
  rw [h]; rfl

theorem decoded_raised {s : State} (he : s.err = 0) (opc : Opc) (k : FaultKind) (p : Payload) :
    conclude opc (decoded s (.raised k p)) = .next (faulted k.code opc (s.withPayload p)) := by
  show conclude opc (.raised k _) = _
  rw [conclude_raised (by exact he)]

theorem walk_code {total : Count} {t : CodeTree} {c : Sym} {w rest : BitStr} {p : Payload} (hw : (c, w) ∈ t.codes)
    (hs : p.src = w ++ rest) (hle : p.ppos.toNat + w.length ≤ total.toNat) :
    treeWalk total t 0 p = .symbol c w.length ⟨p.ppos + BitVec.ofNat 64 w.length, rest⟩ := by
  cases t with
  | leaf d =>
    simp only [CodeTree.codes, List.mem_singleton, Prod.mk.injEq] at hw
    obtain ⟨rfl, rfl⟩ := hw
    unfold treeWalk
    rw [payloadBit_cons hs (by rw [BitVec.lt_def]; simp at hle; omega)]
    rfl
  | fork l r =>
    have := treeWalk_path (n := 0) hw hs hle
    simpa using this

theorem matchBits_path {s : State} (hc : Consistent s) {t : CodeTree} (ht : TreeAt s t) (total : Count) {c : Sym} {w : BitStr} (hw : (c, w) ∈ t.codes)
    (v : BitStr) {u : BitStr} (hu : w = u ++ v) (hv : v ≠ []) {k : Nat} (hk : v.length ≤ k) {rest : BitStr} {p : Payload} (hs : p.src = v ++ rest)
    (hle : p.ppos.toNat + v.length ≤ total.toNat) :
    matchBits s.symidx (allSyms.map fun c => (c, codeOf s c)) total k u p = .symbol c w.length ⟨p.ppos + BitVec.ofNat 64 v.length, rest⟩ := by
  induction v generalizing u k p with
  | nil => exact absurd rfl hv
  | cons b v ih =>
    obtain ⟨k, rfl⟩ : ∃ k', k = k' + 1 := ⟨k - 1, by simp at hk; omega⟩
    have hlt : p.ppos < total := by rw [BitVec.lt_def]; simp at hle; omega
    unfold matchBits
    rw [payloadBit_cons (show p.src = b :: (v ++ rest) from hs) hlt]
    simp only
    have hmm := matchCode_codes hc ht (u ++ [b])
    by_cases hv' : v = []
    · subst hv'
      rw [(hmm c).2 (by rw [← hu]; exact hw)]
      simp only [hu]; rfl
    · have hnone : matchCode s.symidx (u ++ [b]) (allSyms.map fun c => (c, codeOf s c)) = none := by
        cases hx : matchCode s.symidx (u ++ [b]) (allSyms.map fun c => (c, codeOf s c)) with
        | none => rfl
        | some d =>
          have hd := (hmm d).1 hx
          have hpre : u ++ [b] <+: w := by rw [hu]; exact ⟨v, by simp⟩
          have := (CodeTree.code_prefix_eq hd hw hpre).2
          rw [hu] at this
          have := congrArg List.length this
          simp at this
          exact absurd this hv'
      rw [hnone]
      simp only
      have hn := toNat_succ_of_lt hlt
      rw [ih (u := u ++ [b]) (by rw [hu]; simp) hv' (by simp at hk; omega) (p := ⟨p.ppos + 1, v ++ rest⟩) rfl (by simp only [hn]; simp at hle; omega)]
      congr 2
      simp only [BitVec.add_assoc]; congr 1
      apply BitVec.eq_of_toNat_eq; simp; omega

theorem treeWalk_inner {total : Count} {t u : CodeTree} {w : BitStr} (hu : t.sub w = some u) (hin : w = [] ∨ ∃ l r, u = .fork l r)
    (n : Nat) {rest : BitStr} {p : Payload} (hs : p.src = w ++ rest) (hle : w ≠ [] → p.ppos.toNat + w.length ≤ total.toNat) :
    treeWalk total t n p = treeWalk total u (n + w.length) ⟨p.ppos + BitVec.ofNat 64 w.length, rest⟩ := by
  induction w generalizing t n p with
  | nil =>
    rw [CodeTree.sub_nil] at hu; injection hu with hu
    subst hu
    obtain ⟨pp, ps⟩ := p
    simp at hs; subst hs
    simp
  | cons b w ih =>
    obtain ⟨l', r', rfl⟩ : ∃ l r, u = .fork l r := by rcases hin with h | h; cases h; exact h
    have hlt : p.ppos < total := by rw [BitVec.lt_def]; have := hle (by simp); simp at this; omega
    have hn := toNat_succ_of_lt hlt
    cases t with
    | leaf c => simp [CodeTree.sub] at hu
    | fork l r =>
      have hstep : ∀ x, CodeTree.sub x w = some (.fork l' r') → (if b then r else l) = x →
          treeWalk total (.fork l r) n p = treeWalk total x (n + 1) ⟨p.ppos + 1, w ++ rest⟩ := by
        intro x hx hb
        cases x with
        | leaf c => cases w <;> simp [CodeTree.sub] at hx
        | fork x1 x2 =>
          conv_lhs => unfold treeWalk
          rw [payloadBit_cons (show p.src = b :: (w ++ rest) from hs) hlt]
          cases b
          · simp at hb; subst hb
            rfl
          · simp at hb; subst hb
            rfl
      have hx : (if b then r else l).sub w = some (.fork l' r') := by
        simp only [CodeTree.sub] at hu
        cases b <;> simpa using hu
      rw [hstep _ hx rfl, ih hx (.inr ⟨l', r', rfl⟩) (n + 1) (p := ⟨p.ppos + 1, w ++ rest⟩) rfl (fun _ => by simp only [hn]; have := hle (by simp); simp at this; omega)]
      have e : p.ppos + 1 + BitVec.ofNat 64 w.length = p.ppos + BitVec.ofNat 64 (b :: w).length := by
        rw [BitVec.add_assoc]; congr 1
        apply BitVec.eq_of_toNat_eq; simp; omega
      simp only [e, List.length_cons]
      congr 1; omega

theorem treeWalk_error {total : Count} {u : CodeTree} {n : Nat} {p : Payload} {f : FaultKind} (h : payloadBit total p = .error f) : treeWalk total u n p = .raised f p := by
  cases u <;> unfold treeWalk <;> rw [h]

theorem matchBits_inner {s : State} (hc : Consistent s) {t u : CodeTree} (ht : TreeAt s t) {w : BitStr} (hu : t.sub w = some u) (hin : w = [] ∨ ∃ l r, u = .fork l r)
    {rest : BitStr} {p : Payload} (hs : p.src = w ++ rest) (hle : w ≠ [] → p.ppos.toNat + w.length ≤ s.total.toNat) {f : FaultKind}
    (hf : payloadBit s.total ⟨p.ppos + BitVec.ofNat 64 w.length, rest⟩ = .error f) :
    matchBits s.symidx (allSyms.map fun c => (c, codeOf s c)) s.total MAXLEN [] p = .raised f ⟨p.ppos + BitVec.ofNat 64 w.length, rest⟩ := by
  cases t with
  | leaf c =>
    have : w = [] := by
      cases w with
      | nil => rfl
      | cons b w => simp [CodeTree.sub] at hu
    subst this
    obtain ⟨pp, ps⟩ := p
    simp at hs hf
    subst hs
    simp only [List.length_nil]
    unfold matchBits
    rw [hf]; simp
  | fork l r => rw [matchBits_fork hc ht, treeWalk_inner hu hin 0 hs hle, treeWalk_error hf]

theorem add_ofNat_toNat {p : Count} {n : Nat} {tot : Count} (h : p.toNat + n ≤ tot.toNat) : (p + BitVec.ofNat 64 n).toNat = p.toNat + n := by
  have := tot.isLt
  simp; omega

theorem single_nomatch {s : State} (hc : Consistent s) {c : Sym} (ht : TreeAt s (.leaf c)) (v : BitStr) :
    matchCode s.symidx (true :: v) (allSyms.map fun c => (c, codeOf s c)) = none := by
  cases hx : matchCode s.symidx (true :: v) (allSyms.map fun c => (c, codeOf s c)) with
  | none => rfl
  | some d =>
    have := (matchCode_codes hc ht (true :: v) d).1 hx
    simp [CodeTree.codes] at this

theorem bound_loop {s : State} (hc : Consistent s) {c : Sym} (ht : TreeAt s (.leaf c)) (v : BitStr) (k : Nat) (u rest : BitStr) (p : Payload)
    (hs : p.src = v ++ rest) (hle : p.ppos.toNat + v.length ≤ s.total.toNat) (hk : v.length ≤ k)
    (hend : v.length = k ∨ p.ppos.toNat + v.length = s.total.toNat ∨ rest = []) :
    matchBits s.symidx (allSyms.map fun c => (c, codeOf s c)) s.total k (true :: u) p =
      .raised (if v.length = k ∨ p.ppos.toNat + v.length = s.total.toNat then .malformedHeader else .truncatedStream)
        ⟨p.ppos + BitVec.ofNat 64 v.length, rest⟩ := by
  induction v generalizing k u p with
  | nil =>
    obtain ⟨pp, ps⟩ := p
    simp only [List.nil_append] at hs
    subst hs
    simp only [List.length_nil, Nat.add_zero] at hend hle ⊢
    cases k with
    | zero => simp [matchBits]
    | succ k =>
      unfold matchBits
      by_cases h : pp.toNat = s.total.toNat
      · rw [payloadBit_exhausted (by rw [BitVec.le_def]; simp only; omega)]
        simp [h]
      · have hr : ps = [] := by
          rcases hend with h' | h' | h'
          · omega
          · exact absurd h' h
          · exact h'
        subst hr
        rw [payloadBit_nil rfl (by rw [BitVec.lt_def]; simp only; omega)]
        simp [h]
  | cons b v ih =>
    obtain ⟨k, rfl⟩ : ∃ k', k = k' + 1 := ⟨k - 1, by simp at hk; omega⟩
    have hlt : p.ppos < s.total := by rw [BitVec.lt_def]; simp at hle; omega
    have hn := toNat_succ_of_lt hlt
    unfold matchBits
    rw [payloadBit_cons (show p.src = b :: (v ++ rest) from hs) hlt]
    simp only [List.cons_append]
    rw [single_nomatch hc ht]
    simp only
    simp only [List.length_cons] at hle hk hend ⊢
    rw [ih k (u ++ [b]) ⟨p.ppos + 1, v ++ rest⟩ rfl (by simp only [hn]; omega) (by omega) (by
      rcases hend with h | h | h
      · left; omega
      · right; left; simp only [hn]; omega
      · exact .inr (.inr h))]
    have e : p.ppos + 1 + BitVec.ofNat 64 v.length = p.ppos + BitVec.ofNat 64 (v.length + 1) := by
      rw [BitVec.add_assoc]; congr 1
      apply BitVec.eq_of_toNat_eq; simp; omega
    simp only [e, hn]
    congr 1
    have : (v.length = k ∨ BitVec.toNat p.ppos + 1 + v.length = BitVec.toNat s.total) ↔ (v.length + 1 = k + 1 ∨ BitVec.toNat p.ppos + (v.length + 1) = BitVec.toNat s.total) := by omega
    simp only [this]

theorem conclude_decoded {s : State} (he : s.err = 0) (opc : Opc) {d : Decoded} (hd : ∀ f, d ≠ .stuck f) :
    ∃ u r, conclude opc (decoded s d) = .next u ∧ u.resps = s.resps ++ [r] ∧
     (match d with 
      | .symbol c m q => u = completed opc (s.withPayload q) (len := m) (sym := c) ∧ r = ⟨packR0 0 opc (BitVec.ofNat 8 m) c, 0, 0⟩
      | .raised k q => u = faulted k.code opc (s.withPayload q) ∧ r = faultResponse k.code opc
      | .stuck _ => False) := by
  cases d with
  | symbol c m q => exact ⟨_, _, rfl, rfl, rfl, rfl⟩
  | raised k q => refine ⟨_, _, decoded_raised he opc k q, faulted_resps .., rfl, rfl⟩
  | stuck f => exact absurd rfl (hd f)

theorem extract_low (e : BitVec 4) (o o' : Opc) (l : BitVec 8) (c : Sym) : (packR0 e o l c).extractLsb' 0 56 = (packR0 e o' l c).extractLsb' 0 56 := by
  unfold packR0
  apply BitVec.eq_of_getLsbD_eq
  intro i hi
  simp only [BitVec.getLsbD_extractLsb', BitVec.getLsbD_append, Nat.zero_add, hi, decide_true, Bool.true_and]
  by_cases h : i < 8
  · simp [h]
  · by_cases h2 : i - 8 < 8
    · simp [h, h2]
    · simp [h, h2, show i - 8 - 8 < 40 by omega]

theorem exec_legal {i : Instr} {s t : State} (h : exec i s = .next t) (hl : legalErr s.err = true) : legalErr t.err = true := by
  cases answers h with
  | cleared is => rfl
  | read is reg => exact hl
  | @unassigned r is reg =>
    by_cases he : s.err = 0
    · rw [illegalCommand_ok he]; rfl
    · rw [illegalCommand_refused he]; exact hl
  | refused is err => exact hl
  | forbidden is err phase => rfl
  | @done r u is err phase body =>
    simp [(bodyOf_quiet is (.inl ⟨_, body⟩)).err, hl]
  | @raised k u is err phase body =>
    rw [takeFault_eq ((bodyOf_quiet is (.inr ⟨_, body⟩)).err.trans err)]
    refine legalErr_code ?_
    rintro rfl
    have := bodyOf_raises body
    cases i <;> simp [raises] at this

theorem cmds_inv {s : State} (h : Inv s) (c : List CmdWord) : Inv (s.withCmds c) :=
  ⟨h.tables, h.code, fun he => (h.between he).congr rfl rfl rfl rfl rfl rfl rfl rfl rfl⟩

theorem consumed_le {s u : State} {w : BitStr} (h : Consumed s u w) (hle : s.ppos ≤ s.total) : u.ppos ≤ s.total := by
  rw [h.ppos]
  by_cases hw : w = []
  · subst hw; simpa using hle
  · have h1 := h.within hw
    have h2 := s.total.isLt
    rw [BitVec.le_def, BitVec.toNat_add, BitVec.toNat_ofNat]
    have : w.length % 2 ^ 64 = w.length := Nat.mod_eq_of_lt (by omega)
    rw [this, Nat.mod_eq_of_lt (by omega)]
    exact h1

theorem body_ppos {i : Instr} {s u : State} (hi : Dispatched i) (hne : ∀ c, i ≠ .enc c) (h : (bodyOf i s).In u)
    (hle : s.ppos ≤ s.total) : u.ppos ≤ u.total := by
  cases i with
  | clr => exact absurd rfl hi.1
  | rdr r => exact absurd rfl (hi.2 r)
  | ldf c n => rw [ldf_writes h]; exact hle
  | build => rw [build_writes h]; exact hle
  | getc c => rw [(getc_writes h).1]; exact hle
  | wrh => obtain ⟨b, g, -⟩ := wrh_writes h; rw [g]; exact by rw [BitVec.le_def]; simp
  | rdh =>
    obtain ⟨-, ⟨h1, h2⟩ | h2, -⟩ := rdh_writes h
    · rw [h1, h2]; exact hle
    · rw [h2]; exact by rw [BitVec.le_def]; simp
  | enc c => exact absurd rfl (hne c)
  | dec =>
    obtain ⟨g, w, hw⟩ := dec_writes h
    have : u.total = s.total := by rw [g]; rfl
    rw [this]; exact consumed_le hw hle
  | decm =>
    obtain ⟨g, -, w, hw⟩ := decm_writes h
    have : u.total = s.total := by rw [g]; rfl
    rw [this]; exact consumed_le hw hle

theorem body_streams {i : Instr} {s u : State} (hi : Dispatched i) (h : (bodyOf i s).In u) :
    (∃ v, s.src = v ++ u.src) ∧ ∃ w, u.sink = s.sink ++ w := by
  cases i with
  | clr => exact absurd rfl hi.1
  | rdr r => exact absurd rfl (hi.2 r)
  | ldf c n => rw [ldf_writes h]; exact ⟨⟨[], rfl⟩, [], by simp⟩
  | build => rw [build_writes h]; exact ⟨⟨[], rfl⟩, [], by simp⟩
  | getc c => rw [(getc_writes h).1]; exact ⟨⟨[], rfl⟩, [], by simp⟩
  | wrh => obtain ⟨b, g, -⟩ := wrh_writes h; rw [g]; exact ⟨⟨[], rfl⟩, b, rfl⟩
  | rdh =>
    obtain ⟨h1, -, g⟩ := rdh_writes h
    refine ⟨h1, [], ?_⟩
    rw [g]; simp
  | enc c => obtain ⟨w, g, -⟩ := enc_writes h; rw [g]; exact ⟨⟨[], rfl⟩, w, rfl⟩
  | dec =>
    obtain ⟨g, w, hw⟩ := dec_writes h
    refine ⟨⟨w, hw.src⟩, [], ?_⟩
    rw [g]; simp
  | decm =>
    obtain ⟨g, -, w, hw⟩ := decm_writes h
    refine ⟨⟨w, hw.src⟩, [], ?_⟩
    rw [g]; simp

theorem exec_streams {i : Instr} {s t : State} (h : exec i s = .next t) :
    (∃ v, s.src = v ++ t.src) ∧ ∃ w, t.sink = s.sink ++ w := by
  have nil : (∃ v, s.src = v ++ s.src) ∧ ∃ w, s.sink = s.sink ++ w := ⟨⟨[], rfl⟩, [], by simp⟩
  cases answers h with
  | cleared is => exact nil
  | read is reg => exact nil
  | unassigned is reg =>
    by_cases he : s.err = 0
    · rw [illegalCommand_ok he]; exact nil
    · rw [illegalCommand_refused he]; exact nil
  | refused is err => exact nil
  | forbidden is err phase => exact nil
  | @done r u is err phase body =>
    have hb : (bodyOf i s).In u := .inl ⟨_, body⟩
    have := body_streams is hb
    exact this
  | @raised k u is err phase body =>
    have hb : (bodyOf i s).In u := .inr ⟨_, body⟩
    rw [takeFault_eq ((bodyOf_quiet is hb).err.trans err)]
    have := body_streams is hb
    exact this

theorem exec_work {i : Instr} {s t : State} (hi : Dispatched i) (h : exec i s = .next t) :
    (t.sink = s.sink ∧ t.src = s.src) ∨ ∃ u, (bodyOf i s).In u ∧ t.sink = u.sink ∧ t.src = u.src ∧ ¬ PhaseForbids i s := by
  cases answers h with
  | cleared is => exact absurd is hi.1
  | read is reg => exact absurd is (hi.2 _)
  | unassigned is reg => exact absurd is (hi.2 _)
  | refused is err => exact .inl ⟨rfl, rfl⟩
  | forbidden is err phase => exact .inl ⟨rfl, rfl⟩
  | @done r u is err phase body => exact .inr ⟨u, .inl ⟨_, body⟩, rfl, rfl, phase⟩
  | @raised k u is err phase body =>
    have hb : (bodyOf i s).In u := .inr ⟨_, body⟩
    refine .inr ⟨u, hb, ?_, ?_, phase⟩ <;> rw [takeFault_eq ((bodyOf_quiet is hb).err.trans err)] <;> rfl

end Sys2Proof.Machine
end

