-- ==== Sys2Proof/Laws/Words.lean ====
section
/-! SUPPORT. Words against masks and matches (30_encoding.md R61 to R64), and what a decoded word says of
its command. -/

namespace Sys2Proof.Machine

theorem and_eq_iff (w m v : CmdWord) : w &&& m = v ↔ opcField w &&& opcField m = opcField v ∧
    rsvField w &&& rsvField m = rsvField v ∧ symField w &&& symField m = symField v ∧
    immField w &&& immField m = immField v := by
  have h1 : opcField (w &&& m) = opcField w &&& opcField m := by simp [opcField, BitVec.extractLsb'_and]
  have h2 : rsvField (w &&& m) = rsvField w &&& rsvField m := by simp [rsvField, BitVec.extractLsb'_and]
  have h3 : symField (w &&& m) = symField w &&& symField m := by simp [symField, BitVec.extractLsb'_and]
  have h4 : immField (w &&& m) = immField w &&& immField m := by simp [immField, BitVec.extractLsb'_and]
  rw [← h1, ← h2, ← h3, ← h4]
  constructor
  · rintro h; simp [h]
  · rintro ⟨a, b, c, d⟩; exact word_ext a b c d

theorem maskN {w : CmdWord} {v : CmdWord} (o : Opc) (h : v = assemble o 0 0 0) : w &&& 0xFFFFFFFFFFFFFFFF#64 = v ↔
    opcField w = o ∧ rsvField w = 0 ∧ symField w = 0 ∧ immField w = 0 := by
  rw [and_eq_iff, h]
  simp only [opcField_assemble, rsvField_assemble, symField_assemble, immField_assemble]
  have e1 : opcField 0xFFFFFFFFFFFFFFFF#64 = BitVec.allOnes 4 := by decide
  have e2 : rsvField 0xFFFFFFFFFFFFFFFF#64 = BitVec.allOnes 20 := by decide
  have e3 : symField 0xFFFFFFFFFFFFFFFF#64 = BitVec.allOnes 8 := by decide
  have e4 : immField 0xFFFFFFFFFFFFFFFF#64 = BitVec.allOnes 32 := by decide
  rw [e1, e2, e3, e4]; simp only [BitVec.and_allOnes]

theorem maskS {w : CmdWord} {v : CmdWord} (o : Opc) (h : v = assemble o 0 0 0) : w &&& 0xFFFFFF00FFFFFFFF#64 = v ↔
    opcField w = o ∧ rsvField w = 0 ∧ immField w = 0 := by
  rw [and_eq_iff, h]
  simp only [opcField_assemble, rsvField_assemble, symField_assemble, immField_assemble]
  have e1 : opcField 0xFFFFFF00FFFFFFFF#64 = BitVec.allOnes 4 := by decide
  have e2 : rsvField 0xFFFFFF00FFFFFFFF#64 = BitVec.allOnes 20 := by decide
  have e3 : symField 0xFFFFFF00FFFFFFFF#64 = 0 := by decide
  have e4 : immField 0xFFFFFF00FFFFFFFF#64 = BitVec.allOnes 32 := by decide
  rw [e1, e2, e3, e4]; simp only [BitVec.and_allOnes]; simp

theorem maskF {w : CmdWord} {v : CmdWord} (o : Opc) (h : v = assemble o 0 0 0) : w &&& 0xFFFFFF0000000000#64 = v ↔
    opcField w = o ∧ rsvField w = 0 := by
  rw [and_eq_iff, h]
  simp only [opcField_assemble, rsvField_assemble, symField_assemble, immField_assemble]
  have e1 : opcField 0xFFFFFF0000000000#64 = BitVec.allOnes 4 := by decide
  have e2 : rsvField 0xFFFFFF0000000000#64 = BitVec.allOnes 20 := by decide
  have e3 : symField 0xFFFFFF0000000000#64 = 0 := by decide
  have e4 : immField 0xFFFFFF0000000000#64 = 0 := by decide
  rw [e1, e2, e3, e4]; simp only [BitVec.and_allOnes]; simp

theorem legal_of_decode {w : CmdWord} {i : Instr} (h : decode w = .ok i) :
    i.wellFormed = true ∧ i.opcode = opcField w := by
  unfold decode at h
  split at h <;> rename_i ho <;>
    simp only [formatN, formatS, formatF, formatR, reduceCtorEq] at h <;>
    (repeat' split at h) <;> cases h <;> simp_all [Instr.opcode, Instr.wellFormed, BitVec.not_lt]

theorem opcode_of_decode {w : CmdWord} {i : Instr} (h : decode w = .ok i) : i.opcode = opcField w :=
  (legal_of_decode h).2

theorem wf_of_decode {w : CmdWord} {i : Instr} (h : decode w = .ok i) : i.wellFormed = true :=
  (legal_of_decode h).1

theorem not_unassigned {r : Sym} {s : State} (h : (Instr.rdr r).wellFormed = true) : hostRegister r s ≠ none := by
  simp only [Instr.wellFormed, decide_eq_true_eq, BitVec.le_def, maxReg] at h
  have h' : r.toNat ≤ 4 := h
  have : r.toNat = 0 ∨ r.toNat = 1 ∨ r.toNat = 2 ∨ r.toNat = 3 ∨ r.toNat = 4 := by omega
  unfold hostRegister
  rcases this with e | e | e | e | e <;> rw [e] <;> simp

theorem faulted_eq (k : FaultKind) (opc : Opc) (s : State) : faulted k.code opc s = answer (faultResponse k.code opc) (s.withErr k.code) := by
  rw [faultResponse_eq]; rfl

end Sys2Proof.Machine
end

