-- ==== Sys2Proof/Tests/Slice0.lean ====
section
/-! SUPPORT. The model's own tests, and for every statement with hypotheses a state and operands that meet
them. Expected values are those of 30_encoding.md and of the vectors of 95_test_vectors.md and
96_test_vectors_derived.md. -/

namespace Sys2Proof.Tests

set_option Elab.async false

open Sys2Proof Sys2Proof.Machine

/-! ### States the tests start from -/

/-- The state a step answers, if it answers one. -/
def reached : Host.Outcome State Fault Refusal → Option State
  | .next s => some s
  | .fault _ => none
  | .refused _ => none

/-- The last response in a state. -/
def lastResponse (s : State) : Option Response := s.resps.getLast?

/-- From reset, with FREQ loaded. -/
def loaded (f : Table Freq) : State := State.reset.withFreq f

/-- From reset, with bits on the source. -/
def fed (b : BitStr) : State := State.reset.withSrc b

/-- The frequencies of V1, "aaab". -/
def freqAB : Table Freq := [(0x61, 3), (0x62, 1)]

/-- The tree of V1. -/
def treeAB : CodeTree := .fork (.leaf 0x62) (.leaf 0x61)

/-- V1 after BUILD, as its tables show it. -/
def builtAB : State :=
  ((((loaded freqAB).withNode [⟨3, 0x61, NIL, NIL, 2⟩, ⟨1, 0x62, NIL, NIL, 2⟩, ⟨4, 0, 1, 0, NIL⟩]).withSymidx
    [(0x61, 0), (0x62, 1)]).withRoot 2).withPhase .built

/-- A single symbol, as in V6: frequency 3 of 'z'. -/
def builtZ : State :=
  ((((loaded [(0x7A, 3)]).withNode [⟨3, 0x7A, NIL, NIL, NIL⟩]).withSymidx [(0x7A, 0)]).withRoot 0).withPhase .built

/-- V2 after RDH, with `total` and the payload `b` still on the source. -/
def readAB (total : Count) (b : BitStr) : State :=
  (((((State.reset.withNode [⟨0, 0, 1, 2, NIL⟩, ⟨0, 0x62, NIL, NIL, 0⟩, ⟨0, 0x61, NIL, NIL, 0⟩]).withSymidx
    [(0x61, 2), (0x62, 1)]).withRoot 0).withPhase .read).withTotal total).withSrc b

/-- Three symbols read from a header: `<0>`, `<1,0>`, `<1,1>`. -/
def treeABC : CodeTree := .fork (.leaf 0x61) (.fork (.leaf 0x62) (.leaf 0x63))

def readABC (total : Count) (b : BitStr) : State :=
  (((((State.reset.withNode [⟨0, 0, 1, 2, NIL⟩, ⟨0, 0x61, NIL, NIL, 0⟩, ⟨0, 0, 3, 4, 0⟩, ⟨0, 0x62, NIL, NIL, 2⟩,
    ⟨0, 0x63, NIL, NIL, 2⟩]).withSymidx [(0x61, 1), (0x62, 3), (0x63, 4)]).withRoot 0).withPhase .read).withTotal
    total).withSrc b

/-- A single leaf read from a header. -/
def readZ (total : Count) (b : BitStr) : State :=
  (((((State.reset.withNode [⟨0, 0x7A, NIL, NIL, NIL⟩]).withSymidx [(0x7A, 0)]).withRoot 0).withPhase
    .read).withTotal total).withSrc b

/-- Reset, with ERR holding a code. -/
def failed (e : BitVec 4) : State := State.reset.withErr e

/-! ### Well-formedness -/

theorem test_wellFormed_rdr : (Instr.rdr 4).wellFormed = true ∧ (Instr.rdr 5).wellFormed = false ∧
    (Instr.rdr 255).wellFormed = false := by decide

theorem test_wellFormed_others : (Instr.ldf 255 0xFFFFFFFF).wellFormed = true ∧
    (Instr.getc 255).wellFormed = true ∧ (Instr.enc 0).wellFormed = true ∧ Instr.clr.wellFormed = true := by decide

/-! ### Words of 30_encoding.md R62 and R68 -/

theorem test_decode_clr : decode 0x1000000000000000 = .ok .clr := by decide
theorem test_decode_ldf : decode 0x2000006100000003 = .ok (.ldf 0x61 3) := by decide
theorem test_decode_ldf_max : decode 0x200000FFFFFFFFFF = .ok (.ldf 255 4294967295) := by decide
theorem test_decode_build : decode 0x3000000000000000 = .ok .build := by decide
theorem test_decode_getc : decode 0x4000006200000000 = .ok (.getc 0x62) := by decide
theorem test_decode_wrh : decode 0x5000000000000000 = .ok .wrh := by decide
theorem test_decode_rdh : decode 0x6000000000000000 = .ok .rdh := by decide
theorem test_decode_enc : decode 0x7000007200000000 = .ok (.enc 0x72) := by decide
theorem test_decode_dec : decode 0x8000000000000000 = .ok .dec := by decide
theorem test_decode_decm : decode 0x9000000000000000 = .ok .decm := by decide
theorem test_decode_rdr : decode 0xA000000400000000 = .ok (.rdr 4) := by decide

/-- One word of each row of R64 (V7). -/
theorem test_illegal_words : decode 0x0000000000000000 = .error .unusedOpcode ∧
    decode 0xB000000000000000 = .error .unusedOpcode ∧ decode 0xF000000000000000 = .error .unusedOpcode ∧
    decode 0x1000010000000000 = .error .reservedBits ∧ decode 0x2800006100000003 = .error .reservedBits ∧
    decode 0x3000000100000000 = .error .symNotZero ∧ decode 0x8000000000000001 = .error .immNotZero ∧
    decode 0x4000006180000000 = .error .immNotZero ∧ decode 0xA000000500000000 = .error .registerNumber ∧
    decode 0xA000000000000001 = .error .immNotZero := by decide

/-! ### One step of each command -/

/-- R81: reset values, out of the fault state too. -/
theorem test_clr : reached (exec .clr ((builtAB.withErr 3).withPpos 9)) = some (completed 0x1 State.reset) := by
  decide +kernel

/-- V1 commands 2 and 3. -/
theorem test_ldf : (reached (exec (.ldf 0x61 3) (loaded [(0x61, 7), (0x62, 1)]))).map State.freq = some freqAB := by
  decide +kernel

/-- R82: a zero count takes the symbol out again. -/
theorem test_ldf_zero : (reached (exec (.ldf 0x62 0) (loaded freqAB))).map State.freq = some [(0x61, 3)] := by
  decide +kernel

/-- V1 command 4, with the tables at its end. -/
theorem test_build : buildTree (loaded freqAB) = .done {} builtAB := by decide +kernel

/-- V9d: equal weights are taken in index order. -/
theorem test_build_ties : (reached (exec .build (loaded [(0x61, 1), (0x62, 1), (0x63, 1)]))).map State.node =
    some [⟨1, 0x61, NIL, NIL, 3⟩, ⟨1, 0x62, NIL, NIL, 3⟩, ⟨1, 0x63, NIL, NIL, 4⟩, ⟨2, 0, 0, 1, 4⟩,
      ⟨3, 0, 2, 3, NIL⟩] := by decide +kernel

/-- V1 command 5: the code "1", cached. -/
theorem test_getc : (reached (exec (.getc 0x61) builtAB)).map (fun t => (t.code, lastResponse t)) =
    some ([(0x61, [true])], some ⟨0x0400000000000100, 0, 0x8#4 ++ 0#252⟩) := by decide +kernel

/-- V1 command 7: an absent symbol. -/
theorem test_getc_absent : (reached (exec (.getc 0x63) builtAB)).map (fun t => (t.code, lastResponse t)) =
    some ([], some ⟨0x0400000000000000, 0, 0⟩) := by decide +kernel

/-- V1 command 9: 83 bits, TOTAL = 4. -/
theorem test_wrh : (reached (exec .wrh builtAB)).map (fun t => (t.sink, t.total, t.frozen)) =
    some (msb 4#64 ++ (false :: (true :: msb 0x62#8)) ++ (true :: msb 0x61#8), 4, true) := by decide +kernel

/-- V8: WRH without a root. -/
theorem test_wrh_no_root : (reached (exec .wrh (State.reset.withPhase .built))).map (fun t => (t.err, t.sink)) =
    some (6, []) := by decide +kernel

/-- V2 command 2. -/
theorem test_rdh : rdhBody (fed (msb 4#64 ++ treeAB.header ++ [true, true, true, false])) =
    .done { r1 := 4 } (readAB 4 [true, true, true, false]) := by decide +kernel

/-- R121: a source of 63 bits ends inside the count. -/
theorem test_rdh_short : (reached (exec .rdh (fed (List.replicate 63 true)))).map
    (fun t => (t.err, t.total, t.src)) = some (2, 0, []) := by decide +kernel

/-- V1 command 11. -/
theorem test_enc : (reached (exec (.enc 0x61) builtAB)).map (fun t => (t.sink, t.ppos, lastResponse t)) =
    some ([true], 1, some ⟨0x0700000000000100, 0, 0⟩) := by decide +kernel

/-- R133: an absent symbol. -/
theorem test_enc_unknown : (reached (exec (.enc 0x63) builtAB)).map (fun t => (t.err, lastResponse t)) =
    some (3, some ⟨0x3700000000000000, 0, 0⟩) := by decide +kernel

/-- V2 command 4. -/
theorem test_dec : (reached (exec .dec (readAB 4 [true, true, true, false]))).map
    (fun t => (t.src, t.ppos, lastResponse t)) =
    some ([true, true, false], 1, some ⟨0x0800000000000161, 0, 0⟩) := by decide +kernel

/-- R144: a single leaf takes one bit of either value. -/
theorem test_dec_single : (reached (exec .dec (readZ 2 [true, false]))).map
    (fun t => (t.src, lastResponse t)) = some ([false], some ⟨0x080000000000017A, 0, 0⟩) := by decide +kernel

/-- V2m command 2. -/
theorem test_decm : (reached (exec .decm (readAB 4 [true, true, true, false]))).map
    (fun t => (t.src, t.ppos, lastResponse t)) =
    some ([true, true, false], 1, some ⟨0x0900000000000161, 0, 0⟩) := by decide +kernel

/-- R146: a 1 where a single leaf's symbol should start. -/
theorem test_decm_single : (reached (exec .decm (readZ 2 [true, false]))).map
    (fun t => (t.err, t.ppos, t.src)) = some (1, 2, []) := by decide +kernel

/-- V1 command 8 and the reset value of R24. -/
theorem test_rdr_status : (reached (exec (.rdr 0) builtAB)).bind lastResponse =
    some ⟨0x0A00000000000000, 0x190, 0⟩ ∧ (reached (exec (.rdr 0) State.reset)).bind lastResponse =
    some ⟨0x0A00000000000000, 0x080, 0⟩ := by decide +kernel

/-- V1 commands 18 and 19, read in the fault state. -/
theorem test_rdr_root_nalloc : (reached (exec (.rdr 3) (builtAB.withErr 6))).bind lastResponse =
    some ⟨0x0A00000000000000, 2, 0⟩ ∧ (reached (exec (.rdr 4) (builtAB.withErr 6))).bind lastResponse =
    some ⟨0x0A00000000000000, 3, 0⟩ := by decide +kernel

/-- The word placed for the next step is the one that runs. -/
theorem test_step_ldf : (reached (step (State.reset.withFetchWord 64 0x2000006100000003))).map State.freq =
    some [(0x61, 3)] := by decide +kernel

theorem test_decodeTableWord : decodeTableWord 64 0xA000000400000000 = some (.rdr 4) ∧
    decodeTableWord 64 0xA000000500000000 = none := by decide

/-! ### The invariants of those states, and the trees they hold -/

theorem loaded_consistent (f : Table Freq) : Consistent (loaded f) := empty_consistent rfl rfl rfl rfl rfl rfl rfl rfl

theorem fed_consistent (b : BitStr) : Consistent (fed b) := empty_consistent rfl rfl rfl rfl rfl rfl rfl rfl

theorem built_consistent {f : Table Freq} {t : State} (h : buildTree (loaded f) = .done {} t) : Consistent t := by
  obtain ⟨u, h', hb⟩ := buildTree_spec (loaded_consistent f) rfl
  rw [h] at h'
  injection h' with _ h'
  rw [h']; exact hb.consistent

theorem read_consistent {b : BitStr} {r : Reply} {t : State} (h : rdhBody (fed b) = .done r t) : Consistent t := by
  obtain ⟨total, u, q, -, hm, -, rfl⟩ := rdhBody_made (fed_consistent b) rfl h
  exact (consistent_afterRdh (fed_consistent b) rfl hm).1

theorem builtAB_consistent : Consistent builtAB := built_consistent test_build

theorem builtZ_consistent : Consistent builtZ :=
  built_consistent (f := [(0x7A, 3)]) (by decide +kernel)

theorem readAB_consistent (total : Count) (b : BitStr) : Consistent (readAB total b) :=
  (read_consistent test_rdh).counters (by decide) rfl rfl rfl rfl rfl rfl rfl

theorem readABC_consistent (total : Count) (b : BitStr) : Consistent (readABC total b) :=
  (read_consistent (b := msb 0#64 ++ treeABC.header) (r := {}) (t := readABC 0 [])
    (by decide +kernel)).counters (by decide) rfl rfl rfl rfl rfl rfl rfl

theorem readZ_consistent (total : Count) (b : BitStr) : Consistent (readZ total b) :=
  (read_consistent (b := msb 0#64 ++ (CodeTree.leaf 0x7A).header) (r := {}) (t := readZ 0 [])
    (by decide +kernel)).counters (by decide) rfl rfl rfl rfl rfl rfl rfl

theorem builtAB_tree : TreeAt builtAB treeAB :=
  ⟨[2, 1, 0], .fork (n := ⟨4, 0, 1, 0, NIL⟩) rfl rfl (.leaf (n := ⟨1, 0x62, NIL, NIL, 2⟩) rfl rfl rfl rfl)
    (.leaf (n := ⟨3, 0x61, NIL, NIL, 2⟩) rfl rfl rfl rfl), by decide, rfl⟩

theorem readAB_tree (total : Count) (b : BitStr) : TreeAt (readAB total b) treeAB :=
  ⟨[0, 1, 2], .fork (n := ⟨0, 0, 1, 2, NIL⟩) rfl rfl (.leaf (n := ⟨0, 0x62, NIL, NIL, 0⟩) rfl rfl rfl rfl)
    (.leaf (n := ⟨0, 0x61, NIL, NIL, 0⟩) rfl rfl rfl rfl), by decide, rfl⟩

theorem readABC_tree (total : Count) (b : BitStr) : TreeAt (readABC total b) treeABC :=
  ⟨[0, 1, 2, 3, 4], .fork (n := ⟨0, 0, 1, 2, NIL⟩) rfl rfl (.leaf (n := ⟨0, 0x61, NIL, NIL, 0⟩) rfl rfl rfl rfl)
    (.fork (n := ⟨0, 0, 3, 4, 0⟩) rfl rfl (.leaf (n := ⟨0, 0x62, NIL, NIL, 2⟩) rfl rfl rfl rfl)
      (.leaf (n := ⟨0, 0x63, NIL, NIL, 2⟩) rfl rfl rfl rfl)), by decide, rfl⟩

theorem builtZ_tree : TreeAt builtZ (.leaf 0x7A) :=
  ⟨[0], .leaf (n := ⟨3, 0x7A, NIL, NIL, NIL⟩) rfl rfl rfl rfl, by decide, rfl⟩

theorem readZ_tree (total : Count) (b : BitStr) : TreeAt (readZ total b) (.leaf 0x7A) :=
  ⟨[0], .leaf (n := ⟨0, 0x7A, NIL, NIL, NIL⟩) rfl rfl rfl rfl, by decide, rfl⟩

/-- What `reached` finds is what the step answers. -/
theorem next_of_reached {o : Host.Outcome State Fault Refusal} {t : State} (h : reached o = some t) : o = .next t := by
  cases o with
  | next s => simpa [reached] using h
  | fault f => simp [reached] at h
  | refused r => simp [reached] at h

theorem next_of_isSome {o : Host.Outcome State Fault Refusal} (h : (reached o).isSome = true) :
    ∃ t, o = .next t := by
  obtain ⟨t, h⟩ := Option.isSome_iff_exists.1 h
  exact ⟨t, next_of_reached h⟩

/-! ### Witnesses: each statement's hypotheses, met together -/

/-! Words. -/

theorem witness_DecodeInvertsEncode : (Instr.rdr 4).wellFormed = true ∧ (Instr.ldf 255 0xFFFFFFFF).wellFormed = true := by
  decide

theorem witness_EncodeInvertsDecode : decode 0xA000000400000000 = .ok (.rdr 4) := by decide

/-- A word for each disjunct of R64, pending in a state without a fault. -/
theorem witness_IllegalWordsRaise :
    ([0x0, 0xB000000000000000, 0x1000010000000000, 0x3000000100000000, 0x4000006100000001,
      0xA000000500000000] : List CmdWord).map (fun w => (decode w).toOption) = [none, none, none, none, none, none] ∧
    ∀ w, (State.reset.withCmds [w]).err = 0 ∧ (State.reset.withCmds [w]).cmds = [w] :=
  ⟨by decide, fun _ => ⟨rfl, rfl⟩⟩

theorem witness_StepRunsDecodedCommand :
    (State.reset.withCmds [0x8000000000000000]).cmds = [0x8000000000000000] ∧
    decode 0x8000000000000000 = .ok .dec ∧ (Instr.rdr 4).wellFormed = true := by decide

theorem witness_IdleStepKeepsState : State.reset.cmds = [] := rfl

/-! Steps, faults, phases. -/

/-- No fault; a fault with RDR; a fault with another word; a nonzero `R0.ERR`. -/
theorem witness_OneResponsePerWord :
    (∃ t, step (State.reset.withCmds [0x3000000000000000]) = .next t) ∧
    (∃ t, step ((failed 3).withCmds [0xA000000000000000]) = .next t ∧ (failed 3).err ≠ 0 ∧
      ∃ n, decode 0xA000000000000000 = .ok (.rdr n)) ∧
    (∃ t, step ((failed 3).withCmds [0x3000000000000000]) = .next t ∧ (failed 3).err ≠ 0 ∧
      ¬ (decode 0x3000000000000000 = .ok .clr ∨ ∃ n, decode 0x3000000000000000 = .ok (.rdr n))) := by
  refine ⟨next_of_isSome (by decide +kernel), ?_, ?_⟩
  · obtain ⟨t, h⟩ := next_of_isSome (o := step ((failed 3).withCmds [0xA000000000000000])) (by decide +kernel)
    exact ⟨t, h, by decide, 0, by decide⟩
  · obtain ⟨t, h⟩ := next_of_isSome (o := step ((failed 3).withCmds [0x3000000000000000])) (by decide +kernel)
    refine ⟨t, h, by decide, ?_⟩
    rw [test_decode_build]
    simp

/-- A legal and an illegal word in the fault state. -/
theorem witness_RefusedInFaultState : (failed 6).err ≠ 0 ∧
    ∀ w ∈ ([0x3000000000000000, 0x0] : List CmdWord), ((failed 6).withCmds [w]).cmds = [w] ∧
      decode w ≠ .ok .clr ∧ ∀ n, decode w ≠ .ok (.rdr n) := by
  refine ⟨by decide, fun w hw => ?_⟩
  simp only [List.mem_cons, List.not_mem_nil, or_false] at hw
  rcases hw with rfl | rfl
  · rw [test_decode_build]; simp
  · rw [test_illegal_words.1]; simp

theorem witness_FaultEntryWritesErrAndResponse :
    ∃ t, (Instr.enc 0x63).wellFormed = true ∧ State.reset.err = 0 ∧ exec (.enc 0x63) State.reset = .next t ∧
      t.err ≠ 0 :=
  ⟨(faulted 3 0x7 State.reset), rfl, rfl, next_of_reached (by decide +kernel), by decide⟩

/-- Every command answers from reset, and a word without a command too. -/
theorem witness_FaultCodesByCommand : State.reset.err = 0 ∧
    (∀ i ∈ [Instr.clr, .ldf 0 0, .build, .getc 0, .wrh, .rdh, .enc 0, .dec, .decm, .rdr 0],
      i.wellFormed = true ∧ ∃ t, exec i State.reset = .next t) ∧
    ∃ t, step (State.reset.withCmds [0x0]) = .next t := by
  refine ⟨rfl, fun i hi => ?_, next_of_isSome (by decide +kernel)⟩
  simp only [List.mem_cons, List.not_mem_nil, or_false] at hi
  rcases hi with rfl | rfl | rfl | rfl | rfl | rfl | rfl | rfl | rfl | rfl <;>
    exact ⟨by decide, next_of_isSome (by decide +kernel)⟩

theorem witness_ErrKeepsFirstCode : (failed 3).err ≠ 0 ∧
    (∃ t, step ((failed 3).withCmds [0x8000000000000000]) = .next t) ∧
    ∃ t, step ((failed 3).withCmds [0x1000000000000000]) = .next t :=
  ⟨by decide, next_of_isSome (by decide +kernel), next_of_isSome (by decide +kernel)⟩

/-- For each restricted command a state that forbids it and one that does not. -/
theorem witness_PhaseTableDecidesIllegalSequence : builtAB.err = 0 ∧ State.reset.err = 0 ∧
    (PhaseForbids (.ldf 0 0) builtAB ∧ PhaseForbids .build builtAB ∧ PhaseForbids .rdh builtAB ∧
      PhaseForbids .wrh State.reset ∧ PhaseForbids .wrh (State.reset.withPhase .built) ∧
      PhaseForbids .dec State.reset ∧ PhaseForbids .decm (State.reset.withPhase .built)) ∧
    (¬ PhaseForbids (.ldf 0 0) State.reset ∧ ¬ PhaseForbids .build State.reset ∧ ¬ PhaseForbids .rdh State.reset ∧
      ¬ PhaseForbids .wrh builtAB ∧ ¬ PhaseForbids .dec builtAB ∧ ¬ PhaseForbids .decm (readAB 4 []) ∧
      ¬ PhaseForbids (.getc 0) State.reset ∧ ¬ PhaseForbids (.enc 0) State.reset) ∧
    (State.reset.withCmds [0x0]).cmds = [0x0] ∧ decode 0x0 = .error .unusedOpcode := by
  simp only [PhaseForbids]
  decide

/-- Both clauses. -/
theorem witness_LoadFrequencyReplacesOneEntry : (loaded freqAB).err = 0 ∧ (loaded freqAB).phase = .empty ∧
    builtAB.err = 0 ∧ builtAB.phase ≠ .empty := by decide

/-- Reset itself, and a CLR. -/
theorem witness_ResetValuesOfEveryRegister : (State.reset = State.reset ∨ ∃ s, exec .clr s = .next State.reset) ∧
    ∃ u, exec .clr builtAB = .next u := ⟨.inl rfl, _, rfl⟩

/-- An empty arena and a full one; the last register number and the first illegal one. -/
theorem witness_ReadRegisterReturnsState : State.reset.node.length ≤ 511 ∧
    (State.reset.withNode (List.replicate 511 ⟨0, 0, NIL, NIL, NIL⟩)).node.length = 511 ∧
    (4#8).toNat ≤ 4 ∧ 4 < (5#8).toNat := by
  refine ⟨by decide, ?_, by decide, by decide⟩
  rw [withNode_node, List.length_replicate]

/-! BUILD: no symbol, one, two. -/

theorem witness_BuildCompletes : (loaded []).err = 0 ∧ (loaded []).phase = .empty ∧ Consistent (loaded []) :=
  ⟨rfl, rfl, loaded_consistent _⟩

theorem witness_BuildLeafOrder : (loaded freqAB).err = 0 ∧ (loaded freqAB).phase = .empty ∧
    Consistent (loaded freqAB) ∧ (presentSyms (loaded freqAB).freq)[0]? = some 0x61 ∧
    (presentSyms (loaded freqAB).freq)[1]? = some 0x62 :=
  ⟨rfl, rfl, loaded_consistent _, by decide +kernel, by decide +kernel⟩

theorem witness_BuildCounts : (∀ f, (loaded f).err = 0 ∧ (loaded f).phase = .empty ∧ Consistent (loaded f)) ∧
    (presentSyms (loaded []).freq).length = 0 ∧
    ((presentSyms (loaded [(0x7A, 3)]).freq).length = 1 ∧ freqAt (loaded [(0x7A, 3)]).freq 0x7A ≠ 0) ∧
    (presentSyms (loaded freqAB).freq).length = 2 :=
  ⟨fun f => ⟨rfl, rfl, loaded_consistent f⟩, by decide +kernel, by decide +kernel, by decide +kernel⟩

/-- `NODE[2]` of V1 is a merge. -/
theorem witness_BuildMergesLeastTwo : (loaded freqAB).err = 0 ∧ (loaded freqAB).phase = .empty ∧
    Consistent (loaded freqAB) ∧ exec .build (loaded freqAB) = .next (completed 0x3 builtAB) ∧
    (presentSyms (loaded freqAB).freq).length ≤ (2#9).toNat ∧
    nodeAt (completed 0x3 builtAB).node 2 = some ⟨4, 0, 1, 0, NIL⟩ :=
  ⟨rfl, rfl, loaded_consistent _, next_of_reached (by decide +kernel), by decide +kernel, by decide +kernel⟩

theorem witness_BuildWeightsAreSums : (loaded freqAB).err = 0 ∧ (loaded freqAB).phase = .empty ∧
    Consistent (loaded freqAB) ∧ exec .build (loaded freqAB) = .next (completed 0x3 builtAB) ∧
    (completed 0x3 builtAB).root ≠ NIL ∧ nodeAt (completed 0x3 builtAB).node 0 = some ⟨3, 0x61, NIL, NIL, 2⟩ :=
  ⟨rfl, rfl, loaded_consistent _, next_of_reached (by decide +kernel), by decide, by decide⟩

/-- Equal weights: the lesser index goes first (V9a). -/
theorem witness_ExtractMinTakesLeast : extractMin [⟨1, 1⟩, ⟨2, 0⟩, ⟨1, 0⟩] = some (⟨1, 0⟩, [⟨1, 1⟩, ⟨2, 0⟩]) := by
  decide

theorem witness_BuildIsFunctionOfFreq : (loaded freqAB).err = 0 ∧ (loaded freqAB).phase = .empty ∧
    Consistent (loaded freqAB) ∧ ((loaded freqAB).withSink [true]).err = 0 ∧
    ((loaded freqAB).withSink [true]).phase = .empty ∧ Consistent ((loaded freqAB).withSink [true]) ∧
    ∀ c, freqAt (loaded freqAB).freq c = freqAt ((loaded freqAB).withSink [true]).freq c :=
  ⟨rfl, rfl, loaded_consistent _, rfl, rfl, empty_consistent rfl rfl rfl rfl rfl rfl rfl rfl, fun _ => rfl⟩

/-! GETC and the codes. -/

theorem witness_GetcReturnsDerivedCode : builtAB.err = 0 ∧ Consistent builtAB ∧
    symidxAt builtAB.symidx 0x61 ≠ NIL ∧ symidxAt builtAB.symidx 0x63 = NIL :=
  ⟨rfl, builtAB_consistent, by decide, by decide⟩

/-- A hit, and a miss of a present and of an absent symbol. -/
theorem witness_LookupInsertsUnlessFrozen : (builtAB.withCode [(0x61, [true])]).err = 0 ∧
    codeAt (builtAB.withCode [(0x61, [true])]).code 0x61 = some [true] ∧ builtAB.err = 0 ∧
    codeAt builtAB.code 0x61 = none ∧ derive builtAB.node builtAB.symidx builtAB.root 0x61 = .ok [true] ∧
    derive builtAB.node builtAB.symidx builtAB.root 0x63 = .ok [] :=
  ⟨rfl, by decide, rfl, by decide, by decide +kernel, by decide +kernel⟩

theorem witness_DeriveReturnsPath : Consistent builtAB ∧ TreeAt builtAB treeAB ∧ (0x61, [true]) ∈ treeAB.codes ∧
    symidxAt builtAB.symidx 0x63 = NIL ∧ Consistent builtZ ∧ TreeAt builtZ (.leaf 0x7A) ∧
    (0x7A, [false]) ∈ (CodeTree.leaf 0x7A).codes :=
  ⟨builtAB_consistent, builtAB_tree, by decide, by decide, builtZ_consistent, builtZ_tree, by decide⟩

/-- Two symbols with their codes and a 255-bit string; one symbol. -/
theorem witness_CodesArePrefixFreeAndComplete : Consistent builtAB ∧ symidxAt builtAB.symidx 0x61 ≠ NIL ∧
    symidxAt builtAB.symidx 0x62 ≠ NIL ∧ derive builtAB.node builtAB.symidx builtAB.root 0x61 = .ok [true] ∧
    derive builtAB.node builtAB.symidx builtAB.root 0x62 = .ok [false] ∧ 2 ≤ leafCount builtAB ∧
    (List.replicate 255 true).length = 255 ∧
    Consistent builtZ ∧ leafCount builtZ = 1 ∧ symidxAt builtZ.symidx 0x7A ≠ NIL :=
  ⟨builtAB_consistent, by decide, by decide, by decide +kernel, by decide +kernel, by decide +kernel,
    List.length_replicate, builtZ_consistent, by decide +kernel, by decide⟩

/-- A code of the greatest length, its last bit, and the first position past a short code. -/
theorem witness_PackedImageLayout : (List.replicate 255 true).length ≤ 255 ∧
    (List.replicate 255 true)[254]? = some true ∧ 0 < 256 - (List.replicate 255 true).length := by
  rw [List.length_replicate, List.getElem?_replicate]
  exact ⟨Nat.le_refl _, rfl, by omega⟩

/-! WRH. -/

theorem witness_WriteHeaderEmitsCountAndTree : builtAB.err = 0 ∧ builtAB.phase = .built ∧ Consistent builtAB ∧
    TreeAt builtAB treeAB := ⟨rfl, rfl, builtAB_consistent, builtAB_tree⟩

theorem witness_WriteHeaderCountIsExact : builtZ.err = 0 ∧ builtZ.phase = .built ∧ Consistent builtZ ∧
    TreeAt builtZ (.leaf 0x7A) := ⟨rfl, rfl, builtZ_consistent, builtZ_tree⟩

theorem witness_WriteHeaderFreezesCache : builtAB.err = 0 ∧ builtAB.phase = .built ∧ builtAB.root ≠ NIL ∧
    Consistent builtAB ∧ symidxAt builtAB.symidx 0x61 ≠ NIL ∧ symidxAt builtAB.symidx 0x63 = NIL :=
  ⟨rfl, rfl, by decide, builtAB_consistent, by decide, by decide⟩

theorem witness_WriteHeaderTwice : builtZ.err = 0 ∧ builtZ.phase = .built ∧ builtZ.root ≠ NIL ∧
    Consistent builtZ := ⟨rfl, rfl, by decide, builtZ_consistent⟩

/-! RDH. -/

theorem witness_ReadHeaderBuildsTree : (fed (msb 4#64 ++ treeAB.header ++ [true])).err = 0 ∧
    (fed (msb 4#64 ++ treeAB.header ++ [true])).phase = .empty ∧
    Consistent (fed (msb 4#64 ++ treeAB.header ++ [true])) ∧
    (fed (msb 4#64 ++ treeAB.header ++ [true])).src = msb 4#64 ++ treeAB.header ++ [true] ∧ treeAB.leaves.Nodup :=
  ⟨rfl, rfl, fed_consistent _, rfl, by decide⟩

theorem witness_ReadHeaderCompletesIffWellFormed : (fed []).err = 0 ∧ (fed []).phase = .empty ∧
    Consistent (fed []) := ⟨rfl, rfl, fed_consistent _⟩

/-- 63 bits and 64. -/
theorem witness_ReadHeaderCount : (∀ b, (fed b).err = 0 ∧ (fed b).phase = .empty) ∧
    (fed (List.replicate 63 true)).src.length < 64 ∧ 64 ≤ (fed (List.replicate 64 true)).src.length :=
  ⟨fun _ => ⟨rfl, rfl⟩, by decide, by decide⟩

/-- A header cut before its last bit, and one cut before its first. -/
theorem witness_ReadHeaderTruncated : (∀ b, (fed b).err = 0 ∧ (fed b).phase = .empty ∧ Consistent (fed b)) ∧
    treeAB.leaves.Nodup ∧ treeAB.header = treeAB.header.dropLast ++ [true] ∧ [true] ≠ ([] : BitStr) ∧
    treeAB.header = [] ++ treeAB.header ∧ treeAB.header ≠ [] ∧
    (fed (msb 4#64 ++ treeAB.header.dropLast)).src = msb 4#64 ++ treeAB.header.dropLast ∧
    (fed (msb 4#64 ++ [])).src = msb 4#64 ++ [] :=
  ⟨fun _ => ⟨rfl, rfl, fed_consistent _⟩, by decide, by decide, by decide, rfl, by decide, rfl, rfl⟩

theorem witness_ReadHeaderDuplicateSymbol : ∃ t : CodeTree, ¬ t.leaves.Nodup ∧
    (fed (msb 4#64 ++ t.header ++ [])).err = 0 ∧ (fed (msb 4#64 ++ t.header ++ [])).phase = .empty ∧
    Consistent (fed (msb 4#64 ++ t.header ++ [])) ∧
    (fed (msb 4#64 ++ t.header ++ [])).src = msb 4#64 ++ t.header ++ [] :=
  ⟨.fork (.leaf 0x61) (.leaf 0x61), by decide, rfl, rfl, fed_consistent _, rfl⟩

/-- 511 nodes, two of them leaves, that leave their tree unfinished. -/
def tags511 : List (Option Sym) := [none, none, some 0x61, none, some 0x62] ++ List.replicate 506 none

theorem tags511_unfinished : Unfinished tags511 ∧ tags511.length = 511 :=
  ⟨⟨by decide +kernel, by decide +kernel, by decide +kernel⟩, by decide +kernel⟩

/-- With no bit after 511 nodes, and with one. -/
theorem witness_ReadHeaderArenaExhausted : Unfinished tags511 ∧ tags511.length = 511 ∧
    ∀ rest ∈ ([[], [true]] : List BitStr), (fed (msb 0#64 ++ tagBits tags511 ++ rest)).err = 0 ∧
      (fed (msb 0#64 ++ tagBits tags511 ++ rest)).phase = .empty ∧
      Consistent (fed (msb 0#64 ++ tagBits tags511 ++ rest)) ∧
      (fed (msb 0#64 ++ tagBits tags511 ++ rest)).src = msb 0#64 ++ tagBits tags511 ++ rest :=
  ⟨tags511_unfinished.1, tags511_unfinished.2, fun _ _ => ⟨rfl, rfl, fed_consistent _, rfl⟩⟩

/-- A source for each clause: the 512th tag and a repeated symbol; the end at the first tag, and within the
symbol of a leaf in the last free entry. -/
theorem witness_ReadHeaderFaultPoints : (∀ b, (fed b).err = 0 ∧ (fed b).phase = .empty ∧ Consistent (fed b)) ∧
    Unfinished tags511 ∧ tags511.length = 511 ∧
    Unfinished [none, some 0x61] ∧ some 0x61 ∈ ([none, some 0x61] : List (Option Sym)) ∧
    Unfinished [] ∧ Unfinished (List.replicate 510 none) ∧
    (List.replicate 510 (none : Option Sym)).length < 511 ∧ (List.replicate 7 true).length < 8 :=
  ⟨fun _ => ⟨rfl, rfl, fed_consistent _⟩, tags511_unfinished.1, tags511_unfinished.2,
    ⟨by decide, by decide, by decide⟩, by decide, ⟨by decide, by decide, by decide⟩,
    ⟨by decide +kernel, by decide +kernel, by decide +kernel⟩, lt_of_eq_of_lt List.length_replicate (by omega), by decide⟩

/-- V1 as the writer; a reader fed with the bits V1's WRH wrote. -/
theorem witness_ReadHeaderInvertsWriteHeader : builtAB.err = 0 ∧ builtAB.phase = .built ∧ builtAB.root ≠ NIL ∧
    Consistent builtAB ∧ (fed (msb 4#64 ++ treeAB.header ++ [true])).err = 0 ∧
    (fed (msb 4#64 ++ treeAB.header ++ [true])).phase = .empty ∧
    Consistent (fed (msb 4#64 ++ treeAB.header ++ [true])) ∧
    (reached (exec .wrh builtAB)).map State.sink = some (builtAB.sink ++ (msb 4#64 ++ treeAB.header)) :=
  ⟨rfl, rfl, by decide, builtAB_consistent, rfl, rfl, fed_consistent _, by decide +kernel⟩

theorem witness_CodesAgreeOnEqualTrees : Consistent builtAB ∧ Consistent (readAB 4 []) ∧ TreeAt builtAB treeAB ∧
    TreeAt (readAB 4 []) treeAB ∧ builtAB.node ≠ (readAB 4 []).node :=
  ⟨builtAB_consistent, readAB_consistent _ _, builtAB_tree, readAB_tree _ _, by decide⟩

/-! ENC. -/

theorem witness_EncodeWritesCode : builtAB.err = 0 ∧ Consistent builtAB ∧ TreeAt builtAB treeAB ∧
    (0x62, [false]) ∈ treeAB.codes := ⟨rfl, builtAB_consistent, builtAB_tree, by decide⟩

theorem witness_EncodeUnknownSymbol : builtAB.err = 0 ∧ Consistent builtAB ∧ symidxAt builtAB.symidx 0x63 = NIL ∧
    symidxAt builtAB.symidx 0x62 ≠ NIL := ⟨rfl, builtAB_consistent, by decide, by decide⟩

/-- The writer of V1, and the reader of V2 with the one bit of 'a' on its source. -/
theorem witness_EncodeThenDecode : builtAB.err = 0 ∧ Consistent builtAB ∧ TreeAt builtAB treeAB ∧
    0x61 ∈ treeAB.leaves ∧ (reached (exec (.enc 0x61) builtAB)).map State.sink = some (builtAB.sink ++ [true]) ∧
    (readAB 1 [true]).err = 0 ∧ Consistent (readAB 1 [true]) ∧ TreeAt (readAB 1 [true]) treeAB ∧
    (readAB 1 [true]).src = [true] ++ [] ∧
    (readAB 1 [true]).ppos.toNat + [true].length ≤ (readAB 1 [true]).total.toNat :=
  ⟨rfl, builtAB_consistent, builtAB_tree, by decide, by decide +kernel, rfl, readAB_consistent _ _,
    readAB_tree _ _, rfl, by decide⟩

/-! DEC and DECM. -/

/-- A code that ends exactly at TOTAL. -/
theorem witness_DecodeResolvesSymbol : (readABC 2 [true, false]).err = 0 ∧ Consistent (readABC 2 [true, false]) ∧
    TreeAt (readABC 2 [true, false]) treeABC ∧ (0x62, [true, false]) ∈ treeABC.codes ∧
    (readABC 2 [true, false]).src = [true, false] ++ [] ∧
    (readABC 2 [true, false]).ppos.toNat + [true, false].length ≤ (readABC 2 [true, false]).total.toNat :=
  ⟨rfl, readABC_consistent _ _, readABC_tree _ _, by decide, rfl, by decide⟩

theorem witness_MatchDecodeResolvesSymbol : (readABC 2 [true, true]).err = 0 ∧ Consistent (readABC 2 [true, true]) ∧
    TreeAt (readABC 2 [true, true]) treeABC ∧ (0x63, [true, true]) ∈ treeABC.codes ∧
    (readABC 2 [true, true]).src = [true, true] ++ [] ∧
    (readABC 2 [true, true]).ppos.toNat + [true, true].length ≤ (readABC 2 [true, true]).total.toNat :=
  ⟨rfl, readABC_consistent _ _, readABC_tree _ _, by decide, rfl, by decide⟩

/-- Either bit. -/
theorem witness_DecodeSingleLeaf : ∀ b : Bool, (readZ 1 [b]).err = 0 ∧ Consistent (readZ 1 [b]) ∧
    TreeAt (readZ 1 [b]) (.leaf 0x7A) ∧ (readZ 1 [b]).src = b :: [] ∧ (readZ 1 [b]).ppos < (readZ 1 [b]).total :=
  fun _ => ⟨rfl, readZ_consistent _ _, readZ_tree _ _, rfl, show (0#64 : Count) < 1#64 by decide⟩

/-- At once, with TOTAL = PPOS and bits left on the source; and inside a code. -/
theorem witness_PayloadExhausted :
    ((readABC 0 [true]).err = 0 ∧ Consistent (readABC 0 [true]) ∧ TreeAt (readABC 0 [true]) treeABC ∧
      treeABC.sub [] = some treeABC ∧ (readABC 0 [true]).src = [] ++ [true] ∧
      (readABC 0 [true]).total ≤ (readABC 0 [true]).ppos) ∧
    ((readABC 1 [true]).err = 0 ∧ Consistent (readABC 1 [true]) ∧ TreeAt (readABC 1 [true]) treeABC ∧
      treeABC.sub [true] = some (.fork (.leaf 0x62) (.leaf 0x63)) ∧ (readABC 1 [true]).src = [true] ++ [] ∧
      (readABC 1 [true]).ppos.toNat + [true].length = (readABC 1 [true]).total.toNat) :=
  ⟨⟨rfl, readABC_consistent _ _, readABC_tree _ _, rfl, rfl, by decide⟩,
    rfl, readABC_consistent _ _, readABC_tree _ _, rfl, rfl, by decide⟩

/-- At once, and inside a code. -/
theorem witness_SourceExhausted :
    ((readABC 1 []).err = 0 ∧ Consistent (readABC 1 []) ∧ TreeAt (readABC 1 []) treeABC ∧
      treeABC.sub [] = some treeABC ∧ (readABC 1 []).src = [] ∧
      (readABC 1 []).ppos.toNat + ([] : BitStr).length < (readABC 1 []).total.toNat) ∧
    ((readABC 2 [true]).err = 0 ∧ Consistent (readABC 2 [true]) ∧ TreeAt (readABC 2 [true]) treeABC ∧
      treeABC.sub [true] = some (.fork (.leaf 0x62) (.leaf 0x63)) ∧ (readABC 2 [true]).src = [true] ∧
      (readABC 2 [true]).ppos.toNat + [true].length < (readABC 2 [true]).total.toNat) :=
  ⟨⟨rfl, readABC_consistent _ _, readABC_tree _ _, rfl, rfl, by decide⟩,
    rfl, readABC_consistent _ _, readABC_tree _ _, rfl, rfl, by decide⟩

/-- Stopped by the bound of 255 bits, by TOTAL, and by the source. -/
theorem witness_MatchDecodeCandidateBound :
    (∀ total b, (readZ total b).err = 0 ∧ Consistent (readZ total b) ∧ TreeAt (readZ total b) (.leaf 0x7A)) ∧
    (∃ v : BitStr, (readZ 300 (true :: v ++ [false])).src = true :: v ++ [false] ∧ v.length = 254 ∧
      (readZ 300 (true :: v ++ [false])).ppos.toNat + (v.length + 1) ≤ (readZ 300 (true :: v ++ [false])).total.toNat) ∧
    (∃ v : BitStr, (readZ 2 (true :: v ++ [false])).src = true :: v ++ [false] ∧ v.length ≤ 254 ∧
      (readZ 2 (true :: v ++ [false])).ppos.toNat + (v.length + 1) = (readZ 2 (true :: v ++ [false])).total.toNat) ∧
    (∃ v : BitStr, (readZ 3 (true :: v ++ [])).src = true :: v ++ [] ∧ v.length ≤ 254 ∧
      (readZ 3 (true :: v ++ [])).ppos.toNat + (v.length + 1) ≤ (readZ 3 (true :: v ++ [])).total.toNat) := by
  refine ⟨fun _ _ => ⟨rfl, readZ_consistent _ _, readZ_tree _ _⟩, ⟨List.replicate 254 false, rfl, ?_, ?_⟩,
    ⟨[false], rfl, by decide, ?_⟩, ⟨[false], rfl, by decide, ?_⟩⟩
  · rw [List.length_replicate]
  · rw [List.length_replicate]
    show 0 + 255 ≤ (300#64).toNat
    decide
  · decide
  · decide

/-- Two leaves; one leaf with a 0 first; one leaf with a 1 first. -/
theorem witness_DecodersAgree :
    ((readAB 1 [true]).err = 0 ∧ Consistent (readAB 1 [true]) ∧ TreeAt (readAB 1 [true]) treeAB ∧
      2 ≤ treeAB.leaves.length) ∧
    ((readZ 1 [false]).err = 0 ∧ Consistent (readZ 1 [false]) ∧ TreeAt (readZ 1 [false]) (.leaf 0x7A) ∧
      ∀ rest, (readZ 1 [false]).src ≠ true :: rest) ∧
    ((readZ 1 [true]).err = 0 ∧ Consistent (readZ 1 [true]) ∧ TreeAt (readZ 1 [true]) (.leaf 0x7A) ∧
      (readZ 1 [true]).src = true :: [] ∧ (readZ 1 [true]).ppos < (readZ 1 [true]).total) := by
  refine ⟨⟨rfl, readAB_consistent _ _, readAB_tree _ _, by decide⟩,
    ⟨rfl, readZ_consistent _ _, readZ_tree _ _, fun rest h => ?_⟩, rfl, readZ_consistent _ _, readZ_tree _ _, rfl,
    by decide⟩
  have h' : [false] = true :: rest := h
  cases h'

/-- "aaab", which the frequencies of V1 count, and the reader of V2. -/
theorem witness_PayloadRoundTrip : builtAB.err = 0 ∧ Consistent builtAB ∧ TreeAt builtAB treeAB ∧
    (∀ c ∈ [0x61, 0x61, 0x61, 0x62], c ∈ treeAB.leaves) ∧
    (∀ c, [0x61, 0x61, 0x61, 0x62].count c = (freqAt builtAB.freq c).toNat) ∧
    (reached (execAll ([0x61, 0x61, 0x61, 0x62].map .enc) builtAB)).map State.sink =
      some (builtAB.sink ++ [true, true, true, false]) ∧
    (readAB 4 [true, true, true, false]).err = 0 ∧ Consistent (readAB 4 [true, true, true, false]) ∧
    TreeAt (readAB 4 [true, true, true, false]) treeAB ∧
    (readAB 4 [true, true, true, false]).src = [true, true, true, false] ++ [] ∧
    (readAB 4 [true, true, true, false]).ppos.toNat + 4 ≤ (readAB 4 [true, true, true, false]).total.toNat ∧
    ∀ k ∈ [Instr.dec, .decm, .dec, .decm], k = .dec ∨ k = .decm := by
  refine ⟨rfl, builtAB_consistent, builtAB_tree, by decide, fun c => ?_, by decide +kernel, rfl,
    readAB_consistent _ _, readAB_tree _ _, rfl, by decide, by decide⟩
  have h : ∀ n : Nat, n < 256 → [0x61, 0x61, 0x61, 0x62].count (BitVec.ofNat 8 n) =
      (freqAt builtAB.freq (BitVec.ofNat 8 n)).toNat := by decide +kernel
  simpa using h c.toNat c.isLt

/-! The whole machine. -/

theorem builtAB_inv (c : List CmdWord) : Inv (builtAB.withCmds c) :=
  ⟨show builtAB.tablesWf = true by decide +kernel, show legalErr builtAB.err = true by decide,
    fun _ => builtAB_consistent.congr rfl rfl rfl rfl rfl rfl rfl rfl rfl⟩

theorem witness_StepKeepsInvariants : Inv (builtAB.withCmds [0x5000000000000000]) ∧
    ∃ t, step (builtAB.withCmds [0x5000000000000000]) = .next t :=
  ⟨builtAB_inv _, next_of_isSome (by decide +kernel)⟩

theorem witness_EveryStepAnswers : Inv (builtAB.withCmds [0x5000000000000000]) := builtAB_inv _

/-- A state with a tree in which every command answers, and a faulted one. -/
theorem witness_CommandsWriteOnlyTheirSets : ∀ s ∈ [readAB 4 [true, true], builtAB, failed 2],
    ∀ i ∈ [Instr.clr, .ldf 0 0, .build, .getc 0x61, .wrh, .rdh, .enc 0x61, .dec, .decm, .rdr 0],
      i.wellFormed = true ∧ (reached (exec i s)).isSome = true := by decide +kernel

theorem witness_PposStaysWithinTotal : (∀ c, Instr.dec ≠ .enc c) ∧ (readAB 1 [true]).ppos ≤ (readAB 1 [true]).total ∧
    ∃ t, exec .dec (readAB 1 [true]) = .next t :=
  ⟨fun _ => by simp, by decide, next_of_isSome (by decide +kernel)⟩

theorem witness_StreamsAreSequential : ∃ t, step ((readAB 1 [true]).withCmds [0x8000000000000000]) = .next t :=
  next_of_isSome (by decide +kernel)

theorem witness_StreamWorkIsBounded : Consistent builtAB ∧ Consistent (readAB 1 [true]) ∧
    (∀ b, Consistent (fed b)) ∧ (∃ t, exec (.enc 0x61) builtAB = .next t) ∧ (∃ t, exec .wrh builtAB = .next t) ∧
    (∃ t, exec .rdh (fed (msb 4#64 ++ treeAB.header)) = .next t) ∧
    (∃ t, exec .dec (readAB 1 [true]) = .next t) ∧ ∃ t, exec .decm (readAB 1 [true]) = .next t :=
  ⟨builtAB_consistent, readAB_consistent _ _, fed_consistent, next_of_isSome (by decide +kernel),
    next_of_isSome (by decide +kernel), next_of_isSome (by decide +kernel),
    next_of_isSome (by decide +kernel), next_of_isSome (by decide +kernel)⟩

end Sys2Proof.Tests
end

/-! Reset and CLR leave one core state (10_state.md R27), and the host registers read nothing but core
state (R24): so each value of R27 is looked up once, in `State.reset`. -/

section

namespace Sys2Proof.Machine

variable {s t u : State}

theorem SameCore.refl (s : State) : SameCore s s := ⟨rfl, rfl, rfl, rfl, rfl, rfl, rfl, rfl, rfl, rfl⟩

theorem SameCore.nalloc_eq (h : SameCore s t) : t.nalloc = s.nalloc := by
  simp only [State.nalloc, h.node]

theorem SameCore.status_eq (h : SameCore s t) : t.status = s.status := by
  simp only [State.status, State.rootv, State.done, h.root, h.ppos, h.total, h.frozen, h.phase, h.err]

theorem SameCore.hostRegister_eq (h : SameCore s t) (reg : Sym) : hostRegister reg t = hostRegister reg s := by
  simp only [hostRegister, h.status_eq, h.total, h.ppos, h.root, h.nalloc_eq]

theorem sameCore_reset_clearCore (s : State) : SameCore State.reset (clearCore s) :=
  ⟨rfl, rfl, rfl, rfl, rfl, rfl, rfl, rfl, rfl, rfl⟩

theorem SameCore.respond (h : SameCore s t) (opc : Opc) (r : Reply) : SameCore s (respond opc r t) :=
  ⟨h.freq, h.node, h.symidx, h.code, h.root, h.phase, h.frozen, h.total, h.ppos, h.err⟩

theorem exec_clr (s : State) : exec .clr s = .next (respond 0x1 {} (clearCore s)) := rfl

theorem eq_of_exec_clr (h : exec .clr s = .next u) : u = respond 0x1 {} (clearCore s) := by
  rw [exec_clr] at h
  exact (Host.Outcome.next.inj h).symm

theorem sameCore_reset_of_exec_clr (h : exec .clr s = .next u) : SameCore State.reset u := by
  rw [eq_of_exec_clr h]
  exact (sameCore_reset_clearCore s).respond _ _

theorem src_eq_of_exec_clr (h : exec .clr s = .next u) : u.src = s.src := by
  rw [eq_of_exec_clr h, respond_src, clearCore_src]

theorem sink_eq_of_exec_clr (h : exec .clr s = .next u) : u.sink = s.sink := by
  rw [eq_of_exec_clr h, respond_sink, clearCore_sink]

/-- RDR after reset: of STATUS only DONE is set, for PPOS = TOTAL = 0; ROOT reads NIL (R23, R24, R27). -/
theorem hostRegister_reset : hostRegister 0 State.reset = some 0x080 ∧ hostRegister 1 State.reset = some 0 ∧
    hostRegister 2 State.reset = some 0 ∧ hostRegister 3 State.reset = some 0x1FF ∧
    hostRegister 4 State.reset = some 0 := by decide

/-- Settles O14: both kinds of state have the core state of `State.reset`, where each value of R27 is read off. -/
theorem resetValuesOfEveryRegister : Obligations.ResetValuesOfEveryRegister := by
  refine ⟨fun u hu => ?_, fun s u h => ⟨src_eq_of_exec_clr h, sink_eq_of_exec_clr h⟩⟩
  have core : SameCore State.reset u := by
    rcases hu with rfl | ⟨s, h⟩
    · exact .refl _
    · exact sameCore_reset_of_exec_clr h
  simp only [core.hostRegister_eq]
  refine ⟨fun c => ?_, fun c => ?_, fun c => ?_, core.nalloc_eq, core.root, core.phase, core.frozen,
    core.total, core.ppos, core.err, hostRegister_reset⟩
  · rw [core.freq, reset_freq, freqAt_nil]
  · rw [core.symidx, reset_symidx]; exact symidxAt_nil c
  · rw [core.code, reset_code, codeAt_nil]

end Sys2Proof.Machine

end

/-! The decoder inverted format by format (30_encoding.md R61 to R64): the words that stand for a command,
and the words that stand for none. -/

section

namespace Sys2Proof.Machine

variable {w : CmdWord} {i j : Instr}

theorem formatN_eq_ok_iff : formatN i w = .ok j ↔ rsvField w = 0 ∧ symField w = 0 ∧ immField w = 0 ∧ i = j := by
  unfold formatN
  split_ifs <;> simp_all

theorem formatS_eq_ok_iff {f : Sym → Instr} :
    formatS f w = .ok j ↔ rsvField w = 0 ∧ immField w = 0 ∧ f (symField w) = j := by
  unfold formatS
  split_ifs <;> simp_all

theorem formatF_eq_ok_iff {f : Sym → Freq → Instr} :
    formatF f w = .ok j ↔ rsvField w = 0 ∧ f (symField w) (immField w) = j := by
  unfold formatF
  split_ifs <;> simp_all

theorem formatR_eq_ok_iff {f : Sym → Instr} :
    formatR f w = .ok j ↔ rsvField w = 0 ∧ immField w = 0 ∧ symField w ≤ maxReg ∧ f (symField w) = j := by
  unfold formatR
  split_ifs <;> simp_all [BitVec.not_lt]

theorem formatN_eq_error_iff :
    (∃ e, formatN i w = .error e) ↔ rsvField w ≠ 0 ∨ symField w ≠ 0 ∨ immField w ≠ 0 := by
  unfold formatN
  split_ifs <;> simp_all

theorem formatS_eq_error_iff {f : Sym → Instr} :
    (∃ e, formatS f w = .error e) ↔ rsvField w ≠ 0 ∨ immField w ≠ 0 := by
  unfold formatS
  split_ifs <;> simp_all

theorem formatF_eq_error_iff {f : Sym → Freq → Instr} : (∃ e, formatF f w = .error e) ↔ rsvField w ≠ 0 := by
  unfold formatF
  split_ifs <;> simp_all

theorem formatR_eq_error_iff {f : Sym → Instr} :
    (∃ e, formatR f w = .error e) ↔ rsvField w ≠ 0 ∨ immField w ≠ 0 ∨ maxReg < symField w := by
  unfold formatR
  split_ifs <;> simp_all

/-- A word decodes to a command exactly when each of its fields is what the command puts there. -/
theorem decode_eq_ok_iff : decode w = .ok i ↔ i.wellFormed = true ∧ opcField w = i.opcode ∧ rsvField w = 0 ∧
    symField w = i.symOperand ∧ immField w = i.immOperand := by
  constructor
  · intro h
    obtain ⟨hwf, hop⟩ := legal_of_decode h
    refine ⟨hwf, hop.symm, ?_⟩
    unfold decode at h
    split at h
    case h_1 | h_3 | h_5 | h_6 | h_8 | h_9 =>
      obtain ⟨hrsv, hsym, himm, rfl⟩ := formatN_eq_ok_iff.1 h
      exact ⟨hrsv, hsym, himm⟩
    case h_2 =>
      obtain ⟨hrsv, rfl⟩ := formatF_eq_ok_iff.1 h
      exact ⟨hrsv, rfl, rfl⟩
    case h_4 | h_7 =>
      obtain ⟨hrsv, himm, rfl⟩ := formatS_eq_ok_iff.1 h
      exact ⟨hrsv, rfl, himm⟩
    case h_10 =>
      obtain ⟨hrsv, himm, -, rfl⟩ := formatR_eq_ok_iff.1 h
      exact ⟨hrsv, rfl, himm⟩
    case h_11 => cases h
  · rintro ⟨hwf, hop, hrsv, hsym, himm⟩
    unfold decode
    rw [hop]
    cases i with
    | clr | build | wrh | rdh | dec | decm => exact formatN_eq_ok_iff.2 ⟨hrsv, hsym, himm, rfl⟩
    | ldf c n => exact formatF_eq_ok_iff.2 ⟨hrsv, by rw [hsym, himm]; rfl⟩
    | getc c | enc c => exact formatS_eq_ok_iff.2 ⟨hrsv, himm, by rw [hsym]; rfl⟩
    | rdr r =>
      have hr : r ≤ maxReg := of_decide_eq_true hwf
      exact formatR_eq_ok_iff.2 ⟨hrsv, himm, by rw [hsym]; exact hr, by rw [hsym]; rfl⟩

/-- A command without operands has one word, and its mask compares all of it. -/
theorem decode_eq_ok_iff_maskN (hwf : i.wellFormed = true) (hsym : i.symOperand = 0) (himm : i.immOperand = 0) :
    decode w = .ok i ↔ w &&& 0xFFFFFFFFFFFFFFFF#64 = assemble i.opcode 0 0 0 := by
  rw [decode_eq_ok_iff, maskN i.opcode rfl, hwf, hsym, himm]
  simp only [true_and]

/-- A command whose one operand is a symbol: its mask leaves `SYM` out (format S). -/
theorem decode_eq_ok_iff_maskS (o : Opc) (ho : i.opcode = o) (hwf : i.wellFormed = true) (himm : i.immOperand = 0) :
    decode w = .ok i ↔ w &&& 0xFFFFFF00FFFFFFFF#64 = assemble o 0 0 0 ∧ i.symOperand = symField w := by
  rw [decode_eq_ok_iff, maskS o rfl, ho, hwf, himm, eq_comm (a := i.symOperand)]
  tauto

/-- LDF: both operands are left out of its mask (format F). -/
theorem decode_eq_ldf_iff {c : Sym} {n : Freq} :
    decode w = .ok (.ldf c n) ↔ w &&& 0xFFFFFF0000000000#64 = assemble 0x2 0 0 0 ∧
      c = symField w ∧ n = immField w := by
  rw [decode_eq_ok_iff, maskF 0x2 rfl, eq_comm (a := c), eq_comm (a := n)]
  exact ⟨fun ⟨_, hop, hrsv, hsym, himm⟩ => ⟨⟨hop, hrsv⟩, hsym, himm⟩,
    fun ⟨⟨hop, hrsv⟩, hsym, himm⟩ => ⟨rfl, hop, hrsv, hsym, himm⟩⟩

/-- RDR: the mask of format S, and a register number that exists (format R). -/
theorem decode_eq_rdr_iff {r : Sym} :
    decode w = .ok (.rdr r) ↔ w &&& 0xFFFFFF00FFFFFFFF#64 = assemble 0xA 0 0 0 ∧
      r = symField w ∧ r.toNat ≤ 4 := by
  rw [decode_eq_ok_iff, maskS 0xA rfl, eq_comm (a := r)]
  exact ⟨fun ⟨hwf, hop, hrsv, hsym, himm⟩ => ⟨⟨hop, hrsv, himm⟩, hsym, of_decide_eq_true hwf⟩,
    fun ⟨⟨hop, hrsv, himm⟩, hsym, hr⟩ => ⟨decide_eq_true hr, hop, hrsv, hsym, himm⟩⟩

/-- Settles O3, format by format: every match of R62 is its opcode assembled with zero operands. -/
theorem decodesByMaskAndMatch : Obligations.DecodesByMaskAndMatch :=
  fun _ => ⟨decode_eq_ok_iff_maskN rfl rfl rfl, fun _ _ => decode_eq_ldf_iff,
    decode_eq_ok_iff_maskN rfl rfl rfl, fun _ => decode_eq_ok_iff_maskS 0x4 rfl rfl rfl,
    decode_eq_ok_iff_maskN rfl rfl rfl, decode_eq_ok_iff_maskN rfl rfl rfl,
    fun _ => decode_eq_ok_iff_maskS 0x7 rfl rfl rfl, decode_eq_ok_iff_maskN rfl rfl rfl,
    decode_eq_ok_iff_maskN rfl rfl rfl, fun _ => decode_eq_rdr_iff⟩

/-- The words that R64 lists as illegal. -/
def IllegalWord (w : CmdWord) : Prop :=
  let opc := (opcField w).toNat
  opc = 0 ∨ 0xB ≤ opc ∨ rsvField w ≠ 0 ∨
    (opc ∈ [0x1, 0x3, 0x5, 0x6, 0x8, 0x9] ∧ symField w ≠ 0) ∨
    (opc ∈ [0x1, 0x3, 0x4, 0x5, 0x6, 0x7, 0x8, 0x9, 0xA] ∧ immField w ≠ 0) ∨
    (opc = 0xA ∧ 4 < (symField w).toNat)

theorem decode_eq_error_iff : (∃ e, decode w = .error e) ↔ IllegalWord w := by
  unfold decode
  split
  case h_1 ho | h_3 ho | h_5 ho | h_6 ho | h_8 ho | h_9 ho =>
    rw [formatN_eq_error_iff]; simp [IllegalWord, ho]
  case h_2 ho => rw [formatF_eq_error_iff]; simp [IllegalWord, ho]
  case h_4 ho | h_7 ho => rw [formatS_eq_error_iff]; simp [IllegalWord, ho]
  case h_10 ho => rw [formatR_eq_error_iff]; simp [IllegalWord, ho, BitVec.lt_def]
  case h_11 h1 h2 h3 h4 h5 h6 h7 h8 h9 hA =>
    have hunused : (opcField w).toNat = 0 ∨ 0xB ≤ (opcField w).toNat := by
      simp only [imp_false] at h1 h2 h3 h4 h5 h6 h7 h8 h9 hA
      bv_omega
    exact iff_of_true ⟨_, rfl⟩ (hunused.imp_right .inl)

/-- Settles O4: the decoder rejects what R64 lists, and a rejected word raises code 5. -/
theorem illegalWordsRaise : Obligations.IllegalWordsRaise := by
  refine fun w => ⟨decode_eq_error_iff, fun hill s rest he hc => ?_⟩
  obtain ⟨e, hd⟩ := decode_eq_error_iff.2 hill
  rw [step_illegal hc hd, illegalCommand_ok (s := s.withCmds rest) he]
  rfl

end Sys2Proof.Machine

end

/-! The one response of a step (30_encoding.md R66, R67): every way a word can be answered appends `R0.ERR`, the
opcode echo and a reply, so the fields are read off once, in `Responded` and `Reply.FitsRow`. -/

section

namespace Sys2Proof.Machine

variable {w : CmdWord} {i : Instr}

/-- R67: the fields of a reply that the row of a command does not name are zero. -/
def Reply.FitsRow (i : Instr) (r : Reply) : Prop :=
  match i with
  | .clr => r = {}
  | .ldf _ _ => r = {}
  | .build => r = {}
  | .getc _ => r.sym = 0 ∧ r.r1 = 0
  | .wrh => r.len = 0 ∧ r.sym = 0 ∧ r.cb = 0
  | .rdh => r.len = 0 ∧ r.sym = 0 ∧ r.cb = 0
  | .enc _ => r.sym = 0 ∧ r.r1 = 0 ∧ r.cb = 0
  | .dec => r.r1 = 0 ∧ r.cb = 0
  | .decm => r.r1 = 0 ∧ r.cb = 0
  | .rdr _ => r.len = 0 ∧ r.sym = 0 ∧ r.cb = 0

theorem Reply.fitsRow_blank (i : Instr) : Reply.FitsRow i {} := by
  cases i <;> simp [Reply.FitsRow]

/-- What a decoder answers: `SYM` and `LEN` only. -/
theorem decoded_done {s u : State} {d : Decoded} {r : Reply} (h : decoded s d = .done r u) :
    r.r1 = 0 ∧ r.cb = 0 := by
  cases d <;> cases h
  exact ⟨rfl, rfl⟩

theorem bodyOf_fitsRow {s u : State} {r : Reply} (h : bodyOf i s = .done r u) : r.FitsRow i := by
  cases i with
  | clr | ldf c n | rdr c => cases h; exact Reply.fitsRow_blank _
  | build => simp only [bodyOf, buildTree] at h; split at h <;> cases h; rfl
  | getc c => simp only [bodyOf, getcBody] at h; split at h <;> cases h; exact ⟨rfl, rfl⟩
  | wrh => simp only [bodyOf, wrhBody] at h; (repeat' split at h) <;> cases h; exact ⟨rfl, rfl, rfl⟩
  | rdh => simp only [bodyOf, rdhBody] at h; (repeat' split at h) <;> cases h; exact ⟨rfl, rfl, rfl⟩
  | enc c => simp only [bodyOf, encBody] at h; (repeat' split at h) <;> cases h; exact ⟨rfl, rfl, rfl⟩
  | dec => exact decoded_done h
  | decm =>
    simp only [bodyOf, decmBody] at h
    split at h
    · cases h
    · exact decoded_done h

/-- `t` is `s` after one response with `R0.ERR = e` and the fields of `r` (R66). In the fault state an
exempt word is answered with `R0.ERR = 0` and any other with the sticky code. -/
structure Responded (exempt : Prop) (opc : Opc) (e : BitVec 4) (r : Reply) (s t : State) : Prop where
  resps : t.resps = s.resps ++ [⟨packR0 e opc r.len r.sym, r.r1, r.cb⟩]
  cmds : t.cmds = s.cmds
  ok : s.err = 0 → e = t.err
  passed : s.err ≠ 0 → exempt → e = 0
  refused : s.err ≠ 0 → ¬ exempt → e = s.err
  blank : e ≠ 0 → r = {}

theorem responded_respond {exempt : Prop} {s u : State} (hresps : u.resps = s.resps) (hcmds : u.cmds = s.cmds)
    (herr : s.err = 0 → u.err = 0) (hx : s.err ≠ 0 → exempt) (opc : Opc) (r : Reply) :
    Responded exempt opc 0 r s (respond opc r u) where
  resps := by rw [respond_resps, hresps]
  cmds := hcmds
  ok h := (herr h).symm
  passed _ _ := rfl
  refused h hn := absurd (hx h) hn
  blank h := absurd rfl h

theorem responded_refuse {exempt : Prop} {s : State} (he : s.err ≠ 0) (hx : ¬ exempt) (opc : Opc) :
    Responded exempt opc s.err {} s (refuse opc s) where
  resps := rfl
  cmds := rfl
  ok h := absurd h he
  passed _ h := absurd h hx
  refused _ _ := rfl
  blank _ := rfl

theorem responded_takeFault {exempt : Prop} {s u : State} (he : s.err = 0) (hu : Quiet s u) (k : FaultKind)
    (opc : Opc) : Responded exempt opc k.code {} s (takeFault k opc u) where
  resps := by rw [takeFault_resps, hu.resps]; rfl
  cmds := by rw [takeFault_cmds, hu.cmds]
  ok _ := by rw [takeFault_err, hu.err, if_pos he]
  passed h := absurd he h
  refused h := absurd he h
  blank _ := rfl

theorem Quiet.refl (s : State) : Quiet s s := ⟨rfl, rfl, rfl⟩

theorem responded_illegalCommand {exempt : Prop} (hx : ¬ exempt) (opc : Opc) (s : State) :
    ∃ e, Responded exempt opc e {} s (illegalCommand opc s) := by
  by_cases he : s.err = 0
  · rw [illegalCommand, if_neg (by simp [he])]
    exact ⟨_, responded_takeFault he (.refl s) .illegalCommand opc⟩
  · rw [illegalCommand_refused he]
    exact ⟨_, responded_refuse he hx opc⟩

/-- CLR and RDR, the commands that are answered in the fault state (R167). -/
theorem not_dispatched_iff : ¬ Dispatched i ↔ i = .clr ∨ ∃ n, i = .rdr n := by
  simp only [Dispatched, not_and_or, not_forall, not_not]

theorem exec_responded {s t : State} (hwf : i.wellFormed = true) (h : exec i s = .next t) :
    ∃ e r, Responded (¬ Dispatched i) i.opcode e r s t ∧ r.FitsRow i := by
  cases answers h with
  | cleared is =>
    subst is
    have hx : ¬ Dispatched .clr := not_dispatched_iff.2 (.inl rfl)
    exact ⟨_, _, responded_respond (clearCore_resps s) (clearCore_cmds s) (fun _ => rfl) (fun _ => hx) _ _, rfl⟩
  | @read n v is reg =>
    subst is
    have hx : ¬ Dispatched (.rdr n) := not_dispatched_iff.2 (.inr ⟨n, rfl⟩)
    exact ⟨_, _, responded_respond rfl rfl id (fun _ => hx) _ _, rfl, rfl, rfl⟩
  | unassigned is reg =>
    subst is
    exact absurd reg (not_unassigned hwf)
  | refused is err => exact ⟨_, _, responded_refuse err (not_not.2 is) _, Reply.fitsRow_blank i⟩
  | forbidden is err phase =>
    have hr := responded_takeFault (exempt := ¬ Dispatched i) err (.refl s) .illegalSequence i.opcode
    rw [takeFault_eq err] at hr
    exact ⟨_, _, hr, Reply.fitsRow_blank i⟩
  | @done r u is err phase body =>
    have hq : Quiet s u := bodyOf_quiet is (.inl ⟨r, body⟩)
    exact ⟨_, _, responded_respond hq.resps hq.cmds hq.err.trans (absurd err) _ _, bodyOf_fitsRow body⟩
  | @raised k u is err phase body =>
    exact ⟨_, _, responded_takeFault err (bodyOf_quiet is (.inr ⟨k, body⟩)) k _, Reply.fitsRow_blank i⟩

/-- One step on a pending word, legal or not. -/
theorem step_responded {s t : State} {rest : List CmdWord} (hc : s.cmds = w :: rest) (h : step s = .next t) :
    ∃ e r, Responded (decode w = .ok .clr ∨ ∃ n, decode w = .ok (.rdr n)) (opcField w) e r (s.withCmds rest) t ∧
      ∀ i, decode w = .ok i → r.FitsRow i := by
  rcases decode_cases w with ⟨x, hd⟩ | ⟨i, hd⟩
  · rw [step_illegal hc hd] at h
    cases h
    obtain ⟨e, he⟩ := responded_illegalCommand (exempt := decode w = .ok .clr ∨ ∃ n, decode w = .ok (.rdr n))
      (by simp [hd]) (opcField w) (s.withCmds rest)
    exact ⟨e, {}, he, fun i _ => Reply.fitsRow_blank i⟩
  · rw [step_legal hc hd] at h
    obtain ⟨e, r, he, hr⟩ := exec_responded (wf_of_decode hd) h
    rw [opcode_of_decode hd, not_dispatched_iff] at he
    refine ⟨e, r, ?_, fun j hj => ?_⟩
    · simpa only [hd, Except.ok.injEq] using he
    · cases hd.symm.trans hj
      exact hr

/-- `R0[7:0]` is SYM (R66), beside the fields `packR0_fields` gives. -/
theorem packR0_sym (e : BitVec 4) (o : Opc) (l : BitVec 8) (c : Sym) : (packR0 e o l c).extractLsb' 0 8 = c := by
  unfold packR0
  exact BitVec.extractLsb'_append_eq_right

/-- Settles O8: the response of `step_responded`, read field by field. -/
theorem oneResponsePerWord : Obligations.OneResponsePerWord := by
  intro s t w rest hc h
  obtain ⟨e, r, hr, hrow⟩ := step_responded hc h
  obtain ⟨herr, hopc, hgap, hlow⟩ := packR0_fields e (opcField w) r.len r.sym
  refine ⟨_, hr.resps, hr.cmds, hopc, hgap, fun he => herr.trans (hr.ok he),
    fun he hx => herr.trans (hr.passed he hx), fun he hx => herr.trans (hr.refused he hx), fun he => ?_,
    fun i hi => ?_⟩
  · obtain rfl := hr.blank (herr ▸ he)
    exact ⟨hlow, rfl, rfl⟩
  · have hfit := hrow i hi
    have hsym := packR0_sym e (opcField w) r.len r.sym
    cases i with
    | clr | ldf c n | build =>
      obtain rfl := hfit
      exact ⟨hlow, rfl, rfl⟩
    | getc c | enc c => exact ⟨hsym.trans hfit.1, hfit.2⟩
    | dec | decm => exact hfit
    | wrh | rdh | rdr n =>
      obtain ⟨hl, hs, hcb⟩ := hfit
      exact ⟨hlow.trans (by rw [hl, hs]; rfl), hcb⟩

end Sys2Proof.Machine

end

/-! CLR and RDR, the commands that are answered in every phase and in the fault state (40_control.md R81, R83):
what they answer, in the words of `completed`, and the words that encode them. -/

section

namespace Sys2Proof.Machine

variable {w : CmdWord} {s : State} {r : Sym}

/-- R81: CLR answers the reset state with the ports as they were, and a blank response. -/
theorem exec_clr_eq_completed (s : State) : exec .clr s = .next (completed 0x1 (clearCore s)) :=
  exec_clr s

/-- CLR has no operands, so its mask is the whole word. -/
theorem decode_eq_clr_iff : decode w = .ok .clr ↔ w = 0x1000000000000000#64 := by
  have hmask : w &&& 0xFFFFFFFFFFFFFFFF#64 = w := BitVec.and_allOnes
  have h := decode_eq_ok_iff_maskN (w := w) (i := .clr) rfl rfl rfl
  rwa [hmask] at h

/-- Settles O15: CLR answers `clearCore`, and the one word of R62 is its whole mask. -/
theorem clearIsReset : Obligations.ClearIsReset :=
  ⟨exec_clr_eq_completed, fun _ => decode_eq_clr_iff⟩

/-- R83: RDR answers the register and leaves the state as it is; ERR plays no part. -/
theorem exec_rdr_of_hostRegister {v : BitVec 64} (h : hostRegister r s = some v) :
    exec (.rdr r) s = .next (completed 0xA s (r1 := v)) := by
  simp only [exec, execRdr, h]
  rfl

/-- NALLOC loses nothing in its 10 bits, for the arena has at most 511 entries (R13). -/
theorem nalloc_setWidth (h : s.node.length ≤ 511) : s.nalloc.setWidth 64 = BitVec.ofNat 64 s.node.length :=
  BitVec.setWidth_ofNat_of_le_of_lt (by decide) (by omega)

/-- A word as the number its four fields write (R60). -/
theorem assemble_toNat (o : Opc) (rsv : BitVec 20) (c : Sym) (n : Freq) : (assemble o rsv c n).toNat =
    o.toNat * 2 ^ 60 + rsv.toNat * 2 ^ 40 + c.toNat * 2 ^ 32 + n.toNat := by
  have hn : n.toNat < 2 ^ 32 := n.isLt
  have hc : c.toNat < 2 ^ 8 := c.isLt
  have hr : rsv.toNat < 2 ^ 20 := rsv.isLt
  simp only [assemble, BitVec.toNat_append]
  rw [← Nat.shiftLeft_add_eq_or_of_lt hr, ← Nat.shiftLeft_add_eq_or_of_lt hn,
    ← Nat.shiftLeft_add_eq_or_of_lt (by rw [Nat.shiftLeft_eq]; omega)]
  simp only [Nat.shiftLeft_eq]
  omega

/-- The word of RDR as R62 and R63 give it, for every value of SYM. -/
theorem encode_rdr (r : Sym) : encode (.rdr r) = 0xA000000000000000#64 + BitVec.ofNat 64 (r.toNat * 2 ^ 32) := by
  have hr : r.toNat < 2 ^ 8 := r.isLt
  apply BitVec.eq_of_toNat_eq
  rw [encode, assemble_toNat, BitVec.toNat_add]
  simp only [Instr.opcode, Instr.symOperand, Instr.immOperand, BitVec.ofNat_eq_ofNat, BitVec.toNat_ofNat]
  omega

/-- RDR of a register that exists has a word (R24, R61). -/
theorem decode_encode_rdr (h : r.toNat ≤ 4) : decode (encode (.rdr r)) = .ok (.rdr r) :=
  decode_eq_ok_iff.2 ⟨decide_eq_true h, opcField_assemble .., rsvField_assemble .., symField_assemble ..,
    immField_assemble ..⟩

/-- RDR of an unassigned register has none: its word is illegal (R24, R64). -/
theorem illegalWord_encode_rdr (h : 4 < r.toNat) : IllegalWord (encode (.rdr r)) := by
  simp [IllegalWord, encode, Instr.opcode, Instr.symOperand, h]

/-- Settles O17: each register is looked up in `hostRegister`, NALLOC through `nalloc_setWidth`. -/
theorem readRegisterReturnsState : Obligations.ReadRegisterReturnsState := by
  refine ⟨fun s hs => ⟨exec_rdr_of_hostRegister rfl, exec_rdr_of_hostRegister rfl, exec_rdr_of_hostRegister rfl,
    exec_rdr_of_hostRegister rfl, ?_⟩, fun r => ?_⟩
  · rw [← nalloc_setWidth hs]
    exact exec_rdr_of_hostRegister rfl
  · rw [← encode_rdr]
    exact ⟨decode_encode_rdr, fun h => decode_eq_error_iff.2 (illegalWord_encode_rdr h)⟩

end Sys2Proof.Machine

end

/-! BUILD's arena read from the number k of present symbols (41_tree_builder.md R91, R95): where its leaves and
its root stand, and what a consistent state without a root answers afterwards. -/

section

namespace Sys2Proof.Machine

variable {s t : State} {c : Sym} {i : Idx} {n : Node}

/-- `Consistent` reads no port. -/
theorem Consistent.completed (hc : Consistent s) (opc : Opc) : Consistent (completed opc s) :=
  hc.congr rfl rfl rfl rfl rfl rfl rfl rfl rfl

/-! ### The arena that BUILD writes -/

theorem BuiltFrom.err_eq (hb : BuiltFrom s t) : t.err = s.err := by rw [hb.same]; rfl

theorem BuiltFrom.phase_eq (hb : BuiltFrom s t) : t.phase = .built := by rw [hb.same]; rfl

theorem BuiltFrom.node_length (hb : BuiltFrom s t) : t.node.length = 2 * (presentSyms s.freq).length - 1 := hb.size

/-- The root is the entry allocated last. -/
theorem BuiltFrom.root_eq (hb : BuiltFrom s t) (hk : (presentSyms s.freq).length ≠ 0) :
    t.root = BitVec.ofNat 9 (2 * (presentSyms s.freq).length - 2) := by
  have hroot : t.root.toNat + 1 = t.node.length := hb.someRoot hk
  have hlen := hb.node_length
  have hmax := presentSyms_length s.freq
  apply BitVec.eq_of_toNat_eq
  rw [BitVec.toNat_ofNat]
  omega

/-- A merged entry has a left child. -/
theorem Merged.isLeaf_eq_false {ns : List Node} (h : Merged ns i n) : n.isLeaf = false := by
  obtain ⟨-, hleft, -⟩ := h
  simp [Node.isLeaf, hleft]

/-- The leaves are the first k entries (R91); the merges follow them. -/
theorem BuiltFrom.isLeaf_iff (hb : BuiltFrom s t) (hn : nodeAt t.node i = some n) :
    n.isLeaf = true ↔ i.toNat < (presentSyms s.freq).length := by
  constructor
  · intro hleaf
    by_contra hge
    have hmerged := (hb.merged i n (not_lt.1 hge) hn).isLeaf_eq_false
    rw [hleaf] at hmerged
    cases hmerged
  · intro hlt
    obtain ⟨-, m, hm, hleaf, -⟩ := hb.leaf i.toNat _ (List.getElem?_eq_getElem hlt)
    rw [BitVec.ofNat_toNat, BitVec.setWidth_eq, hn] at hm
    rw [Option.some.inj hm]
    exact hleaf

/-- The only present symbol is s_0, whose leaf NODE[0] is the root. -/
theorem BuiltFrom.symidx_eq_root (hb : BuiltFrom s t) (h1 : (presentSyms s.freq).length = 1)
    (hf : freqAt s.freq c ≠ 0) : symidxAt t.symidx c = t.root := by
  obtain ⟨d, hd⟩ := List.length_eq_one_iff.1 h1
  have hcd : c = d := by
    have hmem := mem_presentSyms.2 hf
    rwa [hd, List.mem_singleton] at hmem
  rw [hb.root_eq (by omega), h1]
  exact (hb.leaf 0 c (by rw [hd, hcd]; rfl)).1

/-- A single symbol has the code `<0>`. -/
theorem BuiltFrom.derive_single (hb : BuiltFrom s t) (h1 : (presentSyms s.freq).length = 1)
    (hf : freqAt s.freq c ≠ 0) : derive t.node t.symidx t.root c = .ok [false] := by
  rw [derive, if_neg ((hb.present_iff c).2 hf), if_pos (hb.symidx_eq_root h1 hf)]

/-! ### What follows a BUILD over no symbol -/

/-- GETC of an absent symbol answers the empty code, and caches nothing (R100, R101). -/
theorem exec_getc_absent (he : s.err = 0) (hc : Consistent s) (h : symidxAt s.symidx c = NIL) :
    exec (.getc c) s = .next (completed 0x4 s) := by
  have hbody : getcBody c s = .done {} s := by
    simp only [getcBody, getcode_absent hc h, pack_nil]; rfl
  rw [exec_runs ⟨by simp, by simp⟩ he (by simp [PhaseForbids])]
  show conclude _ (getcBody c s) = _
  rw [hbody]
  rfl

/-- ENC of an absent symbol raises UnknownSymbol, and caches nothing (R133). -/
theorem exec_enc_absent (he : s.err = 0) (hc : Consistent s) (h : symidxAt s.symidx c = NIL) :
    exec (.enc c) s = .next (faulted 3 0x7 s) := by
  have hbody : encBody c s = .raised .unknownSymbol s := by
    rw [encBody, getcode_absent hc h]; rfl
  rw [exec_runs ⟨by simp, by simp⟩ he (by simp [PhaseForbids])]
  show conclude _ (encBody c s) = _
  rw [hbody, conclude_raised he]
  rfl

/-! ### The two statements -/

/-- Settles O19: BUILD answers a state with `BuiltFrom`, whose leaf clause this is. -/
theorem buildLeafOrder : Obligations.BuildLeafOrder := by
  intro s he hp hc
  obtain ⟨t, hexec, hb⟩ := build_next he hp hc
  exact ⟨completed 0x3 t, hexec, hb.leaf⟩

/-- Settles O20: the three cases are read off `BuiltFrom`; after BUILD over no symbol there is no root, so every
symbol is absent, and WRH, DEC and DECM are forbidden. -/
theorem buildCounts : Obligations.BuildCounts := by
  intro s he hp hc
  obtain ⟨t, hexec, hb⟩ := build_next he hp hc
  have herr : (completed 0x3 t).err = 0 := hb.err_eq.trans he
  refine ⟨completed 0x3 t, hexec, herr, hb.phase_eq, fun h0 => ?_, fun h1 => ?_, ?_⟩
  · have hroot : (completed 0x3 t).root = NIL := hb.noRoot h0
    have hcons := hb.consistent.completed 0x3
    have habsent := absent_of_no_root hcons hroot
    exact ⟨hcons.rooted.1 hroot, hroot, fun c => exec_getc_absent herr hcons (habsent c),
      fun c => exec_enc_absent herr hcons (habsent c), exec_forbidden ⟨by simp, by simp⟩ herr (.inr hroot),
      exec_forbidden ⟨by simp, by simp⟩ herr (.inr hroot), exec_forbidden ⟨by simp, by simp⟩ herr (.inr hroot)⟩
  · have hroot := hb.root_eq (by omega)
    have hlen := hb.node_length
    rw [h1] at hroot hlen
    exact ⟨hroot, hlen, fun c hf => hb.derive_single h1 hf⟩
  · rintro k rfl hk
    exact ⟨hb.node_length, hb.root_eq (by omega), fun i n hn => hb.isLeaf_iff hn⟩

end Sys2Proof.Machine

end

/-! GETC as an answer of `getcode` (42_code_deriver.md R100, R101), and the packed image bit by bit (R105). -/

section

namespace Sys2Proof.Machine

variable {s : State} {c : Sym} {w : BitStr} {code : Table BitStr}

/-! ### The memoized lookup -/

theorem getcode_hit (h : codeAt code c = some w) : getcode s code c = .ok (w, code) := by
  simp only [getcode, h]

theorem getcode_miss (h : codeAt code c = none) (hd : derive s.node s.symidx s.root c = .ok w) :
    getcode s code c = .ok (w, if !w.isEmpty && !s.frozen then setCode code c w else code) := by
  simp only [getcode, h, hd]

/-- What CODE holds after a miss: the derived string under its symbol, unless that is empty or FROZEN = 1. -/
theorem codeAt_insert (d : Sym) :
    codeAt (if !w.isEmpty && !s.frozen then setCode code c w else code) d =
      if d = c ∧ w ≠ [] ∧ s.frozen = false then some w else codeAt code d := by
  by_cases hins : w ≠ [] ∧ s.frozen = false
  · obtain ⟨hw, hf⟩ := hins
    simp [hw, hf, eq_comm (a := d)]
  · have hskip : ¬ (!w.isEmpty && !s.frozen) = true := by simpa using hins
    rw [if_neg hskip, if_neg fun h => hins h.2]

/-! ### GETC -/

/-- GETC is legal in every phase, and its response carries what `getcode` answers. -/
theorem exec_getc_of_getcode (he : s.err = 0) (h : getcode s s.code c = .ok (w, code)) :
    exec (.getc c) s = .next (completed 0x4 (s.withCode code) (len := w.length) (cb := pack w)) := by
  have hbody : bodyOf (.getc c) s = .done { len := BitVec.ofNat 8 w.length, cb := pack w } (s.withCode code) := by
    simp only [bodyOf, getcBody, h]
  rw [exec_runs ⟨by simp, by simp⟩ he (by simp [PhaseForbids]), hbody, conclude_done]
  rfl

/-- A word with no operand but a symbol, as the number its two fields write. -/
theorem assemble_sym_toNat (o : Opc) (c : Sym) :
    (assemble o 0 c 0).toNat = o.toNat * 2 ^ 60 + c.toNat * 2 ^ 32 := by
  have hrsv : (0 : BitVec 20).toNat = 0 := rfl
  have himm : (0 : Freq).toNat = 0 := rfl
  rw [assemble_toNat, hrsv, himm, Nat.zero_mul, Nat.add_zero, Nat.add_zero]

/-- A symbol operand stands 32 places up in its word (R60). -/
theorem assemble_sym (o : Opc) (c : Sym) :
    assemble o 0 c 0 = assemble o 0 0 0 + BitVec.ofNat 64 (c.toNat * 2 ^ 32) := by
  have hc : c.toNat < 2 ^ 8 := c.isLt
  have ho : o.toNat < 2 ^ 4 := o.isLt
  have h0 : (0 : Sym).toNat = 0 := rfl
  apply BitVec.eq_of_toNat_eq
  rw [BitVec.toNat_add, assemble_sym_toNat, assemble_sym_toNat, BitVec.toNat_ofNat, h0]
  omega

/-- The word of GETC (R62, R63). -/
theorem decode_getc_word (c : Sym) :
    decode (0x4000000000000000#64 + BitVec.ofNat 64 (c.toNat * 2 ^ 32)) = .ok (.getc c) := by
  have hword : assemble 0x4 0 0 0 = 0x4000000000000000#64 := by decide
  rw [← hword, ← assemble_sym, decode_eq_ok_iff]
  exact ⟨rfl, opcField_assemble .., rsvField_assemble .., symField_assemble .., immField_assemble ..⟩

/-- Settles O25: in a consistent state `getcode` answers the derived code, of the length that `derive_total` bounds. -/
theorem getcReturnsDerivedCode : Obligations.GetcReturnsDerivedCode := by
  refine ⟨fun s c he hc => ?_, decode_getc_word⟩
  obtain ⟨hderive, hlen, hempty⟩ := derive_total hc c
  obtain ⟨code, hget, -⟩ := getcode_spec hc hc.memo c
  exact ⟨codeOf s c, code, hderive, getcode_lookedUp hget, hempty, hlen, exec_getc_of_getcode he hget⟩

/-- Settles O26: GETC answers `getcode`, which on a hit leaves CODE alone and on a miss inserts as R101 says. -/
theorem lookupInsertsUnlessFrozen : Obligations.LookupInsertsUnlessFrozen :=
  fun _ _ _ he => ⟨fun hhit => exec_getc_of_getcode he (getcode_hit hhit),
    fun hmiss hd => ⟨_, exec_getc_of_getcode he (getcode_miss hmiss hd), codeAt_insert⟩⟩

/-! ### The packed image -/

/-- `getMsbD_pack` with the positions counted from the least significant bit, as R105 counts them. -/
theorem getLsbD_pack {j : Nat} (hw : w.length ≤ 255) (hj : j ≤ 255) :
    (pack w).getLsbD j = w.getD (255 - j) false := by
  rw [BitVec.getLsbD_eq_getMsbD, decide_eq_true (by omega : j < 256), Bool.true_and]
  exact getMsbD_pack w (255 - j) (by simp only [WCODE]; omega) (by simp only [WCODE]; omega)

/-- Settles O29: position 255-k holds bit k of the code, and the positions the code does not reach read 0. -/
theorem packedImageLayout : Obligations.PackedImageLayout := by
  refine ⟨fun w hw => ⟨fun k b hb => ?_, fun j hj => ?_⟩, pack_nil, by decide, by decide, by decide⟩
  · obtain ⟨hk, -⟩ := List.getElem?_eq_some_iff.1 hb
    rw [getLsbD_pack hw (by omega), show 255 - (255 - k) = k by omega,
      List.getD_eq_getElem?_getD, hb, Option.getD_some]
  · rw [getLsbD_pack hw (by omega)]
    exact List.getD_eq_default _ _ (by omega)

end Sys2Proof.Machine

end

/-! WRH in the terms of its statements (43_serializer.md R113, R114). -/

section

namespace Sys2Proof.Machine

/-- The count and the tree field reach the sink one after the other, behind what it held. -/
theorem afterWrh_eq (s : State) (code : Table BitStr) (t : CodeTree) :
    afterWrh s code t =
      ((((s.withCode code).withFrozen true).withTotal (BitVec.ofNat 64 (t.payload s.freq))).withPpos 0).withSink
        (s.sink ++ msb (BitVec.ofNat 64 (t.payload s.freq)) ++ t.header) := by
  rw [List.append_assoc]
  rfl

/-- Settles O30: `wrh_next` runs WRH on the held tree, and `afterWrh_eq` reads off the state it leaves. -/
theorem writeHeaderEmitsCountAndTree : Obligations.WriteHeaderEmitsCountAndTree := by
  intro s t he hb hc ht
  obtain ⟨code, hcode, -, hrun⟩ := wrh_next he hb hc ht
  exact ⟨code, hcode, by rw [hrun, afterWrh_eq]⟩

end Sys2Proof.Machine

end

/-! RDH in the terms of its statements (44_deserializer.md): the count it reads first (R121), and the tree it makes
of a header (R122). -/

section

namespace Sys2Proof.Machine

variable {s u : State} {total : Count} {t : CodeTree}

/-! ### The count -/

/-- A source of `n` bits or more starts with an `n`-bit field. -/
theorem exists_msb_append {n : Nat} {src : BitStr} (h : n ≤ src.length) :
    ∃ (v : BitVec n) (rest : BitStr), src = msb v ++ rest := by
  have hlen : (src.take n).length = n := List.length_take_of_le h
  exact ⟨BitVec.ofNat n (shiftIn 0 (src.take n)), src.drop n,
    by rw [msb_shiftIn _ hlen, List.take_append_drop]⟩

/-- A source that ends in the count: every bit is consumed and nothing is written. -/
theorem rdhBody_of_short (h : s.src.length < WCOUNT) :
    rdhBody s = .raised .truncatedStream (s.withSrc []) := by
  simp only [rdhBody, readField_short WCOUNT 0 s.src h]

/-- Once the count has arrived, TOTAL and PPOS are written, whether or not the tree field parses. -/
theorem rdhBody_of_count {v : BitStr} (hs : s.src = msb total ++ v) :
    ∃ u, (rdhBody s).In u ∧ u.total = total ∧ u.ppos = 0 := by
  unfold rdhBody
  rw [hs, readField_msb]
  simp only [BitVec.ofNat_toNat, BitVec.setWidth_eq]
  cases parse NNODE NIL ⟨v, s.node, s.symidx⟩ with
  | raised k p => exact ⟨_, in_raised.2 rfl, rfl, rfl⟩
  | made i p => exact ⟨_, in_done.2 rfl, rfl, rfl⟩

/-- In phase EMPTY the command ends where its pseudocode does. -/
theorem exec_rdh_of_in (he : s.err = 0) (hp : s.phase = .empty) (h : (rdhBody s).In u) :
    ∃ x, exec .rdh s = .next x ∧ Ended u x := by
  have herr : u.err = 0 := (bodyOf_quiet (i := .rdh) ⟨by simp, by simp⟩ h).err.trans he
  rw [rdh_runs he hp]
  obtain ⟨r, hbody⟩ | ⟨k, hbody⟩ := h
  · rw [hbody, conclude_done]
    exact ⟨_, rfl, ended_respond ..⟩
  · rw [hbody, conclude_raised herr]
    exact ⟨_, rfl, ended_faulted _ _ herr⟩

/-- Settles O36: `rdhBody_of_short` below 64 bits, and from 64 bits on the count that the source starts with. -/
theorem readHeaderCount : Obligations.ReadHeaderCount := by
  refine fun s he hp => ⟨fun hshort => ?_, fun hlong => ?_⟩
  · have herr : (s.withSrc []).err = 0 := he
    rw [rdh_runs he hp, rdhBody_of_short hshort, conclude_raised herr]
    rfl
  · obtain ⟨total, v, hs⟩ := exists_msb_append hlong
    obtain ⟨u, hbody, htotal, hppos⟩ := rdhBody_of_count hs
    obtain ⟨x, hexec, hend⟩ := exec_rdh_of_in he hp hbody
    obtain ⟨-, -, -, -, -, -, -, hxtotal, hxppos, -⟩ := hend.fields
    refine ⟨x, hexec, ?_, hxppos.trans hppos⟩
    rw [hxtotal, htotal, hs, List.take_left' (msb_length total)]

/-! ### The tree -/

theorem idxs_zero (n : Nat) : idxs 0 n = (List.range n).map (BitVec.ofNat 9) := by
  rw [idxs, List.range_eq_range']

/-- RDH completes on a header of distinct symbols, in the state `afterRdh`. -/
theorem exec_rdh_of_header {rest : BitStr} (he : s.err = 0) (hp : s.phase = .empty) (hc : Consistent s)
    (hs : s.src = msb total ++ t.header ++ rest) (hn : t.leaves.Nodup) :
    ∃ q, q.src = rest ∧ Made NIL ⟨t.header ++ rest, [], []⟩ 0 q t ∧
      exec .rdh s = .next (completed 0x6 (afterRdh s total q) (r1 := total)) := by
  rw [List.append_assoc] at hs
  obtain ⟨q, hsrc, hmade, hbody⟩ := rdhBody_header hc hp hs hn
  exact ⟨q, hsrc, hmade, by rw [rdh_runs he hp, hbody]; rfl⟩

/-- Settles O34: the parse has `Made` the tree from NODE[0] on, and `consistent_afterRdh` gives the invariants,
among them the zero weights of phase READ. -/
theorem readHeaderBuildsTree : Obligations.ReadHeaderBuildsTree := by
  intro s total t rest he hp hc hs hn
  obtain ⟨q, rfl, hmade, hexec⟩ := exec_rdh_of_header he hp hc hs hn
  obtain ⟨hcons, htree⟩ := consistent_afterRdh (total := total) hc hp hmade
  have hweights := (hcons.read rfl).2
  have hheld := hmade.held
  rw [List.length_nil, idxs_zero] at hheld
  exact ⟨afterRdh s total q, hexec, rfl, hcons, htree, hheld, hweights⟩

end Sys2Proof.Machine

end

/-! ENC of a present symbol (45_encoder.md R131). ENC of an absent symbol is `exec_enc_absent`. -/

section

namespace Sys2Proof.Machine

variable {s : State} {c : Sym}

/-- ENC of a present symbol completes: its code goes to the sink, and PPOS counts its bits (R130 to R132). -/
theorem exec_enc_present (he : s.err = 0) (hc : Consistent s) (h : symidxAt s.symidx c ≠ NIL) :
    ∃ code, LookedUp s [c] code ∧
      exec (.enc c) s = .next (completed 0x7
        (((s.withCode code).withSink (s.sink ++ codeOf s c)).withPpos (s.ppos + BitVec.ofNat 64 (codeOf s c).length))
        (len := (codeOf s c).length)) := by
  obtain ⟨-, -, hempty⟩ := derive_total hc c
  obtain ⟨code, hlooked, -, hbody⟩ := encBody_spec hc c
  rw [if_neg (mt hempty.1 h), putPayload_eq] at hbody
  refine ⟨code, hlooked, ?_⟩
  rw [exec_runs ⟨by simp, by simp⟩ he (by simp [PhaseForbids]), bodyOf, hbody, conclude_done]
  rfl

/-- Settles O42: a symbol of the held tree is present, and `codeOf` is its code in the tree. -/
theorem encodeWritesCode : Obligations.EncodeWritesCode := by
  intro s t c w he hc ht hw
  have hpresent : symidxAt s.symidx c ≠ NIL := (present_iff hc ht c).2 (CodeTree.mem_leaves_of_code hw)
  obtain ⟨-, hlen, -⟩ := derive_total hc c
  have henc := exec_enc_present he hc hpresent
  rw [codeOf_eq hc ht hw] at hlen henc
  exact ⟨List.length_pos_iff.2 (CodeTree.code_ne_nil hw), hlen, henc⟩

/-- Settles O43: the two cases are `exec_enc_absent` and `exec_enc_present`, and the latter leaves ERR at 0. -/
theorem encodeUnknownSymbol : Obligations.EncodeUnknownSymbol := by
  refine fun s c he hc => ⟨exec_enc_absent he hc, fun hpresent => ?_⟩
  obtain ⟨code, -, henc⟩ := exec_enc_present he hc hpresent
  exact ⟨_, henc, he⟩

end Sys2Proof.Machine

end

/-! DEC where the walk down the tree resolves a symbol (46_decoder.md R140), and the walk on a single leaf (R144). -/

section

namespace Sys2Proof.Machine

variable {s : State} {c : Sym}

/-- R144: on a leaf the walk takes one bit of either value and stays, so it resolves the leaf's symbol. -/
theorem treeWalk_leaf {total : Count} {b : Bool} {rest : BitStr} {p : Payload} (hs : p.src = b :: rest)
    (hlt : p.ppos < total) (n : Nat) : treeWalk total (.leaf c) n p = .symbol c (n + 1) ⟨p.ppos + 1, rest⟩ := by
  rw [treeWalk, payloadBit_cons hs hlt]

/-- DEC answers the symbol that the walk resolves, and the bits it took. -/
theorem exec_dec_of_treeWalk {t : CodeTree} {len : Nat} {q : Payload} (he : s.err = 0) (hc : Consistent s)
    (ht : TreeAt s t) (h : treeWalk s.total t 0 ⟨s.ppos, s.src⟩ = .symbol c len q) :
    exec .dec s = .next (completed 0x8 ((s.withPpos q.ppos).withSrc q.src) (len := len) (sym := c)) := by
  rw [dec_runs he hc ht, h, decoded, conclude_done]
  rfl

/-- Settles O46: `treeWalk_leaf` on the source's first bit, whatever it is. -/
theorem decodeSingleLeaf : Obligations.DecodeSingleLeaf :=
  fun _ _ _ _ he hc ht hs hlt => exec_dec_of_treeWalk he hc ht (treeWalk_leaf hs hlt 0)

end Sys2Proof.Machine

end

/-! Which code a word leaves in ERR (60_exceptions.md R160, R165, R167): the fault state keeps the code it has,
and from ERR = 0 `ExecErr` says once what each command can end with. -/

section

namespace Sys2Proof.Machine

variable {s t : State} {w : CmdWord} {rest : List CmdWord} {i : Instr} {k : FaultKind} {e : Reject}

/-! ### The fault state -/

/-- The response of R167, field by field. -/
theorem refuse_eq (opc : Opc) (s : State) : refuse opc s = answer ⟨s.err ++ opc ++ 0#56, 0, 0⟩ s := by
  rw [refuse, faultResponse_eq]

/-- In the fault state a word is refused, whether it stands for no command or for a dispatched one. -/
theorem step_refused (he : s.err ≠ 0) (hc : s.cmds = w :: rest) (hi : ∀ i, decode w = .ok i → Dispatched i) :
    step s = .next (refuse (opcField w) (s.withCmds rest)) := by
  have he' : (s.withCmds rest).err ≠ 0 := he
  rcases decode_cases w with ⟨e, hd⟩ | ⟨i, hd⟩
  · rw [step_illegal hc hd, illegalCommand_refused he']
  · rw [step_legal hc hd, exec_refused (hi i hd) he', opcode_of_decode hd]

/-- Settles O9: every word but CLR and RDR stands for no command or for a dispatched one. -/
theorem refusedInFaultState : Obligations.RefusedInFaultState := by
  intro s w rest he hc hclr hrdr
  have hi : ∀ i, decode w = .ok i → Dispatched i := fun i hd =>
    ⟨fun h => hclr (h ▸ hd), fun n h => hrdr n (h ▸ hd)⟩
  rw [step_refused he hc hi, refuse_eq]
  rfl

/-! ### From ERR = 0 -/

/-- A word that stands for no command raises IllegalCommand (R165). -/
theorem step_illegal_faulted (he : s.err = 0) (hc : s.cmds = w :: rest) (hd : decode w = .error e) :
    step s = .next (faulted 5 (opcField w) (s.withCmds rest)) := by
  have he' : (s.withCmds rest).err = 0 := he
  rw [step_illegal hc hd, illegalCommand_ok he']

/-- CLR and RDR are legal in every phase (R17). -/
theorem dispatched_of_phaseForbids (h : PhaseForbids i s) : Dispatched i := by
  by_contra hi
  obtain rfl | ⟨n, rfl⟩ := not_dispatched_iff.1 hi
  · exact h
  · exact h

/-- The codes that a command run from ERR = 0 can leave in ERR. -/
inductive ExecErr (i : Instr) (s : State) : BitVec 4 → Prop where
  | none : ExecErr i s 0
  | unassigned (wf : i.wellFormed ≠ true) : ExecErr i s 5
  | forbidden (phase : PhaseForbids i s) : ExecErr i s 6
  | raised (k : FaultKind) (mem : k ∈ raises i) : ExecErr i s k.code

theorem exec_err (he : s.err = 0) (h : exec i s = .next t) : ExecErr i s t.err := by
  cases answers h with
  | cleared is => exact .none
  | read is reg => rw [respond_err, he]; exact .none
  | unassigned is reg =>
    rw [illegalCommand_ok he, faulted_err]
    exact .unassigned fun hwf => not_unassigned (is ▸ hwf) reg
  | refused is err => exact absurd he err
  | forbidden is err phase => exact .forbidden phase
  | @done r u is err phase body =>
    have hu : u.err = s.err := (bodyOf_quiet is (.inl ⟨r, body⟩)).err
    rw [respond_err, hu, he]
    exact .none
  | @raised k u is err phase body =>
    have hu : u.err = s.err := (bodyOf_quiet is (.inr ⟨k, body⟩)).err
    rw [takeFault_err, if_pos (hu.trans he)]
    exact .raised k (bodyOf_raises body)

/-- No pseudocode raises IllegalCommand or IllegalSequence: the dispatch does (R80 steps 2 and 3). -/
theorem code_ne_of_mem_raises (h : k ∈ raises i) : k.code ≠ 5 ∧ k.code ≠ 6 := by
  cases i with
  | clr | ldf _ _ | build | getc _ | wrh | rdr _ => cases h
  | enc c =>
    obtain rfl := List.mem_singleton.1 h
    decide
  | rdh | dec | decm =>
    obtain rfl | rfl := List.mem_pair.1 h
    · decide
    · decide

theorem ExecErr.ne_illegalCommand {c : BitVec 4} (hwf : i.wellFormed = true) (h : ExecErr i s c) : c ≠ 5 := by
  cases h with
  | none => decide
  | unassigned wf => exact absurd hwf wf
  | forbidden phase => decide
  | raised k mem => exact (code_ne_of_mem_raises mem).1

theorem ExecErr.ne_illegalSequence {c : BitVec 4} (hp : ¬ PhaseForbids i s) (h : ExecErr i s c) : c ≠ 6 := by
  cases h with
  | none => decide
  | unassigned wf => decide
  | forbidden phase => exact absurd phase hp
  | raised k mem => exact (code_ne_of_mem_raises mem).2

theorem step_err_eq_illegalCommand_iff (he : s.err = 0) (hc : s.cmds = w :: rest) (h : step s = .next t) :
    t.err = 5 ↔ ∃ e, decode w = .error e := by
  rcases decode_cases w with ⟨e, hd⟩ | ⟨i, hd⟩
  · rw [step_illegal_faulted he hc hd] at h
    cases h
    exact iff_of_true rfl ⟨e, hd⟩
  · rw [step_legal hc hd] at h
    have he' : (s.withCmds rest).err = 0 := he
    have hne : t.err ≠ 5 := (exec_err he' h).ne_illegalCommand (wf_of_decode hd)
    exact iff_of_false hne (by simp [hd])

/-- Settles O11: the codes of `ExecErr`, with the phase table and the kinds that `raises` lists for each command. -/
theorem faultCodesByCommand : Obligations.FaultCodesByCommand := by
  refine ⟨fun i s t hwf he h => ?_, fun s t w rest he hc h => step_err_eq_illegalCommand_iff he hc h⟩
  have herr : ExecErr i s t.err := exec_err he h
  generalize t.err = c at herr ⊢
  cases herr with
  | none =>
    cases i with
    | clr | getc _ | rdr _ => rfl
    | ldf _ _ | build | wrh | rdh | enc _ | dec | decm => exact .inl rfl
  | unassigned wf => exact absurd hwf wf
  | forbidden phase =>
    cases i with
    | clr | getc _ | enc _ | rdr _ => exact phase.elim
    | ldf _ _ | build | wrh => exact .inr rfl
    | rdh | dec | decm => exact .inr (.inr (.inr rfl))
  | raised k mem =>
    cases i with
    | clr | ldf _ _ | build | getc _ | wrh | rdr _ => cases mem
    | enc _ =>
      obtain rfl := List.mem_singleton.1 mem
      exact .inr rfl
    | rdh | dec | decm =>
      obtain rfl | rfl := List.mem_pair.1 mem
      · exact .inr (.inl rfl)
      · exact .inr (.inr (.inl rfl))

/-- Settles O13: the dispatch raises IllegalSequence where the phase forbids the command, and `ExecErr` has
code 6 nowhere else. -/
theorem phaseTableDecidesIllegalSequence : Obligations.PhaseTableDecidesIllegalSequence :=
  ⟨fun _ _ he => ⟨fun hp => exec_forbidden (dispatched_of_phaseForbids hp) he hp,
      fun hp _ h => (exec_err he h).ne_illegalSequence hp⟩,
    fun _ _ _ _ he hc hd => step_illegal_faulted he hc hd⟩

end Sys2Proof.Machine

end

/-! A command's one word (30_encoding.md R60 to R65), and the step that executes it (40_control.md R80). -/

section

namespace Sys2Proof.Machine

variable {s t : State} {w : CmdWord} {i : Instr}

/-! ### The word of a command -/

/-- The word of a well-formed command has the fields `decode_eq_ok_iff` asks for. -/
theorem decode_encode (hwf : i.wellFormed = true) : decode (encode i) = .ok i :=
  decode_eq_ok_iff.2 ⟨hwf, opcField_assemble .., rsvField_assemble .., symField_assemble .., immField_assemble ..⟩

/-- The decoder fixes all four fields of the word, and they make up the word. -/
theorem encode_of_decode (h : decode w = .ok i) : encode i = w := by
  obtain ⟨-, hopc, hrsv, hsym, himm⟩ := decode_eq_ok_iff.1 h
  rw [encode, ← hopc, ← hsym, ← himm, ← hrsv, assemble_fields]

/-- Settles O1, by `decode_encode`. -/
theorem decodeInvertsEncode : Obligations.DecodeInvertsEncode := fun _ => decode_encode

/-- Settles O2: a decoded word is well-formed, and `encode_of_decode` gives it back. -/
theorem encodeInvertsDecode : Obligations.EncodeInvertsDecode :=
  fun _ _ h => ⟨wf_of_decode h, encode_of_decode h⟩

/-- Settles O5, by running the decoder on each word of R68. -/
theorem specWordsDecode : Obligations.SpecWordsDecode := by
  unfold Obligations.SpecWordsDecode
  decide

/-! ### The step that executes it -/

/-- A word of the host's instruction table is 64 bits long, so nothing of it is cut off (R65). -/
theorem tableWord_toNat (w : CmdWord) : tableWord 64 w.toNat = w := by
  rw [tableWord, Nat.mod_eq_of_lt w.isLt, BitVec.ofNat_toNat, BitVec.setWidth_eq]

/-- Settles O6: the second clause is the first, with the command's own word in front. -/
theorem stepRunsDecodedCommand : Obligations.StepRunsDecodedCommand := by
  refine ⟨fun s w rest i hc hd => step_legal hc hd, fun s i hwf => ?_⟩
  rw [State.withFetchWord, tableWord_toNat, step_legal (placeWord_cmds s (encode i)) (decode_encode hwf)]
  rfl

/-- Settles O7, by `step_idle`. -/
theorem idleStepKeepsState : Obligations.IdleStepKeepsState := fun _ => step_idle

/-- How a step can answer: idle, with an illegal word, or as the command of a legal one does (R80, R179). -/
inductive Stepped (s : State) : State → Prop where
  | idle (cmds : s.cmds = []) : Stepped s s
  | illegal {w : CmdWord} {rest : List CmdWord} (cmds : s.cmds = w :: rest) :
      Stepped s (illegalCommand (opcField w) (s.withCmds rest))
  | legal {w : CmdWord} {rest : List CmdWord} {i : Instr} {t : State} (cmds : s.cmds = w :: rest)
      (word : decode w = .ok i) (runs : exec i (s.withCmds rest) = .next t) : Stepped s t

theorem stepped (h : step s = .next t) : Stepped s t := by
  cases hcmds : s.cmds with
  | nil =>
    rw [step_idle hcmds] at h
    cases h
    exact .idle hcmds
  | cons w rest =>
    rcases decode_cases w with ⟨e, hd⟩ | ⟨i, hd⟩
    · rw [step_illegal hcmds hd] at h
      cases h
      exact .illegal hcmds
    · rw [step_legal hcmds hd] at h
      exact .legal hcmds hd h

/-! ### What an illegal word leaves alone -/

/-- IllegalCommand, taken or refused, writes ERR and the response only. -/
theorem ended_illegalCommand (opc : Opc) (s : State) : Ended s (illegalCommand opc s) := by
  by_cases he : s.err = 0
  · rw [illegalCommand_ok he]
    exact ended_faulted _ _ he
  · rw [illegalCommand_refused he]
    exact ended_refuse _ _

/-! ### The invariants between commands -/

/-- R28 at reset: phase EMPTY, with nothing allocated and nothing counted. -/
theorem inv_reset : Inv State.reset :=
  ⟨rfl, rfl, fun _ => empty_consistent rfl rfl rfl rfl rfl rfl rfl rfl⟩

/-- An illegal word leaves a code in ERR, so nothing is asked of R28. -/
theorem inv_illegalCommand (h : Inv s) (opc : Opc) : Inv (illegalCommand opc s) := by
  by_cases he : s.err = 0
  · rw [illegalCommand_ok he]
    exact ⟨h.tables, rfl, fun h0 => absurd h0 (by rw [faulted_err]; decide)⟩
  · rw [illegalCommand_refused he]
    exact ⟨h.tables, h.code, fun h0 => absurd h0 he⟩

/-- A command answers from every state with the invariants, and keeps them. -/
theorem inv_exec (h : Inv s) (i : Instr) : ∃ t, exec i s = .next t ∧ Inv t := by
  obtain ⟨t, hrun, hbetween⟩ := exec_sound i h.between
  exact ⟨t, hrun, exec_wf i hrun h.tables, exec_legal hrun h.code, hbetween⟩

/-- Settles O53, by `inv_reset`. -/
theorem resetMeetsInvariants : Obligations.ResetMeetsInvariants := inv_reset

/-- Settles O54, along the three ways a step can answer. -/
theorem stepKeepsInvariants : Obligations.StepKeepsInvariants := by
  intro s t hs h
  cases stepped h with
  | idle => exact hs
  | illegal => exact inv_illegalCommand (cmds_inv hs _) _
  | @legal _ rest i _ _ _ runs =>
    obtain ⟨u, hrun, hu⟩ := inv_exec (cmds_inv hs rest) i
    rw [runs] at hrun
    cases hrun
    exact hu

/-- Settles O55: an idle step and an illegal word always answer, and a command does by `inv_exec`. -/
theorem everyStepAnswers : Obligations.EveryStepAnswers := by
  intro s hs
  cases hcmds : s.cmds with
  | nil => exact ⟨s, step_idle hcmds⟩
  | cons w rest =>
    rcases decode_cases w with ⟨e, hd⟩ | ⟨i, hd⟩
    · exact ⟨_, step_illegal hcmds hd⟩
    · obtain ⟨t, hrun, -⟩ := inv_exec (cmds_inv hs rest) i
      exact ⟨t, (step_legal hcmds hd).trans hrun⟩

/-! ### The sticky code -/

/-- In the fault state only CLR writes ERR (R167, R170). -/
theorem exec_err_sticky (hwf : i.wellFormed = true) (he : s.err ≠ 0) (h : exec i s = .next t) :
    t.err = s.err ∨ (t.err = 0 ∧ i = .clr) := by
  rcases ended_cases h hwf with ⟨hi, rfl⟩ | ⟨r, -, -, herr⟩ | ⟨-, hend, -⟩ | ⟨-, h0, -⟩
  · exact .inr ⟨rfl, hi⟩
  · exact .inl herr
  · exact .inl (hend.sticky he)
  · exact absurd h0 he

/-- Settles O12: an illegal word is refused, and a command is `exec_err_sticky`. -/
theorem errKeepsFirstCode : Obligations.ErrKeepsFirstCode := by
  intro s t he h
  cases stepped h with
  | idle => exact .inl rfl
  | illegal => exact .inl ((ended_illegalCommand _ _).sticky he)
  | @legal w rest i _ hcmds hd runs =>
    have he' : (s.withCmds rest).err ≠ 0 := he
    rcases exec_err_sticky (wf_of_decode hd) he' runs with herr | ⟨h0, rfl⟩
    · exact .inl herr
    · exact .inr ⟨h0, w, rest, hcmds, hd⟩

/-! ### The streams -/

/-- Settles O58: only a command moves a stream, and `exec_streams` says how. -/
theorem streamsAreSequential : Obligations.StreamsAreSequential := by
  intro s t h
  cases stepped h with
  | idle => exact ⟨⟨[], rfl⟩, [], (List.append_nil _).symm⟩
  | illegal =>
    obtain ⟨-, -, -, -, -, -, -, -, -, hsrc, hsink, -⟩ := (ended_illegalCommand _ _).fields
    rw [hsrc, hsink]
    exact ⟨⟨[], rfl⟩, [], (List.append_nil _).symm⟩
  | @legal _ rest _ _ _ _ runs => exact exec_streams (s := s.withCmds rest) runs

end Sys2Proof.Machine

end

/-! What a command writes, whichever way it ends (10_state.md R29): its pseudocode's own writes, then ERR and the
one response. -/

section

namespace Sys2Proof.Machine

variable {s t u : State} {i : Instr}

/-! ### The write sets -/

/-- The end of a command as a state written out, so that each field of it computes. -/
theorem Ended.eq_answer (h : Ended u t) : ∃ e r, t = answer r (u.withErr e) := by
  obtain ⟨r, hr⟩ := h.one
  exact ⟨t.err, r, h.same.trans (by rw [hr]; rfl)⟩

/-- A command that the fault state or the phase table turns away writes ERR, from 0, and its response. -/
theorem writesOnly_turnedAway (hi : Dispatched i) (hend : Ended s t) (herr : t.err = s.err ∨ PhaseForbids i s) :
    WritesOnly i s t := by
  have hsticky := hend.sticky
  obtain ⟨e, r, rfl⟩ := hend.eq_answer
  cases i with
  | clr => exact absurd rfl hi.1
  | rdr n => exact absurd rfl (hi.2 n)
  | getc c => simpa [WritesOnly, PhaseForbids] using herr
  | ldf c n | build | wrh | rdh | enc c | dec | decm => simpa [WritesOnly] using hsticky

/-- A command that runs writes what its pseudocode does (the `_writes` lemmas), and ERR if that raises. -/
theorem writesOnly_ran (hi : Dispatched i) (he : s.err = 0) (hbody : (bodyOf i s).In u) (hend : Ended u t)
    (herr : t.err = s.err ∨ raises i ≠ []) : WritesOnly i s t := by
  obtain ⟨e, r, rfl⟩ := hend.eq_answer
  cases i with
  | clr => exact absurd rfl hi.1
  | rdr n => exact absurd rfl (hi.2 n)
  | ldf c n =>
    rw [ldf_writes hbody]
    simp +contextual [WritesOnly, he, eq_comm (a := c)]
  | build =>
    rw [build_writes hbody]
    simp [WritesOnly, he]
  | getc c =>
    obtain ⟨hu, hlooked⟩ := getc_writes hbody
    rw [hu] at herr ⊢
    simpa [WritesOnly, raises, hlooked] using herr
  | wrh =>
    obtain ⟨bits, hu, hlooked⟩ := wrh_writes hbody
    rw [hu]
    simp [WritesOnly, he, hlooked]
  | rdh =>
    obtain ⟨-, -, hu⟩ := rdh_writes hbody
    rw [hu]
    simp [WritesOnly, he]
  | enc c =>
    obtain ⟨w, hu, hlooked⟩ := enc_writes hbody
    rw [hu]
    simp [WritesOnly, he, hlooked]
  | dec =>
    obtain ⟨hu, -⟩ := dec_writes hbody
    rw [hu]
    simp [WritesOnly, he]
  | decm =>
    obtain ⟨hu, hlooked, -⟩ := decm_writes hbody
    rw [hu]
    simp [WritesOnly, he, hlooked]

theorem exec_writesOnly (hwf : i.wellFormed = true) (h : exec i s = .next t) : WritesOnly i s t := by
  rcases ended_cases h hwf with ⟨rfl, rfl⟩ | ⟨n, rfl, hend, herr⟩ | ⟨hi, hend, herr⟩ |
    ⟨hi, he, u, hend, -, hbody, herr⟩
  · exact ⟨rfl, ⟨_, rfl⟩, (sameCore_reset_clearCore s).respond _ _, rfl, rfl⟩
  · obtain ⟨e, r, rfl⟩ := hend.eq_answer
    simpa [WritesOnly] using herr
  · exact writesOnly_turnedAway hi hend (herr.imp_right And.right)
  · exact writesOnly_ran hi he hbody hend herr

/-- Settles O56, by `exec_writesOnly`. -/
theorem commandsWriteOnlyTheirSets : Obligations.CommandsWriteOnlyTheirSets := fun _ _ _ => exec_writesOnly

/-! ### Fault entry -/

/-- A command that ends in a fault from ERR = 0 was forbidden by the phase or raised one of its kinds: either way
its response is that of R166. -/
theorem exec_fault_response (hwf : i.wellFormed = true) (he : s.err = 0) (h : exec i s = .next t)
    (hfault : t.err ≠ 0) : t.resps = s.resps ++ [faultResponse t.err i.opcode] := by
  cases answers h with
  | cleared is => exact absurd rfl hfault
  | read is reg => exact absurd he hfault
  | unassigned is reg => exact absurd reg (not_unassigned (is ▸ hwf))
  | refused is err => exact absurd he err
  | forbidden is err phase => rw [faulted_resps, faulted_err]
  | @done r u is err phase body =>
    have hu : u.err = s.err := (bodyOf_quiet is (.inl ⟨r, body⟩)).err
    exact absurd (hu.trans he) hfault
  | @raised k u is err phase body =>
    have hu : Quiet s u := bodyOf_quiet is (.inr ⟨k, body⟩)
    rw [takeFault_eq (hu.err.trans he), faulted_resps, faulted_err, hu.resps]

/-- Settles O10: the response of `exec_fault_response`, a legal code by `exec_legal`, the write set by
`exec_writesOnly`. -/
theorem faultEntryWritesErrAndResponse : Obligations.FaultEntryWritesErrAndResponse := by
  intro i s t hwf he h hfault
  refine ⟨?_, exec_legal h (by rw [he]; rfl), exec_writesOnly hwf h⟩
  rw [exec_fault_response hwf he h hfault, faultResponse_eq]

/-! ### LDF -/

/-- Settles O16: in phase EMPTY the pseudocode is one `setFreq`; elsewhere the phase table forbids LDF. -/
theorem loadFrequencyReplacesOneEntry : Obligations.LoadFrequencyReplacesOneEntry := by
  intro s c n he
  have hi : Dispatched (.ldf c n) := ⟨by simp, by simp⟩
  refine ⟨fun hp => ⟨setFreq s.freq c n, ?_, fun d => ?_⟩, fun hp => exec_forbidden hi he hp⟩
  · rw [exec_runs hi he fun hforbids => hforbids hp]
    rfl
  · rw [freqAt_setFreq]
    simp only [eq_comm (a := c)]

/-! ### PPOS within TOTAL -/

/-- Settles O57: what turns a command away leaves PPOS and TOTAL alone, and `body_ppos` is about the rest. -/
theorem pposStaysWithinTotal : Obligations.PposStaysWithinTotal := by
  intro i s t hne hle h
  cases answers h with
  | cleared is => exact BitVec.le_refl 0#64
  | read is reg => exact hle
  | unassigned is reg =>
    obtain ⟨-, -, -, -, -, -, -, htotal, hppos, -⟩ := (ended_illegalCommand 0xA s).fields
    rw [htotal, hppos]
    exact hle
  | refused is err => exact hle
  | forbidden is err phase => exact hle
  | @done r u is err phase body => exact body_ppos is hne (u := u) (.inl ⟨r, body⟩) hle
  | @raised k u is err phase body =>
    rw [takeFault_ppos, takeFault_total]
    exact body_ppos is hne (.inr ⟨_, body⟩) hle

/-! ### The work on the streams -/

/-- The tree field of a held tree is at most 2559 bits: ten for each of 256 leaves, less one (R72). -/
theorem TreeAt.header_length_le {τ : CodeTree} (h : TreeAt s τ) (hc : Consistent s) : τ.header.length ≤ 2559 := by
  have hheader := τ.header_length
  have hleaves := h.leaves_le hc.arena
  omega

/-- ENC appends one code. -/
theorem encBody_work {c : Sym} (hc : Consistent s) (h : (encBody c s).In u) :
    u.sink.length ≤ s.sink.length + 255 := by
  obtain ⟨-, hlen, -⟩ := derive_total hc c
  obtain ⟨code, -, -, hbody⟩ := encBody_spec hc c
  rw [hbody] at h
  split at h
  · rw [in_raised.1 h]
    exact Nat.le_add_right _ _
  · rw [in_done.1 h, putPayload_eq, withPpos_sink, withSink_sink, List.length_append]
    exact Nat.add_le_add_left hlen _

/-- WRH appends 64 count bits and the tree field. -/
theorem wrhBody_work (hc : Consistent s) (hp : ¬ PhaseForbids .wrh s) (h : (wrhBody s).In u) :
    u.sink.length ≤ s.sink.length + 2623 := by
  obtain ⟨hb, hr⟩ : s.phase = .built ∧ s.root ≠ NIL := by simpa [PhaseForbids] using hp
  obtain ⟨τ, ht⟩ := hc.tree hr
  obtain ⟨code, hbody, -⟩ := wrhBody_spec hc hb ht
  have hheader := ht.header_length_le hc
  rw [hbody] at h
  rw [in_done.1 h, afterWrh_eq, withSink_sink, List.length_append, List.length_append, msb_length]
  omega

theorem Consumed.length_le {w : BitStr} (h : Consumed s u w) : s.src.length ≤ u.src.length + 255 := by
  have hbound := h.bound
  rw [h.src, List.length_append]
  omega

/-- A command that is turned away moves no stream, so the sink grows by no more than its pseudocode's bits. -/
theorem exec_sink_length_le {n : Nat} (hi : Dispatched i) (h : exec i s = .next t)
    (hbound : ∀ u, (bodyOf i s).In u → ¬ PhaseForbids i s → u.sink.length ≤ s.sink.length + n) :
    t.sink.length ≤ s.sink.length + n := by
  obtain ⟨hsink, -⟩ | ⟨u, hbody, hsink, -, hp⟩ := exec_work hi h
  · rw [hsink]
    exact Nat.le_add_right _ _
  · rw [hsink]
    exact hbound u hbody hp

theorem exec_src_length_le {n : Nat} (hi : Dispatched i) (h : exec i s = .next t)
    (hbound : ∀ u, (bodyOf i s).In u → ¬ PhaseForbids i s → s.src.length ≤ u.src.length + n) :
    s.src.length ≤ t.src.length + n := by
  obtain ⟨-, hsrc⟩ | ⟨u, hbody, -, hsrc, hp⟩ := exec_work hi h
  · rw [hsrc]
    exact Nat.le_add_right _ _
  · rw [hsrc]
    exact hbound u hbody hp

/-- Settles O59: each pseudocode has its own bound. -/
theorem streamWorkIsBounded : Obligations.StreamWorkIsBounded := by
  refine fun s hc => ⟨fun c t h => ?_, fun t h => ?_, fun t h => ?_, fun t h => ?_, fun t h => ?_⟩
  · exact exec_sink_length_le ⟨by simp, by simp⟩ h fun u hbody _ => encBody_work hc hbody
  · exact exec_sink_length_le ⟨by simp, by simp⟩ h fun u hbody hp => wrhBody_work hc hp hbody
  · exact exec_src_length_le ⟨by simp, by simp⟩ h fun u hbody hp => rdhBody_work (not_not.1 hp) hc hbody
  · refine exec_src_length_le ⟨by simp, by simp⟩ h fun u hbody _ => ?_
    obtain ⟨-, w, hw⟩ := dec_writes hbody
    exact hw.length_le
  · refine exec_src_length_le ⟨by simp, by simp⟩ h fun u hbody _ => ?_
    obtain ⟨-, -, w, hw⟩ := decm_writes hbody
    exact hw.length_le

end Sys2Proof.Machine

end

/-! BUILD (41_tree_builder.md R90 to R96): the state of `BuiltFrom`, the weights below each node, the queue's order,
and that nothing but FREQ decides what is built. -/

section

namespace Sys2Proof.Machine

variable {s t u : State} {i : Idx} {n : Node}

/-- Settles O18: the state of `build_next` and its `BuiltFrom`. -/
theorem buildCompletes : Obligations.BuildCompletes := by
  intro s he hp hc
  obtain ⟨t, hexec, hb⟩ := build_next he hp hc
  exact ⟨t, hexec, hb.same, hb.consistent, hb.present_iff⟩

/-- Settles O21: the merge clause of `BuiltFrom`. -/
theorem buildMergesLeastTwo : Obligations.BuildMergesLeastTwo := by
  intro s he hp hc
  obtain ⟨t, hexec, hb⟩ := build_next he hp hc
  exact ⟨_, hexec, hb.merged⟩

/-! ### Weights (R94) -/

theorem BuiltFrom.freq_eq (hb : BuiltFrom s t) : t.freq = s.freq := by rw [hb.same]; rfl

/-- Every entry of a consistent arena is the top of a subtree. -/
theorem Consistent.subtree (hc : Consistent s) (hn : nodeAt s.node i = some n) :
    ∃ p τ is, Holds s.node p i τ is ∧ is.Nodup := by
  have hr : s.root ≠ NIL := fun hr => by
    rw [hc.rooted.1 hr, nodeAt_nil] at hn
    cases hn
  obtain ⟨τ, is, hheld, hnodup, hlen⟩ := hc.tree hr
  exact hheld.at_entry hnodup (mem_of_covering hnodup hlen (fun _ => hheld.at_mem) hn)

/-- The leaves of a built tree are the symbols of nonzero frequency, each once. -/
theorem BuiltFrom.leaves_perm (hb : BuiltFrom s t) {τ : CodeTree} (ht : TreeAt t τ) :
    τ.leaves.Perm (presentSyms s.freq) := by
  have hperm := ht.leaves_perm hb.consistent
  simp only [hb.present_iff] at hperm
  exact hperm

/-- A node of a built tree weighs the frequencies below it, by `Holds.weight_sum`. -/
theorem BuiltFrom.node_weight (hb : BuiltFrom s t) (hn : nodeAt t.node i = some n) :
    ∃ p τ is, Holds t.node p i τ is ∧ n.weight.toNat = (τ.leaves.map fun c => (freqAt s.freq c).toNat).sum ∧
      n.weight.toNat ≤ 256 * (2 ^ 32 - 1) ∧ n.weight ≠ 0 := by
  obtain ⟨p, τ, is, hheld, hnodup⟩ := hb.consistent.subtree hn
  obtain ⟨hsum, hpos⟩ := hheld.weight_sum hb.consistent hb.phase_eq hnodup hn
  rw [hb.freq_eq] at hsum
  have hbound := freq_sum_le s.freq (hheld.symbols_nodup hb.consistent hnodup)
  refine ⟨p, τ, is, hheld, hsum, hsum ▸ hbound, fun h0 => ?_⟩
  rw [h0] at hpos
  exact absurd hpos (by decide)

/-- The root weighs all frequencies: those of absent symbols are 0. -/
theorem BuiltFrom.root_weight (hb : BuiltFrom s t) (hr : t.root ≠ NIL) :
    ∃ n, nodeAt t.node t.root = some n ∧
      n.weight.toNat = (allSyms.map fun c => (freqAt s.freq c).toNat).sum := by
  obtain ⟨τ, ht⟩ := hb.consistent.tree hr
  have hperm := hb.leaves_perm ht
  obtain ⟨is, hheld, hnodup, -⟩ := ht
  obtain ⟨n, -, hn, -⟩ := hheld.root
  refine ⟨n, hn, ?_⟩
  calc n.weight.toNat
      = (τ.leaves.map fun c => (freqAt s.freq c).toNat).sum := by
        rw [← hb.freq_eq]
        exact (hheld.weight_sum hb.consistent hb.phase_eq hnodup hn).1
    _ = ((presentSyms s.freq).map fun c => (freqAt s.freq c).toNat).sum := (hperm.map _).sum_eq
    _ = (allSyms.map fun c => (freqAt s.freq c).toNat).sum := sum_presentSyms s.freq allSyms

/-- Settles O22, node by node and at the root. -/
theorem buildWeightsAreSums : Obligations.BuildWeightsAreSums := by
  intro s he hp hc
  obtain ⟨t, hexec, hb⟩ := build_next he hp hc
  exact ⟨_, hexec, fun _ _ hn => hb.node_weight hn, hb.root_weight⟩

/-! ### The queue (R92) -/

/-- Settles O23: no other element comes before the one removed, which in numbers is the stated order. -/
theorem extractMinTakesLeast : Obligations.ExtractMinTakesLeast := by
  refine ⟨fun _ => extractMin_none, fun pq m rest h => ?_⟩
  obtain ⟨hperm, hleast⟩ := extractMin_some h
  refine ⟨hperm, fun e he => ?_⟩
  have hnot := mt (Queued.before_iff e m).2 (hleast e he)
  omega

/-! ### BUILD as a function of FREQ (R96) -/

/-- What BUILD writes, as the pseudocode of R90 computes it. -/
theorem buildTree_done {r : Reply} (h : buildTree s = .done r t) :
    let b := addLeaves s.freq ⟨s.node, s.symidx, []⟩
    let m := mergeAll b.pq.length b.node b.pq
    t.node = m.1 ∧ t.symidx = b.symidx ∧ t.root = m.2 := by
  unfold buildTree at h
  split at h
  · cases h
  · cases h
    simp

/-- In phase EMPTY the command ends where its pseudocode does. -/
theorem exec_build_of_done {r : Reply} (he : s.err = 0) (hp : s.phase = .empty) (h : buildTree s = .done r t) :
    exec .build s = .next (respond 0x3 r t) := by
  rw [exec_runs ⟨by simp, by simp⟩ he (by simp [PhaseForbids, hp]), bodyOf, h, conclude_done]
  rfl

/-- FREQ is read entry by entry. -/
theorem addLeaves_congr {f g : Table Freq} (h : ∀ c, freqAt f c = freqAt g c) : addLeaves f = addLeaves g := by
  have hleaf : addLeaf f = addLeaf g := by
    funext b c
    simp only [addLeaf, h]
  funext b
  rw [addLeaves, addLeaves, hleaf]

/-- Settles O24: both arenas start empty, so both runs of the pseudocode have the same arguments. -/
theorem buildIsFunctionOfFreq : Obligations.BuildIsFunctionOfFreq := by
  intro s u hse hsp hsc hue hup huc hfreq
  obtain ⟨hsnode, -, hssymidx, -⟩ := hsc.fresh hsp
  obtain ⟨hunode, -, husymidx, -⟩ := huc.fresh hup
  obtain ⟨x, hx, -⟩ := buildTree_spec hsc hsp
  obtain ⟨y, hy, -⟩ := buildTree_spec huc hup
  have hxtree := buildTree_done hx
  have hytree := buildTree_done hy
  rw [hsnode, hssymidx, addLeaves_congr hfreq] at hxtree
  rw [hunode, husymidx] at hytree
  obtain ⟨hxnode, hxsymidx, hxroot⟩ := hxtree
  obtain ⟨hynode, hysymidx, hyroot⟩ := hytree
  exact ⟨_, _, exec_build_of_done hse hsp hx, exec_build_of_done hue hup hy, hxnode.trans hynode.symm,
    hxsymidx.trans hysymidx.symm, hxroot.trans hyroot.symm⟩

end Sys2Proof.Machine

end

/-! The codes of a held tree (42_code_deriver.md R102 to R104): `derive` answers them, so what holds of the codes of
a `CodeTree` holds of the present symbols. -/

section

namespace Sys2Proof

namespace CodeTree

variable {t : CodeTree} {c d : Sym} {v w b : BitStr}

theorem two_le_leaves_fork (l r : CodeTree) : 2 ≤ (fork l r).leaves.length := by
  have hl := l.leaves_pos
  have hr := r.leaves_pos
  rw [leaves, List.length_append]
  omega

/-- Completeness (R103): of two or more leaves, one lies on every path that is long enough. -/
theorem exists_code_prefix (h2 : 2 ≤ t.leaves.length) (hb : t.depth ≤ b.length) :
    ∃ c w, (c, w) ∈ t.codes ∧ w <+: b := by
  cases t with
  | leaf c => exact absurd h2 (by simp [leaves])
  | fork l r => exact exists_path_prefix (fork l r) b hb

/-- Two codes that a string starts with are one: the longer starts with the shorter. -/
theorem eq_of_code_prefixes (hv : (c, v) ∈ t.codes) (hw : (d, w) ∈ t.codes) (hvb : v <+: b) (hwb : w <+: b) :
    c = d := by
  rcases List.prefix_or_prefix_of_prefix hvb hwb with h | h
  · exact (code_prefix_eq hv hw h).1
  · exact (code_prefix_eq hw hv h).1.symm

/-- A tree of one leaf is that leaf, with the code `<0>`. -/
theorem code_of_single_leaf (h1 : t.leaves.length = 1) (hw : (c, w) ∈ t.codes) : w = [false] := by
  cases t with
  | leaf d => exact (Prod.mk.inj (List.mem_singleton.1 hw)).2
  | fork l r => exact absurd (two_le_leaves_fork l r) (by rw [h1]; decide)

end CodeTree

namespace Machine

variable {s : State} {t : CodeTree} {c : Sym} {w : BitStr}

theorem TreeAt.code_length_le (ht : TreeAt s t) (hc : Consistent s) (hw : (c, w) ∈ t.codes) : w.length ≤ 255 :=
  (CodeTree.code_length_le hw).trans (max_le (by decide) (ht.depth_le hc.arena))

/-- The present symbols are those with a code. -/
theorem present_iff_code (hc : Consistent s) (ht : TreeAt s t) (c : Sym) :
    symidxAt s.symidx c ≠ NIL ↔ ∃ w, (c, w) ∈ t.codes :=
  (present_iff hc ht c).trans ⟨CodeTree.code_of_mem_leaves, fun ⟨_, hw⟩ => CodeTree.mem_leaves_of_code hw⟩

/-- Settles O27: the path is `derive_code`, the other two clauses say who has one. -/
theorem deriveReturnsPath : Obligations.DeriveReturnsPath :=
  fun _ hc => ⟨fun _ _ _ ht hw => ⟨derive_code hc ht hw, ht.code_length_le hc hw⟩,
    fun _ c ht => present_iff_code hc ht c, fun _ => derive_absent⟩

/-- Settles O41: a symbol of the tree has its code there as its derived string, any other the empty string. -/
theorem codesAgreeOnEqualTrees : Obligations.CodesAgreeOnEqualTrees := by
  intro a b t ha hb hta htb c
  by_cases hcode : ∃ w, (c, w) ∈ t.codes
  · obtain ⟨w, hw⟩ := hcode
    rw [derive_code ha hta hw, derive_code hb htb hw]
  · rw [derive_absent (not_not.1 (mt (present_iff_code ha hta c).1 hcode)),
      derive_absent (not_not.1 (mt (present_iff_code hb htb c).1 hcode))]

/-- A state with a present symbol holds a tree. -/
theorem tree_of_leafCount (hc : Consistent s) (h : 1 ≤ leafCount s) :
    ∃ t, TreeAt s t ∧ t.leaves.length = leafCount s := by
  obtain ⟨c, hmem⟩ := List.exists_mem_of_length_pos h
  obtain ⟨t, ht⟩ := tree_of_present hc (of_decide_eq_true (List.mem_filter.1 hmem).2)
  exact ⟨t, ht, (ht.leafCount_eq hc).symm⟩

/-- A present symbol's derived string is never empty. -/
theorem derive_length_of_present (hc : Consistent s) (h : symidxAt s.symidx c ≠ NIL) :
    ∃ w, derive s.node s.symidx s.root c = .ok w ∧ 1 ≤ w.length ∧ w.length ≤ 255 := by
  obtain ⟨hderive, hlen, hempty⟩ := derive_total hc c
  exact ⟨codeOf s c, hderive, List.length_pos_iff.2 (mt hempty.1 h), hlen⟩

/-- Settles O28: each clause is that of the codes of the tree the state holds. -/
theorem codesArePrefixFreeAndComplete : Obligations.CodesArePrefixFreeAndComplete := by
  intro s hc
  refine ⟨fun c h => derive_length_of_present hc h, fun c d v w hpc hpd hne hv hw hpre => ?_,
    fun h2 b hb => ?_, fun h1 c hpc => ?_⟩
  · obtain ⟨t, ht⟩ := tree_of_present hc hpc
    exact hne (CodeTree.code_prefix_eq ((derive_iff hc ht c v).1 ⟨hpc, hv⟩) ((derive_iff hc ht d w).1 ⟨hpd, hw⟩)
      hpre).1
  · obtain ⟨t, ht, hleaves⟩ := tree_of_leafCount hc (by omega)
    have hdepth : t.depth ≤ b.length := hb ▸ ht.depth_le hc.arena
    obtain ⟨c, w, hw, hwb⟩ := CodeTree.exists_code_prefix (hleaves ▸ h2) hdepth
    obtain ⟨hpc, hd⟩ := (derive_iff hc ht c w).2 hw
    refine ⟨c, ⟨hpc, w, hd, hwb⟩, fun d ⟨hpd, v, hv, hvb⟩ => ?_⟩
    exact CodeTree.eq_of_code_prefixes ((derive_iff hc ht d v).1 ⟨hpd, hv⟩) hw hvb hwb
  · obtain ⟨t, ht, hleaves⟩ := tree_of_leafCount hc h1.ge
    obtain ⟨w, hw⟩ := (present_iff_code hc ht c).1 hpc
    rw [derive_code hc ht hw, CodeTree.code_of_single_leaf (hleaves.trans h1) hw]

end Machine

end Sys2Proof

end

/-! What a WRH leaves for the commands after it (43_serializer.md R111 to R115): the count, the frozen cache, and the
state of a second WRH. -/

section

namespace Sys2Proof.Machine

variable {s u : State} {t : CodeTree} {c : Sym} {code : Table BitStr}

/-- `Consistent` reads no port. -/
theorem Consistent.answer (hc : Consistent s) (r : Response) : Consistent (answer r s) :=
  hc.congr rfl rfl rfl rfl rfl rfl rfl rfl rfl

/-- In the phases with a tree, `Consistent` does not bound PPOS. -/
theorem Consistent.withPpos (hc : Consistent s) (hp : s.phase ≠ .empty) (p : Count) : Consistent (s.withPpos p) :=
  hc.counters hp rfl rfl rfl rfl rfl rfl rfl

/-- `TreeAt` reads NODE and ROOT only. -/
theorem TreeAt.congr (ht : TreeAt s t) (hnode : u.node = s.node) (hroot : u.root = s.root) : TreeAt u t := by
  rw [TreeAt, hnode, hroot]
  exact ht

/-- The count fits TOTAL, so TOTAL is exact (R112). -/
theorem afterWrh_total_toNat (hc : Consistent s) (ht : TreeAt s t) (code : Table BitStr) :
    (afterWrh s code t).total.toNat = t.payload s.freq := by
  have hlt := payload_lt hc ht
  rw [afterWrh_eq, withSink_total, withPpos_total, withTotal_total, BitVec.toNat_ofNat]
  omega

/-- The one symbol of a single leaf has a code of one bit. -/
theorem payload_leaf (freq : Table Freq) (c : Sym) : (CodeTree.leaf c).payload freq = (freqAt freq c).toNat := by
  simp [CodeTree.payload, CodeTree.codes]

/-- Settles O31: TOTAL is the payload, whose bounds are `le_payload` and `payload_lt`. -/
theorem writeHeaderCountIsExact : Obligations.WriteHeaderCountIsExact := by
  intro s t he hb hc ht
  obtain ⟨code, -, -, hrun⟩ := wrh_next he hb hc ht
  have htotal := afterWrh_total_toNat hc ht code
  refine ⟨_, hrun, htotal, htotal ▸ le_payload hc hb ht, htotal ▸ payload_lt hc ht, ?_⟩
  rintro c rfl
  exact htotal.trans (payload_leaf s.freq c)

/-- With FROZEN = 1, GETC answers and leaves CODE as it is (R19). -/
theorem exec_getc_frozen (he : s.err = 0) (hc : Consistent s) (hf : s.frozen = true) (c : Sym) :
    ∃ v, exec (.getc c) s = .next v ∧ v.code = s.code := by
  obtain ⟨code, hget, -⟩ := getcode_spec hc hc.memo c
  exact ⟨_, exec_getc_of_getcode he hget, getcode_frozen hf hget⟩

/-- Settles O32: the state after WRH is consistent, so its cache holds derived codes of present symbols only. -/
theorem writeHeaderFreezesCache : Obligations.WriteHeaderFreezesCache := by
  intro s he hb hr hc
  obtain ⟨t, ht⟩ := hc.tree hr
  obtain ⟨code, hlooked, hall, hrun⟩ := wrh_next he hb hc ht
  have hcons := consistent_afterWrh hc hb ht hlooked hall
  refine ⟨_, hrun, rfl, fun c hpc => ?_, fun c habsent => ?_, fun c => ?_⟩
  · obtain ⟨w, hw⟩ := Option.isSome_iff_exists.1 (hall c hpc)
    exact ⟨w, hw, (hcons.cache c w hw).2⟩
  · exact Option.eq_none_iff_forall_ne_some.2 fun w hw => (hcons.cache c w hw).1 habsent
  · refine exec_getc_frozen ?_ ?_ ?_ c
    · simp [afterWrh, he]
    · exact hcons.answer _
    · simp [afterWrh]

/-- A frozen cache is not written by WRH either. -/
theorem wrhBody_frozen (hf : s.frozen = true) (h : (wrhBody s).In u) : u.code = s.code := by
  unfold wrhBody at h
  split at h
  · exact absurd h in_stuck
  · next cs code hget =>
    split at h
    · exact absurd h in_stuck
    · split at h
      · exact absurd h in_stuck
      · rw [in_done.1 h]
        exact getcodes_frozen hf allSyms hget

/-- WRH over a frozen cache (R115). -/
theorem exec_wrh_frozen (he : s.err = 0) (hb : s.phase = .built) (hc : Consistent s) (ht : TreeAt s t)
    (hf : s.frozen = true) :
    exec .wrh s = .next (completed 0x5 (afterWrh s s.code t) (r1 := BitVec.ofNat 64 (t.payload s.freq))) := by
  obtain ⟨hr, -⟩ := legal_tree hc ht
  obtain ⟨code, hbody, -⟩ := wrhBody_spec hc hb ht
  obtain rfl : code = s.code := wrhBody_frozen hf (hbody ▸ in_done.2 rfl)
  rw [exec_runs ⟨by simp, by simp⟩ he (by simp [PhaseForbids, hb, hr]), bodyOf, hbody, conclude_done]
  rfl

/-- The bits of a header: 64 of count, then ten for each leaf, less one (R72). -/
theorem header_bits_length (hc : Consistent s) (ht : TreeAt s t) (total : Count) :
    (msb total ++ t.header).length = 63 + 10 * leafCount s := by
  have hheader := t.header_length
  rw [List.length_append, msb_length, ht.leafCount_eq hc]
  omega

/-- Settles O33: the first WRH leaves a consistent state with a frozen cache, and the tree, FREQ and CODE that the
second reads are those of the first. -/
theorem writeHeaderTwice : Obligations.WriteHeaderTwice := by
  intro s he hb hr hc
  obtain ⟨t, ht⟩ := hc.tree hr
  obtain ⟨code, hlooked, hall, hrun⟩ := wrh_next he hb hc ht
  have hcons := consistent_afterWrh hc hb ht hlooked hall
  refine ⟨_, msb (BitVec.ofNat 64 (t.payload s.freq)) ++ t.header, hrun, rfl, header_bits_length hc ht _, rfl,
    fun p => ?_⟩
  have hbuilt : (afterWrh s code t).phase ≠ .empty := by simp [afterWrh, hb]
  refine (exec_wrh_frozen (t := t) ?_ ?_ ?_ ?_ ?_).trans ?_
  · simp [afterWrh, he]
  · simp [afterWrh, hb]
  · exact (hcons.answer _).withPpos hbuilt p
  · exact ht.congr (by simp [afterWrh]) (by simp [afterWrh])
  · simp [afterWrh]
  · rfl

end Sys2Proof.Machine

end

/-! Where RDH completes and where it raises (44_deserializer.md R123, R124, R126). A source on which it raises is
told by `rdhBody_stops` and `rdh_stop`: nodes that leave the tree unfinished, and then a `Stop`. -/

section

namespace Sys2Proof.Machine

variable {s u : State} {t : CodeTree} {total : Count} {k f : FaultKind}

/-! ### The fields of the state `parse` leaves -/

@[simp] theorem withParsing_src (s : State) (q : Parsing) : (s.withParsing q).src = q.src := rfl
@[simp] theorem withParsing_node (s : State) (q : Parsing) : (s.withParsing q).node = q.node := rfl
@[simp] theorem withParsing_symidx (s : State) (q : Parsing) : (s.withParsing q).symidx = q.symidx := rfl
@[simp] theorem withParsing_root (s : State) (q : Parsing) : (s.withParsing q).root = s.root := rfl
@[simp] theorem withParsing_phase (s : State) (q : Parsing) : (s.withParsing q).phase = s.phase := rfl
@[simp] theorem withParsing_total (s : State) (q : Parsing) : (s.withParsing q).total = s.total := rfl
@[simp] theorem withParsing_ppos (s : State) (q : Parsing) : (s.withParsing q).ppos = s.ppos := rfl
@[simp] theorem withParsing_err (s : State) (q : Parsing) : (s.withParsing q).err = s.err := rfl

/-! ### Completion, truncation, a repeated symbol, a full arena -/

/-- RDH in phase EMPTY ends where its pseudocode does. -/
theorem exec_rdh_ends (he : s.err = 0) (hp : s.phase = .empty) :
    (∃ r v, rdhBody s = .done r v ∧ exec .rdh s = .next (respond 0x6 r v) ∧ v.err = 0) ∨
      ∃ k v, rdhBody s = .raised k v ∧ exec .rdh s = .next (faulted k.code 0x6 v) ∧
        (k = .malformedHeader ∨ k = .truncatedStream) := by
  rcases rdhBody_ends s with ⟨r, v, hbody, herr⟩ | ⟨k, v, hbody, herr, hk⟩
  · exact .inl ⟨r, v, hbody, by rw [rdh_runs he hp, hbody, conclude_done], herr.trans he⟩
  · exact .inr ⟨k, v, hbody, by rw [rdh_runs he hp, hbody, conclude_raised (herr.trans he)], hk⟩

/-- Settles O35: where the pseudocode completes it has made a tree of the source, and on the header of a tree of
distinct symbols it does not raise. -/
theorem readHeaderCompletesIffWellFormed : Obligations.ReadHeaderCompletesIffWellFormed := by
  intro s he hp hc
  rcases exec_rdh_ends he hp with ⟨r, v, hbody, hrun, herr⟩ | ⟨k, v, hbody, hrun, hk⟩
  · obtain ⟨total, t, q, hs, hmade, -⟩ := rdhBody_made hc hp hbody
    exact ⟨_, hrun, .inl herr, iff_of_true herr ⟨total, t, q.src, by rw [hs, List.append_assoc], hmade.nodup⟩⟩
  · refine ⟨_, hrun, ?_, iff_of_false ?_ ?_⟩
    · exact .inr (hk.imp (congrArg FaultKind.code) (congrArg FaultKind.code))
    · rw [faulted_err]
      rcases hk with rfl | rfl <;> decide
    · rintro ⟨total, t, rest, hs, hn⟩
      obtain ⟨q, -, -, hdone⟩ := rdhBody_header hc hp (hs.trans (List.append_assoc _ _ _)) hn
      rw [hbody] at hdone
      cases hdone

/-- Settles O37, by `parse_truncated`: the arena has room for a tree of distinct symbols, so only the source
stops the parse. -/
theorem readHeaderTruncated : Obligations.ReadHeaderTruncated := by
  intro s total t v x he hp hc hn hheader hx hs
  obtain ⟨-, hroot, -⟩ := hc.fresh hp
  have hroom : 0 + t.size ≤ NNODE := by
    rw [Nat.zero_add]
    exact CodeTree.size_le_of_nodup hn
  obtain ⟨q, hparse, hsrc⟩ := parse_truncated t NNODE NIL ⟨v, [], []⟩ x hheader.symm hx hroom (Nat.le_add_right _ _)
    hn (fun c _ => symidxAt_nil c)
  exact ⟨_, rdh_raised he hp hc hs hparse, by simp [FaultKind.code, hsrc, hroot, hp]⟩

/-- Settles O38: the parse of a header raises MalformedHeader or makes its tree, and a tree it makes has distinct
symbols. -/
theorem readHeaderDuplicateSymbol : Obligations.ReadHeaderDuplicateSymbol := by
  intro s total t rest he hp hc hs hdup
  obtain ⟨-, hroot, -⟩ := hc.fresh hp
  rw [List.append_assoc] at hs
  rcases parse_on_header t NNODE NIL ⟨t.header ++ rest, [], []⟩ rest rfl with ⟨i, q, hparse, -⟩ | ⟨q, hparse⟩
  · obtain ⟨t', hmade⟩ := parse_made _ hparse
    obtain ⟨rfl, -⟩ := CodeTree.header_append_inj hmade.src
    exact absurd hmade.nodup hdup
  · exact ⟨_, rdh_raised he hp hc hs hparse, by simp [FaultKind.code, hroot, hp]⟩

/-- Settles O39: behind 511 nodes the stop is a missing tag or a tag too many. -/
theorem readHeaderArenaExhausted : Obligations.ReadHeaderArenaExhausted := by
  intro s total ts rest he hp hc hopen hlen hs
  obtain ⟨-, hroot, -⟩ := hc.fresh hp
  rw [List.append_assoc] at hs
  cases rest with
  | nil =>
    obtain ⟨q, hrun, hsrc, hnode⟩ := rdh_stop he hp hc hs hopen .noTag
    exact ⟨_, hrun, by simp [FaultKind.code, hnode, hlen, hroot, hp, hsrc]⟩
  | cons b rest =>
    obtain ⟨q, hrun, hsrc, hnode⟩ := rdh_stop he hp hc hs hopen (.full hlen.ge)
    exact ⟨_, hrun, by simp [FaultKind.code, hnode, hlen, hroot, hp, hsrc]⟩

/-! ### The fault points -/

/-- The sources on which RDH raises `f`: too short for the count, or unfinished nodes and then a `Stop`. -/
inductive FaultPoint (f : FaultKind) (src : BitStr) : Prop where
  | count (short : src.length < 64) (kind : f = .truncatedStream)
  | stop (total : Count) (ts : List (Option Sym)) (r r' : BitStr) (at_ : src = msb total ++ (tagBits ts ++ r))
      (open_ : Unfinished ts) (stop : Stop ts.length (fun c => some c ∈ ts) f r r')

theorem faultPoint_of_raised (hp : s.phase = .empty) (hc : Consistent s) (h : rdhBody s = .raised f u) :
    FaultPoint f s.src := by
  rcases rdhBody_stops hp hc h with ⟨hshort, hk, -⟩ | ⟨total, ts, r, q, hs, hopen, hstop, -⟩
  · exact .count hshort hk
  · exact .stop total ts r _ hs hopen hstop

theorem FaultPoint.exec_rdh (h : FaultPoint f s.src) (he : s.err = 0) (hp : s.phase = .empty) (hc : Consistent s) :
    ∃ v, exec .rdh s = .next (faulted f.code 0x6 v) := by
  cases h with
  | count short kind =>
    have herr : (s.withSrc []).err = 0 := he
    exact ⟨_, by rw [rdh_runs he hp, rdhBody_of_short short, conclude_raised herr, kind]⟩
  | stop total ts r r' at_ open_ stop =>
    obtain ⟨q, hrun, -⟩ := rdh_stop he hp hc at_ open_ stop
    exact ⟨_, hrun⟩

theorem FaultKind.code_injective (h : k.code = f.code) : k = f := by
  revert h
  cases k <;> cases f <;> decide

/-- The code RDH leaves tells the fault point of its source. -/
theorem exec_rdh_err_iff (he : s.err = 0) (hp : s.phase = .empty) (hc : Consistent s) (h : exec .rdh s = .next u)
    (f : FaultKind) : u.err = f.code ↔ FaultPoint f s.src := by
  constructor
  · intro hcode
    rcases exec_rdh_ends he hp with ⟨r, v, -, hrun, herr⟩ | ⟨k, v, hbody, hrun, -⟩
    · rw [hrun] at h
      cases h
      rw [respond_err, herr] at hcode
      exact absurd hcode (by cases f <;> decide)
    · rw [hrun] at h
      cases h
      obtain rfl := FaultKind.code_injective hcode
      exact faultPoint_of_raised hp hc hbody
  · intro hpoint
    obtain ⟨v, hrun⟩ := hpoint.exec_rdh he hp hc
    rw [hrun] at h
    cases h
    rfl

/-- Where the arena is full a tag is one too many, else a leaf may repeat a symbol (R123). -/
theorem faultPoint_malformedHeader {src : BitStr} : FaultPoint .malformedHeader src ↔
    ∃ (total : Count) (ts : List (Option Sym)), Unfinished ts ∧
      ((ts.length = 511 ∧ ∃ b rest, src = msb total ++ tagBits ts ++ b :: rest) ∨
       (ts.length < 511 ∧ ∃ c rest, some c ∈ ts ∧ src = msb total ++ tagBits ts ++ true :: (msb c ++ rest))) := by
  simp only [List.append_assoc]
  constructor
  · rintro (⟨-, kind⟩ | ⟨total, ts, r, r', hs, hopen, hstop⟩)
    · cases kind
    · cases hstop with
      | full hfull => exact ⟨total, ts, hopen, .inl ⟨le_antisymm hopen.1 hfull, _, _, hs⟩⟩
      | duplicate room has => exact ⟨total, ts, hopen, .inr ⟨room, _, _, has, hs⟩⟩
  · rintro ⟨total, ts, hopen, ⟨hfull, b, rest, hs⟩ | ⟨room, c, rest, has, hs⟩⟩
    · exact .stop total ts _ _ hs hopen (.full hfull.ge)
    · exact .stop total ts _ _ hs hopen (.duplicate room has)

/-- The source ends in the count, at a tag, or inside the symbol of a leaf that has an entry (R124). -/
theorem faultPoint_truncatedStream {src : BitStr} : FaultPoint .truncatedStream src ↔
    src.length < 64 ∨ ∃ (total : Count) (ts : List (Option Sym)), Unfinished ts ∧
      (src = msb total ++ tagBits ts ∨
       (ts.length < 511 ∧ ∃ v : BitStr, v.length < 8 ∧ src = msb total ++ tagBits ts ++ true :: v)) := by
  simp only [List.append_assoc]
  constructor
  · rintro (⟨hshort, -⟩ | ⟨total, ts, r, r', hs, hopen, hstop⟩)
    · exact .inl hshort
    · refine .inr ⟨total, ts, hopen, ?_⟩
      cases hstop with
      | noTag => exact .inl (by rwa [List.append_nil] at hs)
      | noSymbol room short => exact .inr ⟨room, _, short, hs⟩
  · rintro (hshort | ⟨total, ts, hopen, hs | ⟨room, v, short, hs⟩⟩)
    · exact .count hshort rfl
    · exact .stop total ts [] [] (by rw [hs, List.append_nil]) hopen .noTag
    · exact .stop total ts _ _ hs hopen (.noSymbol room short)

/-- Settles O60: `exec_rdh_err_iff`, with the fault points of the two kinds written out. -/
theorem readHeaderFaultPoints : Obligations.ReadHeaderFaultPoints := by
  intro s he hp hc
  obtain ⟨u, hrun, -⟩ := exec_sound .rdh fun _ => hc
  exact ⟨u, hrun, (exec_rdh_err_iff he hp hc hrun .malformedHeader).trans faultPoint_malformedHeader,
    (exec_rdh_err_iff he hp hc hrun .truncatedStream).trans faultPoint_truncatedStream⟩

end Sys2Proof.Machine

end

/-! RDH inverts WRH (44_deserializer.md R125): writer and reader hold one tree, and the map from the writer's nodes
to the reader's pairs the preorder index lists of the two arenas. -/

section

namespace Sys2Proof.Machine

/-- Two consistent states hold one tree, with its preorder index lists in the two arenas. -/
structure Twins (s u : State) (t : CodeTree) (is js : List Idx) : Prop where
  left : Consistent s
  right : Consistent u
  held_left : Holds s.node NIL s.root t is
  held_right : Holds u.node NIL u.root t js
  nodup_left : is.Nodup
  nodup_right : js.Nodup
  cover_left : is.length = s.node.length
  cover_right : js.length = u.node.length

theorem TreeAt.twins {s u : State} {t : CodeTree} (hs : TreeAt s t) (hu : TreeAt u t) (hcs : Consistent s)
    (hcu : Consistent u) : ∃ is js, Twins s u t is js := by
  obtain ⟨is, hheld, hnodup, hlen⟩ := hs
  obtain ⟨js, hheld', hnodup', hlen'⟩ := hu
  exact ⟨is, js, hcs, hcu, hheld, hheld', hnodup, hnodup', hlen, hlen'⟩

namespace Twins

variable {s u : State} {t : CodeTree} {is js : List Idx} {i j : Idx} {n m : Node} {c : Sym}

theorem length_eq (h : Twins s u t is js) : is.length = js.length := by
  rw [h.held_left.length_eq, h.held_right.length_eq]

theorem mem_left (h : Twins s u t is js) (hn : nodeAt s.node i = some n) : i ∈ is :=
  mem_of_covering h.nodup_left h.cover_left (fun _ => h.held_left.at_mem) hn

theorem mem_right (h : Twins s u t is js) (hm : nodeAt u.node j = some m) : j ∈ js :=
  mem_of_covering h.nodup_right h.cover_right (fun _ => h.held_right.at_mem) hm

theorem pairing_NIL (h : Twins s u t is js) : pairing (is.zip js) NIL = NIL := by
  apply pairing_of_not_mem
  intro hmem
  obtain ⟨n, hn⟩ := h.held_left.at_mem hmem
  rw [nodeAt_NIL] at hn
  cases hn

theorem pairing_root (h : Twins s u t is js) : pairing (is.zip js) s.root = u.root :=
  pairing_of_mem h.nodup_left (h.held_left.paired h.held_right).1

/-- An index that has a partner is paired with no other. -/
theorem pairing_injective (h : Twins s u t is js) (hij : pairing (is.zip js) i = pairing (is.zip js) j)
    (hi : pairing (is.zip js) i ≠ NIL) : i = j := by
  have hmem : ∀ a, pairing (is.zip js) a ≠ NIL → (a, pairing (is.zip js) a) ∈ is.zip js := by
    intro a ha
    obtain ⟨b, hb⟩ := exists_pair h.length_eq (not_not.1 (mt pairing_of_not_mem ha))
    rwa [pairing_of_mem h.nodup_left hb]
  exact pair_unique_left h.nodup_right (hmem i hi) (hij ▸ hmem j (hij ▸ hi))

/-- A node and its partner: links go to partners, and the symbols agree, 0 at internal nodes (R11). -/
theorem pairing_node (h : Twins s u t is js) (hn : nodeAt s.node i = some n) :
    ∃ m, nodeAt u.node (pairing (is.zip js) i) = some m ∧ m.left = pairing (is.zip js) n.left ∧
      m.right = pairing (is.zip js) n.right ∧ m.parent = pairing (is.zip js) n.parent ∧ m.isLeaf = n.isLeaf ∧
      m.symbol = n.symbol := by
  obtain ⟨j, hij⟩ := exists_pair h.length_eq (h.mem_left hn)
  obtain ⟨n', m, hn', hm, ⟨hleaf, hsym, hchildren⟩, hparent⟩ := (h.held_left.paired h.held_right).2 i j hij
  obtain rfl : n = n' := Option.some.inj (hn.symm.trans hn')
  rw [pairing_of_mem h.nodup_left hij]
  obtain ⟨hl, hr⟩ : m.left = pairing (is.zip js) n.left ∧ m.right = pairing (is.zip js) n.right := by
    rcases hchildren with ⟨hnl, hml, hnr, hmr⟩ | ⟨hl, hr⟩
    · rw [hnl, hml, hnr, hmr, h.pairing_NIL]
      exact ⟨rfl, rfl⟩
    · exact ⟨(pairing_of_mem h.nodup_left hl).symm, (pairing_of_mem h.nodup_left hr).symm⟩
  have hp : m.parent = pairing (is.zip js) n.parent := by
    rcases hparent with ⟨-, -, hnp, hmp⟩ | hp
    · rw [hnp, hmp, h.pairing_NIL]
    · exact (pairing_of_mem h.nodup_left hp).symm
  refine ⟨m, hm, hl, hr, hp, hleaf, ?_⟩
  cases hnl : n.isLeaf with
  | true => exact hsym hnl
  | false =>
    rw [h.left.internal n (mem_of_nodeAt hn) hnl, h.right.internal m (mem_of_nodeAt hm) (hleaf.trans hnl)]

theorem pairing_surjective (h : Twins s u t is js) (hm : nodeAt u.node j = some m) :
    ∃ i n, nodeAt s.node i = some n ∧ pairing (is.zip js) i = j := by
  obtain ⟨i, hij⟩ := exists_pair_right h.length_eq (h.mem_right hm)
  obtain ⟨n, hn⟩ := h.held_left.at_mem (List.of_mem_zip hij).1
  exact ⟨i, n, hn, pairing_of_mem h.nodup_left hij⟩

/-- SYMIDX is determined by the leaves (R28 clause 5), and the partner of a leaf is a leaf of its symbol. -/
theorem pairing_symidx (h : Twins s u t is js) (c : Sym) :
    symidxAt u.symidx c = pairing (is.zip js) (symidxAt s.symidx c) := by
  by_cases habsent : symidxAt s.symidx c = NIL
  · have hleaf : c ∉ t.leaves :=
      mt (present_iff h.left ⟨is, h.held_left, h.nodup_left, h.cover_left⟩ c).2 (not_not.2 habsent)
    rw [habsent, h.pairing_NIL]
    exact not_not.1 (mt (present_iff h.right ⟨js, h.held_right, h.nodup_right, h.cover_right⟩ c).1 hleaf)
  · obtain ⟨n, hn, hleaf, hsym⟩ := (h.left.symbols c _ habsent).1 rfl
    obtain ⟨m, hm, -, -, -, hmleaf, hmsym⟩ := h.pairing_node hn
    exact (h.right.symbols c _ (ne_NIL_of_nodeAt hm)).2 ⟨m, hm, hmleaf.trans hleaf, hmsym.trans hsym⟩

end Twins

/-- Settles O40: WRH leaves the tree it writes, RDH makes the tree it reads, and the two states are `Twins`. -/
theorem readHeaderInvertsWriteHeader : Obligations.ReadHeaderInvertsWriteHeader := by
  intro a b hae hab har hac hbe hbp hbc
  obtain ⟨t, hta⟩ := hac.tree har
  obtain ⟨code, hlooked, hall, hwrh⟩ := wrh_next hae hab hac hta
  have hacons := consistent_afterWrh hac hab hta hlooked hall
  refine ⟨_, msb (BitVec.ofNat 64 (t.payload a.freq)) ++ t.header, hwrh, rfl, fun rest hs => ?_⟩
  obtain ⟨q, hq, hmade, hrdh⟩ := exec_rdh_of_header hbe hbp hbc hs (hta.leaves_nodup hac)
  obtain ⟨hbcons, htb⟩ := consistent_afterRdh (total := BitVec.ofNat 64 (t.payload a.freq)) hbc hbp hmade
  obtain ⟨is, js, htwins⟩ := (show TreeAt (afterWrh a code t) t from hta).twins htb hacons hbcons
  refine ⟨_, hrdh, by simp [afterRdh, hbe], by simp [afterRdh, hq], by simp [afterRdh, afterWrh],
    pairing (is.zip js), htwins.pairing_NIL, htwins.pairing_root, rfl,
    fun i j hij _ hi => htwins.pairing_injective hij hi, fun i n hn => ?_,
    fun j m hm => htwins.pairing_surjective hm, htwins.pairing_symidx⟩
  obtain ⟨m, hm, hl, hr, hp, hleaf, hsym⟩ := htwins.pairing_node hn
  exact ⟨m, hm, hl, hr, hp, hleaf, hsym, (hbcons.read rfl).2 m (mem_of_nodeAt hm)⟩

end Sys2Proof.Machine

end

/-! DEC and DECM on a payload (46_decoder.md R140 to R147): both resolve the code the source starts with, and both
fault where it stops short of a code. -/

section

namespace Sys2Proof.Machine

variable {s : State} {t u : CodeTree} {c : Sym} {w rest : BitStr} {f : FaultKind}

/-! ### A code on the source -/

/-- The walk down a code ends at its leaf (R140, R141). -/
theorem exec_dec_of_code (he : s.err = 0) (hc : Consistent s) (ht : TreeAt s t) (hw : (c, w) ∈ t.codes)
    (hs : s.src = w ++ rest) (hle : s.ppos.toNat + w.length ≤ s.total.toNat) :
    exec .dec s = .next (completed 0x8
      ((s.withPpos (s.ppos + BitVec.ofNat 64 w.length)).withSrc rest) (len := w.length) (sym := c)) :=
  exec_dec_of_treeWalk (q := ⟨s.ppos + BitVec.ofNat 64 w.length, rest⟩) he hc ht (walk_code hw hs hle)

/-- Nothing shorter that the code starts with matches, and the code does (R145). -/
theorem exec_decm_of_code (he : s.err = 0) (hc : Consistent s) (ht : TreeAt s t) (hw : (c, w) ∈ t.codes)
    (hs : s.src = w ++ rest) (hle : s.ppos.toNat + w.length ≤ s.total.toNat) :
    ∃ code, LookedUp s allSyms code ∧ exec .decm s = .next (completed 0x9
      (((s.withCode code).withPpos (s.ppos + BitVec.ofNat 64 w.length)).withSrc rest)
      (len := w.length) (sym := c)) := by
  obtain ⟨code, hlooked, hrun⟩ := decm_runs he hc ht
  refine ⟨code, hlooked, ?_⟩
  rw [hrun, matchBits_path hc ht s.total hw w rfl (CodeTree.code_ne_nil hw) (ht.code_length_le hc hw) hs hle,
    decoded, conclude_done]
  rfl

/-- Settles O45, by `exec_dec_of_code`. -/
theorem decodeResolvesSymbol : Obligations.DecodeResolvesSymbol :=
  fun _ _ _ _ _ he hc ht hw hs hle => exec_dec_of_code he hc ht hw hs hle

/-- Settles O49, by `exec_decm_of_code`. -/
theorem matchDecodeResolvesSymbol : Obligations.MatchDecodeResolvesSymbol :=
  fun _ _ _ _ _ he hc ht hw hs hle => exec_decm_of_code he hc ht hw hs hle

/-- Settles O44: the bits ENC appends are the symbol's code in the tree, and DEC of the same tree resolves it. -/
theorem encodeThenDecode : Obligations.EncodeThenDecode := by
  intro s t c he hc ht hleaf
  obtain ⟨w, hw⟩ := CodeTree.code_of_mem_leaves hleaf
  obtain ⟨-, -, code, -, henc⟩ := encodeWritesCode s t c w he hc ht hw
  exact ⟨w, _, henc, rfl, fun d rest hde hdc hdt hs hle => exec_dec_of_code hde hdc hdt hw hs hle⟩

/-! ### A payload that stops inside a code -/

/-- Both decoders consume the bits `w` inside a code and then end with the fault of the next request. -/
theorem exec_decoders_of_payloadBit_error (he : s.err = 0) (hc : Consistent s) (ht : TreeAt s t)
    (hu : t.sub w = some u) (hin : w = [] ∨ ∃ l r, u = .fork l r) (hs : s.src = w ++ rest)
    (hle : w ≠ [] → s.ppos.toNat + w.length ≤ s.total.toNat)
    (hf : payloadBit s.total ⟨s.ppos + BitVec.ofNat 64 w.length, rest⟩ = .error f) :
    exec .dec s = .next (faulted f.code 0x8 ((s.withPpos (s.ppos + BitVec.ofNat 64 w.length)).withSrc rest)) ∧
      ∃ code, LookedUp s allSyms code ∧ exec .decm s = .next (faulted f.code 0x9
        (((s.withCode code).withPpos (s.ppos + BitVec.ofNat 64 w.length)).withSrc rest)) := by
  constructor
  · rw [dec_runs he hc ht, treeWalk_inner (p := ⟨s.ppos, s.src⟩) hu hin 0 hs hle, treeWalk_error hf, decoded_raised he]
    rfl
  · obtain ⟨code, hlooked, hrun⟩ := decm_runs he hc ht
    have he' : (s.withCode code).err = 0 := he
    refine ⟨code, hlooked, ?_⟩
    rw [hrun, matchBits_inner (p := ⟨s.ppos, s.src⟩) hc ht hu hin hs hle hf, decoded_raised he']
    rfl

/-- Settles O47: the count is tested before the source (R142). -/
theorem payloadExhausted : Obligations.PayloadExhausted := by
  intro s t u w rest he hc ht hu hin hs hend
  have hle : w ≠ [] → s.ppos.toNat + w.length ≤ s.total.toNat := fun hw => by
    rcases hend with ⟨hnil, -⟩ | heq
    · exact absurd hnil hw
    · exact heq.le
  refine exec_decoders_of_payloadBit_error (f := .malformedHeader) he hc ht hu hin hs hle (payloadBit_exhausted ?_)
  rcases hend with ⟨rfl, hge⟩ | heq
  · simpa using hge
  · exact BitVec.le_def.2 ((add_ofNat_toNat heq.le).trans heq).ge

/-- Settles O48: below TOTAL the request goes to the source, which is empty (R143). -/
theorem sourceExhausted : Obligations.SourceExhausted := by
  intro s t u w he hc ht hu hin hs hlt
  refine exec_decoders_of_payloadBit_error (f := .truncatedStream) he hc ht hu hin
    (hs.trans (List.append_nil w).symm) (fun _ => hlt.le) (payloadBit_nil rfl ?_)
  exact BitVec.lt_def.2 ((add_ofNat_toNat hlt.le).trans_lt hlt)

/-! ### DECM on a single leaf (R146) -/

theorem matchBits_error {codes : List (Sym × BitStr)} {total : Count} {k : Nat} {cand : BitStr} {p : Payload}
    (h : payloadBit total p = .error f) : matchBits s.symidx codes total (k + 1) cand p = .raised f p := by
  rw [matchBits, h]

/-- A candidate that starts with a 1 matches no code of a single leaf, so its first bit is not the last asked for. -/
theorem matchBits_leaf_one (hc : Consistent s) (ht : TreeAt s (.leaf c)) (hs : s.src = true :: rest)
    (hlt : s.ppos < s.total) :
    matchBits s.symidx (allSyms.map fun c => (c, codeOf s c)) s.total MAXLEN [] ⟨s.ppos, s.src⟩ =
      matchBits s.symidx (allSyms.map fun c => (c, codeOf s c)) s.total 254 [true] ⟨s.ppos + 1, rest⟩ := by
  rw [matchBits, payloadBit_cons hs hlt]
  simp only [List.nil_append, single_nomatch hc ht]

/-- Settles O50: `bound_loop` runs the candidate on from its first bit. -/
theorem matchDecodeCandidateBound : Obligations.MatchDecodeCandidateBound := by
  intro s c v rest he hc ht hs hle hv hend
  rw [List.cons_append] at hs
  have hlt : s.ppos < s.total := BitVec.lt_def.2 (by omega)
  have hpos : (s.ppos + 1).toNat + v.length = s.ppos.toNat + (v.length + 1) := by
    rw [toNat_succ_of_lt hlt]
    omega
  have hcount : s.ppos + 1 + BitVec.ofNat 64 v.length = s.ppos + BitVec.ofNat 64 (v.length + 1) := by
    rw [BitVec.add_assoc, Nat.add_comm, BitVec.ofNat_add]
    rfl
  obtain ⟨code, hlooked, hrun⟩ := decm_runs he hc ht
  have he' : (s.withCode code).err = 0 := he
  refine ⟨code, hlooked, ?_⟩
  rw [hrun, matchBits_leaf_one hc ht hs hlt,
    bound_loop hc ht v 254 [] rest ⟨s.ppos + 1, v ++ rest⟩ rfl (hpos.trans_le hle) hv (hpos ▸ hend),
    decoded_raised he', hpos, hcount, apply_ite FaultKind.code]
  rfl

/-- Where DECM has read a 1 on a single leaf it ends in a fault, whatever follows. -/
theorem matchBits_leaf_raised (hc : Consistent s) (ht : TreeAt s (.leaf c)) (total : Count) (k : Nat) (v : BitStr)
    (p : Payload) :
    ∃ f q, matchBits s.symidx (allSyms.map fun c => (c, codeOf s c)) total k (true :: v) p = .raised f q ∧
      (f = .malformedHeader ∨ f = .truncatedStream) := by
  induction k generalizing v p with
  | zero => exact ⟨_, p, rfl, .inl rfl⟩
  | succ k ih =>
    cases hbit : payloadBit total p with
    | error f =>
      exact ⟨f, p, matchBits_error hbit, (payloadBit_error hbit).imp And.left And.left⟩
    | ok bq =>
      obtain ⟨b, q⟩ := bq
      rw [matchBits, hbit]
      simp only [List.cons_append, single_nomatch hc ht]
      exact ih (v ++ [b]) q

/-! ### DEC against DECM (R147) -/

/-- Unless a 1 is read on a single leaf, DECM does what the walk of DEC does. -/
theorem matchBits_eq_treeWalk (hc : Consistent s) (ht : TreeAt s t)
    (hone : ¬ ((∃ c rest, t = .leaf c ∧ s.src = true :: rest) ∧ s.ppos < s.total)) :
    matchBits s.symidx (allSyms.map fun c => (c, codeOf s c)) s.total MAXLEN [] ⟨s.ppos, s.src⟩ =
      treeWalk s.total t 0 ⟨s.ppos, s.src⟩ := by
  cases t with
  | fork l r => exact matchBits_fork hc ht _
  | leaf c =>
    cases hbit : payloadBit s.total ⟨s.ppos, s.src⟩ with
    | error f => rw [matchBits_error hbit, treeWalk_error hbit]
    | ok bq =>
      obtain ⟨b, q⟩ := bq
      obtain ⟨hsrc, -, hlt⟩ := payloadBit_ok hbit
      obtain rfl : b = false := by
        cases b with
        | false => rfl
        | true => exact absurd ⟨⟨c, q.src, rfl, hsrc⟩, hlt⟩ hone
      have hmatch : matchCode s.symidx [false] (allSyms.map fun c => (c, codeOf s c)) = some c :=
        (matchCode_codes hc ht [false] c).2 (List.mem_singleton.2 rfl)
      rw [matchBits, treeWalk, hbit]
      simp only [List.nil_append, hmatch]
      rfl

/-- What DEC and DECM agree on: the response but for the opcode echo, and the state but for CODE. -/
def Agree (d m : State) (rd rm : Response) : Prop :=
  m.src = d.src ∧ m.ppos = d.ppos ∧ m.err = d.err ∧ rm.r1 = rd.r1 ∧ rm.cb = rd.cb ∧
    rm.r0.extractLsb' 60 4 = rd.r0.extractLsb' 60 4 ∧ rm.r0.extractLsb' 0 56 = rd.r0.extractLsb' 0 56 ∧
    m.freq = d.freq ∧ m.node = d.node ∧ m.symidx = d.symidx ∧ m.root = d.root ∧ m.phase = d.phase ∧
    m.frozen = d.frozen ∧ m.total = d.total ∧ m.sink = d.sink

theorem packR0_err (e : BitVec 4) (o : Opc) (l : BitVec 8) (c : Sym) : (packR0 e o l c).extractLsb' 60 4 = e :=
  (packR0_fields e o l c).1

/-- One outcome, answered by each decoder over its own CODE. -/
theorem agree_of_decoded (he : s.err = 0) {d : Decoded} (hd : ∀ f, d ≠ .stuck f) (code : Table BitStr) :
    ∃ x m rd rm, conclude 0x8 (decoded s d) = .next x ∧ conclude 0x9 (decoded (s.withCode code) d) = .next m ∧
      x.resps = s.resps ++ [rd] ∧ m.resps = s.resps ++ [rm] ∧ Agree x m rd rm := by
  cases d with
  | stuck f => exact absurd rfl (hd f)
  | symbol c n q =>
    refine ⟨_, _, _, _, rfl, rfl, respond_resps .., respond_resps .., ?_⟩
    simpa [Agree, State.withPayload, packR0_err] using extract_low 0 0x9 0x8 (BitVec.ofNat 8 n) c
  | raised k q =>
    have he' : (s.withCode code).err = 0 := he
    refine ⟨_, _, _, _, decoded_raised he .., decoded_raised he' .., faulted_resps .., faulted_resps .., ?_⟩
    simpa [Agree, State.withPayload, faultResponse, packR0_err] using extract_low k.code 0x9 0x8 0 0

theorem treeWalk_ne_stuck (total : Count) (t : CodeTree) (n : Nat) (p : Payload) (g : Fault) :
    treeWalk total t n p ≠ .stuck g := by
  have hwalked := walked_treeWalk total t n p
  intro h
  rw [h] at hwalked
  cases hwalked

/-- On a single leaf whose payload starts with a 1: DEC resolves the leaf, and DECM ends in a fault. -/
theorem exec_decoders_leaf_one (he : s.err = 0) (hc : Consistent s) (ht : TreeAt s (.leaf c))
    (hs : s.src = true :: rest) (hlt : s.ppos < s.total) :
    ∃ d m rd rm, exec .dec s = .next d ∧ exec .decm s = .next m ∧ d.resps = s.resps ++ [rd] ∧
      m.resps = s.resps ++ [rm] ∧ d.err = 0 ∧ d.src = rest ∧ (m.err = 1 ∨ m.err = 2) := by
  obtain ⟨code, -, hrun⟩ := decm_runs he hc ht
  have he' : (s.withCode code).err = 0 := he
  obtain ⟨f, q, hraised, hf⟩ := matchBits_leaf_raised hc ht s.total 254 [] ⟨s.ppos + 1, rest⟩
  rw [matchBits_leaf_one hc ht hs hlt, hraised, decoded_raised he'] at hrun
  exact ⟨_, _, _, _, exec_dec_of_treeWalk he hc ht (treeWalk_leaf hs hlt 0), hrun, completed_resps .., faulted_resps ..,
    he, rfl, hf.imp (congrArg FaultKind.code) (congrArg FaultKind.code)⟩

/-- Settles O51: the outcome is one unless a 1 is read on a single leaf, which `exec_decoders_leaf_one` is about. -/
theorem decodersAgree : Obligations.DecodersAgree := by
  intro s t he hc ht
  by_cases hone : (∃ c rest, t = .leaf c ∧ s.src = true :: rest) ∧ s.ppos < s.total
  · obtain ⟨⟨c, rest, rfl, hs⟩, hlt⟩ := hone
    obtain ⟨d, m, rd, rm, hdec, hdecm, hrd, hrm, herr, hsrc, hfault⟩ := exec_decoders_leaf_one he hc ht hs hlt
    refine ⟨d, m, rd, rm, hdec, hdecm, hrd, hrm, fun h => ?_, fun c' rest' _ hs' _ => ⟨herr, ?_, hfault⟩⟩
    · rcases h with h2 | hzero
      · exact absurd h2 (by simp [CodeTree.leaves])
      · exact absurd hs (hzero rest)
    · exact hsrc.trans (List.cons.inj (hs.symm.trans hs')).2
  · obtain ⟨code, -, hdecm⟩ := decm_runs he hc ht
    rw [matchBits_eq_treeWalk hc ht hone] at hdecm
    obtain ⟨d, m, rd, rm, hd, hm, hrd, hrm, hagree⟩ :=
      agree_of_decoded he (treeWalk_ne_stuck s.total t 0 ⟨s.ppos, s.src⟩) code
    exact ⟨d, m, rd, rm, (dec_runs he hc ht).trans hd, hdecm.trans hm, hrd, hrm, fun _ => hagree,
      fun c rest hleaf hs hlt => absurd ⟨⟨c, rest, hleaf, hs⟩, hlt⟩ hone⟩

end Sys2Proof.Machine

end

/-! The payload round trip (30_encoding.md R73, 46_decoder.md R148): one ENC appends one code, one DEC or DECM takes
one code off, and a list of symbols is the concatenation of their codes. -/

section

namespace Sys2Proof.Machine

variable {s : State} {t : CodeTree} {c : Sym} {w rest : BitStr}

/-- `code` gives each leaf its code in the tree. -/
def IsCode (t : CodeTree) (code : Sym → BitStr) : Prop := ∀ c ∈ t.leaves, (c, code c) ∈ t.codes

theorem isCode_codeOf (hc : Consistent s) (ht : TreeAt s t) : IsCode t (codeOf s) := by
  intro c hleaf
  obtain ⟨w, hw⟩ := CodeTree.code_of_mem_leaves hleaf
  rwa [codeOf_eq hc ht hw]

/-- Two counts after one another, modulo 2^64. -/
theorem add_ofNat_append (p : Count) (v w : BitStr) :
    p + BitVec.ofNat 64 v.length + BitVec.ofNat 64 w.length = p + BitVec.ofNat 64 (v ++ w).length := by
  rw [List.length_append, BitVec.ofNat_add, BitVec.add_assoc]

/-! ### Encoding -/

/-- The state after one ENC is ready for the next. -/
theorem exec_enc_of_code (he : s.err = 0) (hc : Consistent s) (ht : TreeAt s t) (hw : (c, w) ∈ t.codes) :
    ∃ s', exec (.enc c) s = .next s' ∧ s'.err = 0 ∧ Consistent s' ∧ TreeAt s' t ∧ s'.sink = s.sink ++ w ∧
      s'.ppos = s.ppos + BitVec.ofNat 64 w.length := by
  obtain ⟨-, -, code, -, hrun⟩ := encodeWritesCode s t c w he hc ht hw
  obtain ⟨s', hrun', hcons⟩ := exec_sound (.enc c) fun _ => hc
  obtain rfl := Host.Outcome.next.inj (hrun.symm.trans hrun')
  exact ⟨_, hrun, he, hcons he, ht, rfl, rfl⟩

theorem execAll_enc {code : Sym → BitStr} (hcode : IsCode t code) (cs : List Sym) (hcs : ∀ c ∈ cs, c ∈ t.leaves)
    (he : s.err = 0) (hc : Consistent s) (ht : TreeAt s t) :
    ∃ s', execAll (cs.map .enc) s = .next s' ∧ s'.sink = s.sink ++ cs.flatMap code ∧
      s'.ppos = s.ppos + BitVec.ofNat 64 (cs.flatMap code).length := by
  induction cs generalizing s with
  | nil => exact ⟨s, rfl, (List.append_nil _).symm, (BitVec.add_zero _).symm⟩
  | cons c cs ih =>
    obtain ⟨hleaf, hcs⟩ := List.forall_mem_cons.1 hcs
    obtain ⟨s1, hrun, he1, hc1, ht1, hsink, hppos⟩ := exec_enc_of_code he hc ht (hcode c hleaf)
    obtain ⟨s', hruns, hsink', hppos'⟩ := ih hcs he1 hc1 ht1
    refine ⟨s', ?_, ?_, ?_⟩
    · rw [List.map_cons, execAll, hrun]
      exact hruns
    · rw [hsink', hsink, List.append_assoc, List.flatMap_cons]
    · rw [hppos', hppos, add_ofNat_append, List.flatMap_cons]

/-- Where each symbol occurs FREQ times, the bits of the list are the payload (R112): both sums run over
(length × frequency). -/
theorem length_flatMap_codeOf (hc : Consistent s) (ht : TreeAt s t) {cs : List Sym}
    (hcount : ∀ c, cs.count c = (freqAt s.freq c).toNat) : (cs.flatMap (codeOf s)).length = t.payload s.freq := by
  have hall : (Finset.univ : Finset Sym) = allSyms.toFinset := by
    ext c
    simp [mem_allSyms]
  calc (cs.flatMap (codeOf s)).length
      = (cs.map fun c => (codeOf s c).length).sum := List.length_flatMap
    _ = ∑ c ∈ cs.toFinset, cs.count c • (codeOf s c).length := Finset.sum_list_map_count ..
    _ = ∑ c, cs.count c • (codeOf s c).length :=
        Finset.sum_subset (Finset.subset_univ _) fun c _ hc => by
          rw [List.count_eq_zero.2 (mt List.mem_toFinset.2 hc), zero_smul]
    _ = ∑ c ∈ allSyms.toFinset, term s c := by
        rw [hall]
        refine Finset.sum_congr rfl fun c _ => ?_
        rw [hcount, smul_eq_mul, Nat.mul_comm, term]
    _ = (allSyms.map (term s)).sum := List.sum_toFinset _ nodup_allSyms
    _ = t.payload s.freq := sum_term_eq_payload hc ht

/-! ### Decoding -/

/-- One symbol, decoded by either decoder `k`: the state is ready for the next. -/
theorem exec_decoder_of_code {k : Instr} (hk : k = .dec ∨ k = .decm) (he : s.err = 0) (hc : Consistent s)
    (ht : TreeAt s t) (hw : (c, w) ∈ t.codes) (hs : s.src = w ++ rest)
    (hle : s.ppos.toNat + w.length ≤ s.total.toNat) :
    ∃ s' r, exec k s = .next s' ∧ s'.err = 0 ∧ Consistent s' ∧ TreeAt s' t ∧ s'.src = rest ∧
      s'.ppos.toNat = s.ppos.toNat + w.length ∧ s'.total = s.total ∧ s'.resps = s.resps ++ [r] ∧
      r.r0.extractLsb' 0 8 = c ∧ r.r0.extractLsb' 60 4 = 0#4 := by
  have hppos := add_ofNat_toNat hle
  obtain ⟨s', hrun', hcons⟩ := exec_sound k fun _ => hc
  rcases hk with rfl | rfl
  · have hrun := exec_dec_of_code he hc ht hw hs hle
    obtain rfl := Host.Outcome.next.inj (hrun.symm.trans hrun')
    exact ⟨_, _, hrun, he, hcons he, ht, rfl, hppos, rfl, completed_resps .., packR0_sym .., packR0_err ..⟩
  · obtain ⟨code, -, hrun⟩ := exec_decm_of_code he hc ht hw hs hle
    obtain rfl := Host.Outcome.next.inj (hrun.symm.trans hrun')
    exact ⟨_, _, hrun, he, hcons he, ht, rfl, hppos, rfl, completed_resps .., packR0_sym .., packR0_err ..⟩

theorem execAll_decode {code : Sym → BitStr} (hcode : IsCode t code) (cs : List Sym) (ks : List Instr)
    (hcs : ∀ c ∈ cs, c ∈ t.leaves) (hks : ∀ k ∈ ks, k = .dec ∨ k = .decm) (hlen : ks.length = cs.length)
    (he : s.err = 0) (hc : Consistent s) (ht : TreeAt s t) (hs : s.src = cs.flatMap code ++ rest)
    (hle : s.ppos.toNat + (cs.flatMap code).length ≤ s.total.toNat) :
    ∃ s' rs, execAll ks s = .next s' ∧ s'.err = 0 ∧ s'.src = rest ∧
      s'.ppos.toNat = s.ppos.toNat + (cs.flatMap code).length ∧ s'.resps = s.resps ++ rs ∧
      rs.map (fun r => r.r0.extractLsb' 0 8) = cs ∧ ∀ r ∈ rs, r.r0.extractLsb' 60 4 = 0#4 := by
  induction cs generalizing s ks with
  | nil =>
    obtain rfl := List.length_eq_zero_iff.1 hlen
    exact ⟨s, [], rfl, he, hs, rfl, (List.append_nil _).symm, rfl, fun _ h => absurd h List.not_mem_nil⟩
  | cons c cs ih =>
    obtain ⟨k, ks, rfl⟩ := List.exists_cons_of_length_eq_add_one hlen
    obtain ⟨hleaf, hcs⟩ := List.forall_mem_cons.1 hcs
    obtain ⟨hk, hks⟩ := List.forall_mem_cons.1 hks
    rw [List.flatMap_cons, List.append_assoc] at hs
    rw [List.flatMap_cons, List.length_append] at hle ⊢
    obtain ⟨s1, r, hrun, he1, hc1, ht1, hs1, hppos, htotal, hresps, hsym, herr⟩ :=
      exec_decoder_of_code hk he hc ht (hcode c hleaf) hs (by omega)
    obtain ⟨s', rs, hruns, he', hs', hppos', hresps', hsyms, herrs⟩ :=
      ih ks hcs hks (Nat.succ.inj hlen) he1 hc1 ht1 hs1 (by rw [hppos, htotal]; omega)
    refine ⟨s', r :: rs, ?_, he', hs', by omega, ?_, ?_, List.forall_mem_cons.2 ⟨herr, herrs⟩⟩
    · rw [execAll, hrun]
      exact hruns
    · rw [hresps', hresps, List.append_assoc, List.singleton_append]
    · rw [List.map_cons, hsym, hsyms]

/-- Settles O52: the bits are the concatenated codes, and a state with the same tree has the same codes. -/
theorem payloadRoundTrip : Obligations.PayloadRoundTrip := by
  intro s t cs he hc ht hcs
  have hcode := isCode_codeOf hc ht
  obtain ⟨s', hruns, hsink, hppos⟩ := execAll_enc hcode cs hcs he hc ht
  exact ⟨cs.flatMap (codeOf s), s', hruns, hsink, hppos, length_flatMap_codeOf hc ht,
    fun d ks rest hde hdc hdt hs hle hlen hks => execAll_decode hcode cs ks hcs hks hlen hde hdc hdt hs hle⟩

end Sys2Proof.Machine

end
